-- ==== Sys2Proof/Word.lean ====
section
/-! DEFINITION. The plain types every other file names: bytes, 16-bit words, levels, pins, drives, panel
variants, clock requests, acquisition draws, rectangles and pixel formats (00_scope.md R2, R7; 10_state.md
R20, R21, R24, R29, R35). -/

namespace Sys2Proof

/-- A byte (R7). -/
abbrev Byte := BitVec 8

/-- A 16-bit word: `CMD`, `RESULT`, `STATUS`, an RGB565 pixel. -/
abbrev Half := BitVec 16

/-- The byte at address `a`, or any other total map from addresses to bytes (`env.img`, R35). -/
abbrev Image := Nat → Byte

/-- A level: 0 (low, `L`) or 1 (high, `H`) (R7). -/
inductive Level where
  | low
  | high
  deriving DecidableEq, Repr, Inhabited

/-- `NOT` on a level (R7). -/
def Level.not : Level → Level
  | .low => .high
  | .high => .low

/-- The number a level stands for. -/
def Level.toNat : Level → Nat
  | .low => 0
  | .high => 1

/-- The four pins (R29). -/
inductive Pin where
  | rst
  | dc
  | cs
  | led
  deriving DecidableEq, Repr, Inhabited

/-- The drive kind of a configured pad: push-pull (`PP`) or open-drain (`OD`) (R9). -/
inductive Drive where
  | pp
  | od
  deriving DecidableEq, Repr, Inhabited

/-- The two panel variants; "not initialised" is `none` of `Option Variant` (R2). -/
inductive Variant where
  | shield18
  | shield096
  deriving DecidableEq, Repr, Inhabited

/-- A clock request: a frequency in Hz or a prescaler (R33, R100). -/
inductive ClockReq where
  | hz (n : Nat)
  | div (n : Nat)
  deriving DecidableEq, Repr, Inhabited

/-- One draw of `env.acq` (R35): everything can be acquired, the SPI controller cannot, or one pad cannot. -/
inductive Acq where
  | ok
  | spiFail
  | gpioFail (p : Pin)
  deriving DecidableEq, Repr, Inhabited

/-- A rectangle in image coordinates (R11, R24). -/
structure Rect where
  x : Nat
  y : Nat
  w : Nat
  h : Nat
  deriving DecidableEq, Repr, Inhabited

/-- The two pixel formats the block supports (R24: code 1 and code 2). -/
inductive Fmt where
  | gs8
  | rgb565
  deriving DecidableEq, Repr, Inhabited

end Sys2Proof
end

