-- ==== Sys2Proof/Syntax.lean ====
section
/-! DEFINITION. The instructions: one constructor per row of spec/opcode_table.json, at the three levels of
00_scope.md R6. -/

namespace Sys2Proof

/-- The operations of the block (R6). Level H: the nine host commands (format HOST16). Level S: the nineteen
sequencer steps (no binary form). Level W: the twenty-four wire symbols (format WIRE9). -/
inductive Instr where
  /-- `INIT`: `typ = none` is `type_given = 0`, `bgr = none` is `bgr_given = 0` (R72). -/
  | init (typ : Option Byte) (bgr : Option Bool)
  | deinit
  | width
  | height
  | type
  /-- `SET_BACKLIGHT`: `state = ARG[11:0]` (R73). -/
  | setBacklight (state : BitVec 12)
  | getBacklight
  /-- `DISPLAY`: `roi_given = ARG[0]` (R73). -/
  | display (roiGiven : Bool)
  | clear
  /-- `configure_output(pin, drive)` with its idle level (R90). -/
  | configureOutput (pin : Pin) (drive : Drive) (level : Level)
  | write (pin : Pin) (level : Level)
  | read (pin : Pin)
  | release (pin : Pin)
  /-- `open(clock_req, polarity=0, phase=0)`: polarity and phase are the constants 0 (R100), no operands. -/
  | spiOpen (req : ClockReq)
  | sendByte (b : Byte)
  | sendBytes (buf : List Byte) (len : Nat)
  | spiClose
  | cmd (op : Byte)
  | param (b : Byte)
  | cmdWithParams (op : Byte) (params : List Byte)
  | data (buf : List Byte) (len : Nat)
  | sleep (ms : Nat)
  | initSequence (v : Variant) (bgr : Bool)
  | geometry (rect : Rect) (w h : Nat)
  | gs2rgb565 (p : Byte)
  | pump (fmt : Fmt) (rect : Rect) (lPad rPad tPad bPad : Nat)
  | clearStream
  | rollback
  | swreset
  | slpout
  | noron
  | invoff
  | invon
  | dispon
  | caset
  | raset
  | ramwr
  | madctl
  | colmod
  | frmctr1
  | frmctr2
  | frmctr3
  | invctr
  | pwctr1
  | pwctr2
  | pwctr3
  | pwctr4
  | pwctr5
  | vmctr1
  | gmctrp
  | gmctrn
  /-- A symbol with DC high: a parameter or pixel-data byte (R77). -/
  | dataOrParameterByte (b : Byte)
  deriving DecidableEq, Repr, Inhabited

/-- The level of an operation (R6). -/
inductive InstrLevel where
  | host
  | step
  | wire
  deriving DecidableEq, Repr

/-- Which level an operation belongs to (R6). -/
def Instr.level : Instr → InstrLevel
  | .init _ _ | .deinit | .width | .height | .type | .setBacklight _ | .getBacklight | .display _ | .clear => .host
  | .configureOutput _ _ _ | .write _ _ | .read _ | .release _ | .spiOpen _ | .sendByte _ | .sendBytes _ _
  | .spiClose | .cmd _ | .param _ | .cmdWithParams _ _ | .data _ _ | .sleep _ | .initSequence _ _
  | .geometry _ _ _ | .gs2rgb565 _ | .pump _ _ _ _ _ _ | .clearStream | .rollback => .step
  | .swreset | .slpout | .noron | .invoff | .invon | .dispon | .caset | .raset | .ramwr | .madctl | .colmod
  | .frmctr1 | .frmctr2 | .frmctr3 | .invctr | .pwctr1 | .pwctr2 | .pwctr3 | .pwctr4 | .pwctr5 | .vmctr1
  | .gmctrp | .gmctrn | .dataOrParameterByte _ => .wire

end Sys2Proof
end

