-- ==== Sys2Proof/Decode.lean ====
section
/-! DEFINITION. The two encodings (30_encoding.md): the 16-bit host command word (HOST16, R70 to R76) and the 9-bit
wire symbol (WIRE9, R77 to R79). Decoding is total and rejects by name; the encoder stands after it. Level S steps
have no binary form. -/

namespace Sys2Proof

/-- A word of one of the two formats. -/
inductive CodeWord where
  | host (cw : Half)
  | wire (sym : BitVec 9)
  deriving DecidableEq, Repr

/-- Why a word encodes nothing. The first four are the illegal host words of R76; the last is a command symbol
outside R79. -/
inductive Reject where
  /-- `OP` is 0x0 or 0xA to 0xF. -/
  | reservedOpcode
  /-- A bit of `ARG` that must be 0 is set. -/
  | mustBeZero
  /-- `INIT` with `type_given = 0` and a `type` that is not 0. -/
  | typeNotGiven
  /-- `INIT` with `bgr_given = 0` and `bgr = 1`. -/
  | bgrNotGiven
  /-- A symbol with DC low whose byte is none of R79's. -/
  | notACommandByte
  deriving DecidableEq, Repr

/-- What a word decodes to. -/
inductive Decoded where
  | instr (i : Instr)
  | reject (r : Reject)
  deriving DecidableEq, Repr

/-- `INIT`'s argument (R72). -/
def decodeInit (arg : BitVec 12) : Decoded :=
  let typ := arg.extractLsb' 0 8
  let bgr := arg.getLsbD 8
  let bgrGiven := arg.getLsbD 9
  let typeGiven := arg.getLsbD 10
  if arg.getLsbD 11 then .reject .mustBeZero
  else if !typeGiven && typ != 0#8 then .reject .typeNotGiven
  else if !bgrGiven && bgr then .reject .bgrNotGiven
  else .instr (.init (if typeGiven then some typ else none) (if bgrGiven then some bgr else none))

/-- A command whose whole argument must be 0 (R71). -/
def decodeNoArg (arg : BitVec 12) (i : Instr) : Decoded :=
  if arg = 0#12 then .instr i else .reject .mustBeZero

/-- The host command a word encodes (R70 to R73, R76). -/
def decodeHost (cw : Half) : Decoded :=
  let arg := cw.extractLsb' 0 12
  match (cw.extractLsb' 12 4).toNat with
  | 1 => decodeInit arg
  | 2 => decodeNoArg arg .deinit
  | 3 => decodeNoArg arg .width
  | 4 => decodeNoArg arg .height
  | 5 => decodeNoArg arg .type
  | 6 => .instr (.setBacklight arg)
  | 7 => decodeNoArg arg .getBacklight
  | 8 => if arg.extractLsb' 1 11 = 0#11 then .instr (.display (arg.getLsbD 0)) else .reject .mustBeZero
  | 9 => decodeNoArg arg .clear
  | _ => .reject .reservedOpcode

/-- The command symbol with byte `b` (R79). -/
def decodeCommandByte (b : Byte) : Decoded :=
  match b.toNat with
  | 0x01 => .instr .swreset
  | 0x11 => .instr .slpout
  | 0x13 => .instr .noron
  | 0x20 => .instr .invoff
  | 0x21 => .instr .invon
  | 0x29 => .instr .dispon
  | 0x2A => .instr .caset
  | 0x2B => .instr .raset
  | 0x2C => .instr .ramwr
  | 0x36 => .instr .madctl
  | 0x3A => .instr .colmod
  | 0xB1 => .instr .frmctr1
  | 0xB2 => .instr .frmctr2
  | 0xB3 => .instr .frmctr3
  | 0xB4 => .instr .invctr
  | 0xC0 => .instr .pwctr1
  | 0xC1 => .instr .pwctr2
  | 0xC2 => .instr .pwctr3
  | 0xC3 => .instr .pwctr4
  | 0xC4 => .instr .pwctr5
  | 0xC5 => .instr .vmctr1
  | 0xE0 => .instr .gmctrp
  | 0xE1 => .instr .gmctrn
  | _ => .reject .notACommandByte

/-- The wire symbol `sym`: `sym[8]` is the DC level, `sym[7:0]` the byte (R77). -/
def decodeWire (sym : BitVec 9) : Decoded :=
  if sym.getLsbD 8 then .instr (.dataOrParameterByte (sym.extractLsb' 0 8))
  else decodeCommandByte (sym.extractLsb' 0 8)

/-- The instruction a word of either format encodes. -/
def decode : CodeWord → Decoded
  | .host cw => decodeHost cw
  | .wire sym => decodeWire sym

/-- Which format a table row's word of `nbits` bits is in: every legal HOST16 word has an opcode of at least 1 and
so is at least 0x1000, every WIRE9 word is below 0x200 (log 16). -/
def codeWordOf (w : Nat) : CodeWord :=
  if w < 512 then .wire (BitVec.ofNat 9 w) else .host (BitVec.ofNat 16 w)

/-- The instruction the decoder reads from a word numbered as spec/opcode_table.json numbers it. The block's words
are single register writes or symbols and have no byte order (R54 (f)). -/
def decodeTableWord (nbits w : Nat) : Option Instr :=
  if nbits = 0 ∨ 16 < nbits ∨ 2 ^ nbits ≤ w then none
  else match decode (codeWordOf w) with
    | .instr i => some i
    | .reject _ => none

/-- One bit of a word. -/
def bit (b : Bool) : BitVec 1 := BitVec.ofBool b

/-- `cw = OP ++ ARG` (R70). -/
def hostWord (op : BitVec 4) (arg : BitVec 12) : CodeWord := .host (op ++ arg)

/-- `INIT`'s argument: `0 ++ type_given ++ bgr_given ++ bgr ++ type` (R72). -/
def encodeInitArg (typ : Option Byte) (bgr : Option Bool) : BitVec 12 :=
  (0#1 ++ (bit typ.isSome ++ (bit bgr.isSome ++ (bit (bgr.getD false) ++ typ.getD 0#8))) : BitVec 12)

/-- A command symbol: DC low, then the byte (R77). -/
def cmdSymbol (op : Byte) : CodeWord := .wire (0#1 ++ op : BitVec 9)

/-- The word that encodes an instruction (R71 to R73, R77, R79); level S steps have none. -/
def encode : Instr → Option CodeWord
  | .init typ bgr => some (hostWord 0x1#4 (encodeInitArg typ bgr))
  | .deinit => some (hostWord 0x2#4 0#12)
  | .width => some (hostWord 0x3#4 0#12)
  | .height => some (hostWord 0x4#4 0#12)
  | .type => some (hostWord 0x5#4 0#12)
  | .setBacklight state => some (hostWord 0x6#4 state)
  | .getBacklight => some (hostWord 0x7#4 0#12)
  | .display roi => some (hostWord 0x8#4 (0#11 ++ bit roi))
  | .clear => some (hostWord 0x9#4 0#12)
  | .configureOutput _ _ _ | .write _ _ | .read _ | .release _ | .spiOpen _ | .sendByte _ | .sendBytes _ _
  | .spiClose | .cmd _ | .param _ | .cmdWithParams _ _ | .data _ _ | .sleep _ | .initSequence _ _
  | .geometry _ _ _ | .gs2rgb565 _ | .pump _ _ _ _ _ _ | .clearStream | .rollback => none
  | .swreset => some (cmdSymbol 0x01#8)
  | .slpout => some (cmdSymbol 0x11#8)
  | .noron => some (cmdSymbol 0x13#8)
  | .invoff => some (cmdSymbol 0x20#8)
  | .invon => some (cmdSymbol 0x21#8)
  | .dispon => some (cmdSymbol 0x29#8)
  | .caset => some (cmdSymbol 0x2A#8)
  | .raset => some (cmdSymbol 0x2B#8)
  | .ramwr => some (cmdSymbol 0x2C#8)
  | .madctl => some (cmdSymbol 0x36#8)
  | .colmod => some (cmdSymbol 0x3A#8)
  | .frmctr1 => some (cmdSymbol 0xB1#8)
  | .frmctr2 => some (cmdSymbol 0xB2#8)
  | .frmctr3 => some (cmdSymbol 0xB3#8)
  | .invctr => some (cmdSymbol 0xB4#8)
  | .pwctr1 => some (cmdSymbol 0xC0#8)
  | .pwctr2 => some (cmdSymbol 0xC1#8)
  | .pwctr3 => some (cmdSymbol 0xC2#8)
  | .pwctr4 => some (cmdSymbol 0xC3#8)
  | .pwctr5 => some (cmdSymbol 0xC4#8)
  | .vmctr1 => some (cmdSymbol 0xC5#8)
  | .gmctrp => some (cmdSymbol 0xE0#8)
  | .gmctrn => some (cmdSymbol 0xE1#8)
  | .dataOrParameterByte b => some (.wire (1#1 ++ b : BitVec 9))

end Sys2Proof
end

