-- ==== Sys2Proof/Machine/State.lean ====
section
/-! DEFINITION. The state of the block (10_state.md) as plain data: DriverState, pads, operand registers, host
registers, sequencer position, line buffer and event trace; and, as data the step reads, the environment (image
memory, acquisition draws, the host's moves). The reset state is 10_state.md R36. -/

namespace Sys2Proof.Machine

/-- The mode of a pad (R29). -/
inductive PadMode where
  | hiZ
  | outPP
  | outOD
  deriving DecidableEq, Repr, Inhabited

/-- A pad: its mode and its output latch (R29). -/
structure Pad where
  mode : PadMode
  latch : Level
  deriving DecidableEq, Repr, Inhabited

/-- The four pads (R29). -/
structure Pads where
  rst : Pad
  dc : Pad
  cs : Pad
  led : Pad
  deriving DecidableEq, Repr, Inhabited

/-- The nine operand registers x0 to x8 (R24). -/
structure OperandRegs where
  imgBase : BitVec 32
  imgW : Half
  imgH : Half
  imgFmt : Byte
  imgMut : BitVec 1
  roiX : Half
  roiY : Half
  roiW : Half
  roiH : Half
  deriving DecidableEq, Repr, Inhabited

/-- The name of an operand register (R24). -/
inductive OperandReg where
  | imgBase
  | imgW
  | imgH
  | imgFmt
  | imgMut
  | roiX
  | roiY
  | roiW
  | roiH
  deriving DecidableEq, Repr, Inhabited

/-- A host write of an operand register, with a value of that register's width (R24). -/
inductive OperandWrite where
  | imgBase (v : BitVec 32)
  | imgW (v : Half)
  | imgH (v : Half)
  | imgFmt (v : Byte)
  | imgMut (v : BitVec 1)
  | roiX (v : Half)
  | roiY (v : Half)
  | roiW (v : Half)
  | roiH (v : Half)
  deriving DecidableEq, Repr, Inhabited

/-- The working registers `geometry` writes (R25). -/
structure Work where
  rect : Rect
  lPad : Nat
  rPad : Nat
  tPad : Nat
  bPad : Nat
  deriving DecidableEq, Repr, Inhabited

/-- The event alphabet (R33). -/
inductive Event where
  | pinCfg (p : Pin) (d : Drive) (l : Level)
  | pinWrite (p : Pin) (l : Level)
  | pinRelease (p : Pin)
  | spiOpen (req : ClockReq)
  | spiByte (b : Byte)
  | spiClose
  | delay (ms : Nat)
  deriving DecidableEq, Repr, Inhabited

/-- The kinds of error (60_exceptions.md R210). -/
inductive ErrKind where
  | uninitialized
  | unsupportedFormat
  | invalidVariant
  | spiUnavailable
  | hardwareUnavailable
  | illegalCommand
  | badRoi
  deriving DecidableEq, Repr, Inhabited

/-- The result of a host command before it is encoded (R74, R75). -/
inductive Result where
  | none
  | int (n : Nat)
  | err (code : Nat)
  deriving DecidableEq, Repr, Inhabited

/-- One entry of a running command's step list (R26): a row of the opcode table, or one of the sub-steps the rules
name that have no row of their own. -/
inductive SeqStep where
  /-- A level S (or level W) operation. -/
  | instr (i : Instr)
  /-- Draw `env.acq` for this `INIT` (R35). -/
  | drawAcq
  /-- `S.variant`, `S.width`, `S.height` at the end of a successful `INIT` (R191). -/
  | setDriver (v : Variant)
  /-- The last assignments of `Deinit()` (R192). -/
  | clearDriver
  /-- `S.backlight_ready <- true` (R148, R197). -/
  | setReady
  /-- One pixel of `convert_row`: pixel `j` of the line from the image byte at `addr` (R178). -/
  | convertPixel (j addr : Nat)
  /-- Byte `k` of the line buffer goes out (R179). -/
  | sendLineByte (k : Nat)
  /-- The image byte at `addr` goes out (R180). -/
  | sendImageByte (addr : Nat)
  /-- An error ends the step list (R220). -/
  | raise (e : ErrKind)
  /-- `return r`: the result is posted and the command ends (R26). -/
  | post (r : Result)
  deriving DecidableEq, Repr, Inhabited

/-- The sequencer's phase: `IDLE`, or `EXEC(c)` for a host command c (R26). -/
inductive Phase where
  | idle
  | exec (c : Instr)
  deriving DecidableEq, Repr, Inhabited

/-- The moves of the host (70_reset_and_hazards.md R256); `inbox` lists them in order (log 1, 2, 3). -/
inductive HostMove where
  /-- Write `CMD`; the command runs as one atomic transition (R27). -/
  | writeCmd (w : Half)
  /-- Write `CMD`; the command's step list is then run one step at a time (R26). -/
  | startCmd (w : Half)
  /-- Let the block run one sequencer step. -/
  | wait
  /-- Let the block run until `busy = 0` (R246). -/
  | waitIdle
  | writeReg (v : OperandWrite)
  | readReg (r : OperandReg)
  | readResult
  | readStatus
  /-- The host changes a byte of image memory (R63, R248). -/
  | writeImage (addr : BitVec 32) (b : Byte)
  /-- The integrator's reset (R240, R241). -/
  | reset
  deriving DecidableEq, Repr, Inhabited

/-- Image memory as the bytes that differ from what an unlisted address reads as, by rising address (log 5). -/
abbrev Memory := List Host.Cell

/-- The machine. -/
structure State where
  /-- `S.variant` (R20); `none` is `None`. -/
  variant : Option Variant
  /-- `S.width` (R20). -/
  width : BitVec 8
  /-- `S.height` (R20). -/
  height : BitVec 8
  /-- `S.spi`: absent, or present with its clock request (R20, R30). -/
  spi : Option ClockReq
  /-- `S.backlight_ready` (R28). -/
  backlightReady : Bool
  /-- `pad[p]` (R29). -/
  pads : Pads
  /-- x0 to x8 (R24). -/
  regs : OperandRegs
  /-- `CMD`: the last word the block accepted (R23, R63). -/
  cmd : Half
  /-- `RESULT` (R23, R74). -/
  result : Half
  /-- `phase` (R26); `STATUS.busy` is 1 exactly when it is `EXEC` (log 12). -/
  phase : Phase
  /-- `seq_pc`: the index of the next step (R26). -/
  seqPc : Nat
  /-- The step list of the running command (R26). -/
  program : List SeqStep
  /-- The working registers (R25). -/
  work : Work
  /-- `S.line` (R31). -/
  line : List Byte
  /-- `S.trace`: every event since reset, oldest first (R33). -/
  trace : List Event
  /-- `env.img` (R35, R50). -/
  mem : Memory
  /-- The model's own: the host's moves still to come (log 1). -/
  inbox : List HostMove
  /-- The model's own: the draw in force for the running `INIT` (R35; log 4). -/
  acq : Acq
  /-- The model's own: the draws the environment has queued (R35; log 4). -/
  acqQueue : List Acq
  /-- The model's own: how many draws were made (log 4). -/
  acqDrawn : Nat
  /-- The model's own: every result word posted since reset, oldest first, half of a run's observation (R256; log 30). -/
  results : List Half
  /-- The model's own: what the last value-returning step returned (log 17). -/
  value : Half
  /-- The model's own: what the host's last register read returned (log 10). -/
  readData : BitVec 32
  deriving DecidableEq, Repr, Inhabited

/-- How a step can stop for good. -/
inductive Fault where
  /-- A byte was to be sent while the SPI session is absent, which `require S.spi present` of R102 and R103
  excludes. Raised by the sending operations of level S and level W, and by `DISPLAY` and `CLEAR` in a state no run
  reaches (a variant without a session). Safe: the machine stops where the spec gives no effect (log 15). -/
  | sendWithoutSession
  deriving DecidableEq, Repr

/-- Why an instruction has no meaning. -/
inductive Refusal where
  /-- The instruction of this mnemonic has no meaning in the model yet; raised by no arm. Safe. -/
  | notModelled (mnemonic : String)
  deriving DecidableEq, Repr

/-- A pad after reset: `HiZ`; its latch is unspecified (R36), low here (log 8). -/
def Pad.reset : Pad := ⟨.hiZ, .low⟩

/-- The machine right after reset (R36, R240). The values R36 leaves unspecified are those of log 7 to 10. -/
def State.reset : State where
  variant := none
  width := 0#8
  height := 0#8
  spi := none
  backlightReady := false
  pads := ⟨Pad.reset, Pad.reset, Pad.reset, Pad.reset⟩
  regs := ⟨0#32, 0#16, 0#16, 0#8, 0#1, 0#16, 0#16, 0#16, 0#16⟩
  cmd := 0#16
  result := 0#16
  phase := .idle
  seqPc := 0
  program := []
  work := ⟨⟨0, 0, 0, 0⟩, 0, 0, 0, 0⟩
  line := List.replicate 320 0#8
  trace := []
  mem := []
  inbox := []
  acq := .ok
  acqQueue := []
  acqDrawn := 0
  results := []
  value := 0#16
  readData := 0#32

end Sys2Proof.Machine
end

