-- ==== Sys2Proof/Config.lean ====
section
/-! DEFINITION. The OPEN parameters of 00_scope.md R5 and the free values: constants without a body, so that no
proof can lean on a value the spec does not give. The FIXED parameters stand in Machine/Tables.lean. -/

namespace Sys2Proof

/-- `GAMMA_P[k]`, k in 0 to 15: OPEN (R5, R144; log 11). -/
opaque Config.gammaP : Nat → Byte

/-- `GAMMA_N[k]`, k in 0 to 15: OPEN (R5, R145; log 11). -/
opaque Config.gammaN : Nat → Byte

/-- The n-th draw of `env.acq` where the environment has queued none (R35): a free value (log 4). -/
opaque Config.acqDraw : Nat → Acq

/-- What the read port returns for an address at or above 2^32: a free value, since such an image is outside the
contract and the address must not wrap (R249 (b); log 6). -/
opaque Config.imgBeyond : Nat → Byte

/-- `F_SPI_KERNEL_HZ`, the SPI controller's input clock: OPEN (R5, R101; log 27). -/
opaque Config.spiKernelHz : Nat

/-- The set P of prescalers of the SPI controller: not specified (R101; log 27). -/
opaque Config.prescalers : List Nat

/-- The bit clock for a frequency request that no prescaler meets, where the source's rule picks out of nothing: a free
value (R101; log 27). -/
opaque Config.unmetClock : Nat → Nat

/-- A port letter's index and a pin number: where a logical pin is on the board (R5, R58). -/
structure PinLoc where
  port : Char
  number : Nat
  deriving DecidableEq, Repr, Inhabited

/-- `PIN_RST`, `PIN_DC`, `PIN_CS`, `PIN_LED`: OPEN, board-defined (R5, R58; log 28). -/
opaque Config.pinLoc : Pin → PinLoc

/-- `SPI_INDEX`: OPEN (R5, R100; log 28). -/
opaque Config.spiIndex : Nat

/-- The source's default pin map (R5, R94): port E pins 15, 13, 11 and 10. -/
def Config.pinLocDefault : Pin → PinLoc
  | .rst => ⟨'E', 15⟩
  | .dc => ⟨'E', 13⟩
  | .cs => ⟨'E', 11⟩
  | .led => ⟨'E', 10⟩

/-- The source's default SPI controller number (R5, R100). -/
def Config.spiIndexDefault : Nat := 4

end Sys2Proof
end

