-- ==== Sys2Proof/Machine/Tables.lean ====
section
/-! DEFINITION. The FIXED parameters of 00_scope.md R5 and the sequence constants: the pin table (40_pins.md R94),
the variant table (43_init_sequence.md R121) and the byte lists of the power-on sequence (R128 to R142), in one
place, so that an audited value can replace one without touching a rule (93_implementation_defined.md U3). -/

namespace Sys2Proof.Machine

/-- The drive kind of each pin (R94). -/
def pinDrive : Pin → Drive
  | .rst => .pp
  | .dc => .pp
  | .cs => .od
  | .led => .od

/-- The idle level of each pin (R94). -/
def pinIdle : Pin → Level
  | .rst => .high
  | .dc => .high
  | .cs => .high
  | .led => .low

/-- The numeric code of a variant (R21). -/
def variantCode : Variant → Nat
  | .shield18 => 1
  | .shield096 => 2

/-- The variant a code of `INIT` names; 0 and every number above 2 name none (R21). -/
def variantOfCode : Nat → Option Variant
  | 1 => some .shield18
  | 2 => some .shield096
  | _ => none

/-- `DEFAULT_VARIANT`, as its code (R5, R72). -/
def defaultVcode : Byte := 2#8

/-- `PANEL_W` (R5). -/
def panelW : Variant → BitVec 8
  | .shield18 => 128#8
  | .shield096 => 160#8

/-- `PANEL_H` (R5). -/
def panelH : Variant → BitVec 8
  | .shield18 => 160#8
  | .shield096 => 80#8

/-- `X_OFF`, the first panel column in the controller's column space (R5). -/
def xOff : Variant → Nat
  | .shield18 => 0
  | .shield096 => 1

/-- `Y_OFF`, the first panel row in the controller's row space (R5). -/
def yOff : Variant → Nat
  | .shield18 => 0
  | .shield096 => 26

/-- `DEFAULT_BGR` (R5). -/
def defaultBgr : Variant → Bool
  | .shield18 => false
  | .shield096 => true

/-- `MADCTL_BASE` (R5). -/
def madctlBase : Variant → Byte
  | .shield18 => 0xC0#8
  | .shield096 => 0xA0#8

/-- `SPI_CLK_REQ` (R5, R100). -/
def clockReq : Variant → ClockReq
  | .shield18 => .hz 15151515
  | .shield096 => .div 8

/-- The four-byte CASET list of the init sequence: start and end column, high byte first (R80 (b), R141, R142). -/
def casetInit : Variant → List Byte
  | .shield18 => [0x00#8, 0x00#8, 0x00#8, 0x7F#8]
  | .shield096 => [0x00#8, 0x01#8, 0x00#8, 0xA0#8]

/-- The four-byte RASET list of the init sequence (R80 (b), R141, R142). -/
def rasetInit : Variant → List Byte
  | .shield18 => [0x00#8, 0x00#8, 0x00#8, 0x9F#8]
  | .shield096 => [0x00#8, 0x1A#8, 0x00#8, 0x69#8]

/-- The two-byte CASET list of the window reset (R80 (c), R174): the start only. -/
def casetWindow : List Byte := [0x00#8, 0x01#8]

/-- The two-byte RASET list of the window reset (R80 (c), R174). -/
def rasetWindow : List Byte := [0x00#8, 0x1A#8]

/-- `T_RESET`, `T_SLPOUT`, `T_NORON`, `T_DISPON` in ms (R5). -/
def tReset : Nat := 120
def tSlpout : Nat := 120
def tNoron : Nat := 10
def tDispon : Nat := 100

/-- The MADCTL parameter (R80 (a), R138). -/
def madctlParam (v : Variant) (bgr : Bool) : Byte :=
  madctlBase v ||| ((BitVec.ofBool bgr).setWidth 8 <<< 3)

/-- The parameter lists of the common prologue (R128 to R137). -/
def frmctr1Params : List Byte := [0x01#8, 0x2C#8, 0x2D#8]
def frmctr3Params : List Byte := [0x01#8, 0x2C#8, 0x2D#8, 0x01#8, 0x2C#8, 0x2D#8]
def invctrParams : List Byte := [0x07#8]
def pwctr1Params : List Byte := [0xA2#8, 0x02#8, 0x84#8]
def pwctr2Params : List Byte := [0xC5#8]
def pwctr3Params : List Byte := [0x0A#8, 0x00#8]
def pwctr4Params : List Byte := [0x8A#8, 0x2A#8]
def pwctr5Params : List Byte := [0x8A#8, 0xEE#8]
def vmctr1Params : List Byte := [0x0E#8]

/-- The COLMOD parameter: 16-bit RGB565 (R139). -/
def colmodParams : List Byte := [0x05#8]

/-- The sixteen GMCTRP parameters, in index order (R80 (e), R144). -/
def gammaPParams : List Byte := (List.range 16).map Config.gammaP

/-- The sixteen GMCTRN parameters, in index order (R80 (e), R145). -/
def gammaNParams : List Byte := (List.range 16).map Config.gammaN

/-- The "choose panel" command byte: inversion off or on (R140). -/
def choosePanel : Variant → Byte
  | .shield18 => 0x20#8
  | .shield096 => 0x21#8

/-- The complete set of command bytes that can appear on the wire (R79). -/
def commandBytes : List Byte :=
  [0x01#8, 0x11#8, 0x13#8, 0x20#8, 0x21#8, 0x29#8, 0x2A#8, 0x2B#8, 0x2C#8, 0x36#8, 0x3A#8, 0xB1#8,
   0xB2#8, 0xB3#8, 0xB4#8, 0xC0#8, 0xC1#8, 0xC2#8, 0xC3#8, 0xC4#8, 0xC5#8, 0xE0#8, 0xE1#8]

/-- The size of the line buffer (R31). -/
def lineBytes : Nat := 320

/-- The clocks, in whole Hz, that a controller of kernel clock `kernel` and prescalers `ps` gives at or below a frequency
request of n Hz (R101). -/
def supportedClocks (kernel : Nat) (ps : List Nat) (n : Nat) : List Nat :=
  (ps.filter fun d => kernel ≤ n * d).map (kernel / ·)

/-- The clock such a controller picks for a request of n Hz: the highest supported one at or below n (R101). Where there is
none the rule takes the greatest of an empty set and says nothing: DESIGN CHOICE, a free value, kept at or below n as R253
wants (log 27). -/
def pickClock (kernel : Nat) (ps : List Nat) (n : Nat) : Nat :=
  if supportedClocks kernel ps n = [] then min n (Config.unmetClock n) else (supportedClocks kernel ps n).foldl max 0

/-- The actual SPI bit clock for a request (R101): for `Hz n` what the controller picks, for `Div n` the kernel clock
divided by n. Nothing depends on it (log 27). -/
def bitClock : ClockReq → Nat
  | .hz n => pickClock Config.spiKernelHz Config.prescalers n
  | .div n => Config.spiKernelHz / n

end Sys2Proof.Machine
end

