-- ==== Sys2Proof/Machine/Flags.lean ====
section
/-! DEFINITION. Flags, status and result words: `STATUS` (10_state.md R23, R28), the result word (30_encoding.md R74,
R75), what each error posts and whether it rolls back (60_exceptions.md R210), and the backlight level (R197, R198). -/

namespace Sys2Proof.Machine

/-- The command `phase` is executing, if any. -/
def Phase.command : Phase → Option Instr
  | .idle => none
  | .exec c => some c

/-- `STATUS.busy`: 1 from the write of `CMD` until the command has completed (R23). -/
def State.busy (s : State) : Bool := s.phase.command.isSome

/-- `STATUS`: bit 0 is `busy`, bits [15:1] read as 0 (R23). -/
def State.status (s : State) : Half := (BitVec.ofBool s.busy).setWidth 16

/-- The result word `kind ++ value` (R74). -/
def resultWord (kind : BitVec 2) (value : BitVec 14) : Half := (kind ++ value : BitVec 16)

/-- The word a result is posted as (R74). -/
def Result.word : Result → Half
  | .none => resultWord 0#2 0#14
  | .int n => resultWord 1#2 (BitVec.ofNat 14 n)
  | .err code => resultWord 2#2 (BitVec.ofNat 14 code)

/-- What each kind of error posts (R75, R210): `Uninitialized` and `InvalidVariant` are the `NONE` result. -/
def ErrKind.result : ErrKind → Result
  | .uninitialized => .none
  | .unsupportedFormat => .err 3
  | .invalidVariant => .none
  | .spiUnavailable => .err 1
  | .hardwareUnavailable => .err 2
  | .illegalCommand => .err 4
  | .badRoi => .err 5

/-- The errors whose rule names the recovery `Rollback()` (R214, R215). -/
def ErrKind.rollsBack : ErrKind → Bool
  | .spiUnavailable => true
  | .hardwareUnavailable => true
  | .uninitialized | .unsupportedFormat | .invalidVariant | .illegalCommand | .badRoi => false

/-- `on = (state ≠ 0)` (R73). -/
def backlightOn (state : BitVec 12) : Bool := state != 0#12

/-- `NOT on`, the level written to LED (R197). -/
def ledLevel (on : Bool) : Level := if on then .low else .high

/-- `1 - read(LED)` (R198). -/
def backlightValue (l : Level) : Nat := 1 - l.toNat

end Sys2Proof.Machine
end

