-- ==== Sys2Proof/Machine/Operands.lean ====
section
/-! DEFINITION. Operands: pads by name (10_state.md R29), operand registers by name (R24), the decoded arguments of
`INIT` and `DISPLAY` (30_encoding.md R72, R73; 46_host_commands.md R191, R199), and the image layout
(20_memory.md R51). -/

namespace Sys2Proof.Machine

/-- `pad[p]`. -/
def Pads.get (ps : Pads) : Pin → Pad
  | .rst => ps.rst
  | .dc => ps.dc
  | .cs => ps.cs
  | .led => ps.led

/-- `pad[p] <- v`. -/
def Pads.set (ps : Pads) (p : Pin) (v : Pad) : Pads :=
  match p with
  | .rst => { ps with rst := v }
  | .dc => { ps with dc := v }
  | .cs => { ps with cs := v }
  | .led => { ps with led := v }

/-- The output mode of a drive kind (R90). -/
def driveMode : Drive → PadMode
  | .pp => .outPP
  | .od => .outOD

/-- The level a pad drives onto its wire; `none` is high impedance (R29, R96). -/
def Pad.drives (p : Pad) : Option Level :=
  match p.mode with
  | .hiZ => none
  | .outPP => some p.latch
  | .outOD => if p.latch = .low then some .low else none

/-- The register number n of xn (R24). -/
def OperandReg.number : OperandReg → Nat
  | .imgBase => 0
  | .imgW => 1
  | .imgH => 2
  | .imgFmt => 3
  | .imgMut => 4
  | .roiX => 5
  | .roiY => 6
  | .roiW => 7
  | .roiH => 8

/-- A host read of an operand register, extended with zeros to the widest register (R24). -/
def OperandRegs.read (x : OperandRegs) : OperandReg → BitVec 32
  | .imgBase => x.imgBase
  | .imgW => x.imgW.setWidth 32
  | .imgH => x.imgH.setWidth 32
  | .imgFmt => x.imgFmt.setWidth 32
  | .imgMut => x.imgMut.setWidth 32
  | .roiX => x.roiX.setWidth 32
  | .roiY => x.roiY.setWidth 32
  | .roiW => x.roiW.setWidth 32
  | .roiH => x.roiH.setWidth 32

/-- A host write of an operand register (R24). -/
def OperandRegs.write (x : OperandRegs) : OperandWrite → OperandRegs
  | .imgBase v => { x with imgBase := v }
  | .imgW v => { x with imgW := v }
  | .imgH v => { x with imgH := v }
  | .imgFmt v => { x with imgFmt := v }
  | .imgMut v => { x with imgMut := v }
  | .roiX v => { x with roiX := v }
  | .roiY v => { x with roiY := v }
  | .roiW v => { x with roiW := v }
  | .roiH v => { x with roiH := v }

/-- `vcode`: `type` if given, else the default variant's code (R72). -/
def vcodeOf (typ : Option Byte) : Nat := (typ.getD defaultVcode).toNat

/-- `bgr`: the bit given, else the variant's default (R72, R191). -/
def bgrOf (v : Variant) (bgr : Option Bool) : Bool := bgr.getD (defaultBgr v)

/-- The pixel format a code of `IMG_FMT` names (R24). -/
def fmtOf (code : Byte) : Option Fmt :=
  if code = 1#8 then some .gs8 else if code = 2#8 then some .rgb565 else none

/-- The format `DISPLAY` accepts, if `IMG_FMT` is supported and the image is mutable (R199, R212). -/
def displayFmt (x : OperandRegs) : Option Fmt :=
  if x.imgMut = 0#1 then none else fmtOf x.imgFmt

/-- `rect` of `DISPLAY`: the region of interest if given, else the full image (R73, R199). -/
def displayRect (x : OperandRegs) (roiGiven : Bool) : Rect :=
  if roiGiven then ⟨x.roiX.toNat, x.roiY.toNat, x.roiW.toNat, x.roiH.toNat⟩
  else ⟨0, 0, x.imgW.toNat, x.imgH.toNat⟩

/-- The rectangle lies inside the image; the sums do not wrap (R199, R217). -/
def rectInside (r : Rect) (x : OperandRegs) : Bool :=
  r.x + r.w ≤ x.imgW.toNat && r.y + r.h ≤ x.imgH.toNat

/-- Bytes per pixel (R51). -/
def bpp : Fmt → Nat
  | .gs8 => 1
  | .rgb565 => 2

/-- `A(x, y) = IMG_BASE + bpp * (y * IMG_W + x)`, in unbounded integers (R51). -/
def pixelAddr (r : OperandRegs) (fmt : Fmt) (x y : Nat) : Nat :=
  r.imgBase.toNat + bpp fmt * (y * r.imgW.toNat + x)

end Sys2Proof.Machine
end

