-- ==== Sys2Proof/Machine/Ops.lean ====
section
/-! DEFINITION. The named operations over the state: image memory (20_memory.md R50 to R53), pads (40_pins.md R90 to
R93), the SPI session (41_spi.md R100 to R104), frames (42_frames.md R110 to R113), taking an error
(60_exceptions.md R220), `Rollback` and `Deinit` (R215, R192), the initialisation sequence (43_init_sequence.md), the
geometry unit (44_geometry.md) and the pixel pump (45_pixel_pump.md). -/

namespace Sys2Proof.Machine

/-! ### Image memory -/

/-- What an address that no cell lists reads as: image memory has no contents the spec gives (log 5). -/
def Memory.unlisted : Byte := 0#8

/-- A byte of image memory inside the address space. -/
def Memory.lookup : Memory → Nat → Byte
  | [], _ => Memory.unlisted
  | c :: m, a => if c.1 = a then c.2 else Memory.lookup m a

/-- The byte the read port returns: R50's memory below 2^32, a free value at and above it (R249 (b); log 6). -/
def Memory.read (m : Memory) (a : Nat) : Byte :=
  if a < 2 ^ 32 then m.lookup a else Config.imgBeyond a

/-- A byte put in front of the cells of higher addresses; the unlisted value is not listed. -/
def Memory.consCell (a : Nat) (b : Byte) (m : Memory) : Memory :=
  if b = Memory.unlisted then m else (a, b) :: m

/-- One byte of image memory changed; keeps the canonical form. -/
def Memory.write : Memory → Nat → Byte → Memory
  | [], a, b => Memory.consCell a b []
  | c :: m, a, b =>
    if a < c.1 then Memory.consCell a b (c :: m)
    else if c.1 = a then Memory.consCell a b m
    else c :: Memory.write m a b

/-- The addresses from `lo` on, strictly rising and below 2^32, and no listed byte is the unlisted value. -/
def Memory.wfFrom : Nat → Memory → Bool
  | _, [] => true
  | lo, c :: m => lo ≤ c.1 && c.1 < 2 ^ 32 && c.2 != Memory.unlisted && Memory.wfFrom (c.1 + 1) m

/-- The canonical form: equal memories are equal lists. -/
def Memory.wf (m : Memory) : Bool := Memory.wfFrom 0 m

/-- `ImgRead8(addr)` (R52). -/
def imgRead8 (m : Memory) (a : Nat) : Byte := m.read a

/-- `ImgRead16BE(addr)`: the byte at the lower address is bits [15:8] (R53). -/
def imgRead16BE (m : Memory) (a : Nat) : Half := (imgRead8 m a ++ imgRead8 m (a + 1) : BitVec 16)

/-! ### Events and pads -/

/-- `emit(e)` for each event of a list, in order (R8, R33). -/
def emit (es : List Event) (s : State) : State := { s with trace := s.trace ++ es }

/-- `pad[p].latch <- l`. -/
def setLatch (p : Pin) (l : Level) (s : State) : State :=
  { s with pads := s.pads.set p { s.pads.get p with latch := l } }

/-- `pad[p].mode <- m`. -/
def setMode (p : Pin) (m : PadMode) (s : State) : State :=
  { s with pads := s.pads.set p { s.pads.get p with mode := m } }

/-- How a sequencer step that can fail ends (R149, R210). -/
inductive StepOut where
  | done (s : State)
  | raised (e : ErrKind) (s : State)
  deriving DecidableEq, Repr

/-- The next step of a straight-line list, run unless an error has ended it (R220 (1)). -/
def StepOut.andThen (r : StepOut) (f : State → StepOut) : StepOut :=
  match r with
  | .done s => f s
  | .raised e s => .raised e s

/-- The acquisition draw in force: that of the running `INIT`; outside `INIT` nothing fails (R35, R90, R100). -/
def State.drawInForce (s : State) : Acq :=
  match s.phase with
  | .exec (.init _ _) => s.acq
  | _ => .ok

/-- `configure_output(p, d)` with idle level `l`: the latch first, then the mode (R90, R250). -/
def configureOutput (p : Pin) (d : Drive) (l : Level) (s : State) : StepOut :=
  if s.drawInForce = .gpioFail p then .raised .hardwareUnavailable s
  else .done (emit [.pinCfg p d l] (setMode p (driveMode d) (setLatch p l s)))

/-- `write(p, l)`; a write of the level already held still emits its event (R91). -/
def writePin (p : Pin) (l : Level) (s : State) : State := emit [.pinWrite p l] (setLatch p l s)

/-- `read(p)` returns the latch, not the wire (R92). -/
def readPin (p : Pin) (s : State) : Level := (s.pads.get p).latch

/-- `release(p)`: the latch keeps its value (R93). -/
def releasePin (p : Pin) (s : State) : State := emit [.pinRelease p] (setMode p .hiZ s)

/-! ### The SPI session and the timer -/

/-- `open(req)`: the attempt is an event whether or not it succeeds (R100). -/
def spiOpen (req : ClockReq) (s : State) : StepOut :=
  if s.drawInForce = .spiFail then .raised .spiUnavailable (emit [.spiOpen req] s)
  else .done { emit [.spiOpen req] s with spi := some req }

/-- `send_byte(b)` where the session is present (R102). -/
def sendByte (b : Byte) (s : State) : State := emit [.spiByte b] s

/-- `send_bytes(buf, len)` where the session is present: the first `len` bytes in index order (R103). -/
def sendBytes (buf : List Byte) (len : Nat) (s : State) : State := emit ((buf.take len).map .spiByte) s

/-- `close()` (R104). -/
def spiClose (s : State) : State :=
  if s.spi.isSome then { emit [.spiClose] s with spi := none } else s

/-- `sleep(ms)` (R224). -/
def sleepMs (ms : Nat) (s : State) : State := emit [.delay ms] s

/-- `require S.spi present` (R102, R103): without a session the sending operation has no effect the spec gives. -/
def requireSession (s : State) (k : Host.Outcome State Fault Refusal) : Host.Outcome State Fault Refusal :=
  match s.spi with
  | none => .fault .sendWithoutSession
  | some _ => k

/-! ### Frames -/

/-- `cmd(op)`: CS low, DC low, the byte, CS high (R110). -/
def cmdFrame (op : Byte) (s : State) : State :=
  writePin .cs .high (sendByte op (writePin .dc .low (writePin .cs .low s)))

/-- `param(b)`: CS low, DC high, the byte, CS high (R111). -/
def paramFrame (b : Byte) (s : State) : State :=
  writePin .cs .high (sendByte b (writePin .dc .high (writePin .cs .low s)))

/-- A parameter frame for each byte of a list (R112). -/
def paramFrames : List Byte → State → State
  | [], s => s
  | b :: bs, s => paramFrames bs (paramFrame b s)

/-- `cmd_with_params(op, params)` (R112). -/
def cmdWithParams (op : Byte) (params : List Byte) (s : State) : State := paramFrames params (cmdFrame op s)

/-- `data(buf, len)`: CS low, DC high, the bytes, CS high (R113). -/
def dataFrame (buf : List Byte) (len : Nat) (s : State) : State :=
  writePin .cs .high (sendBytes buf len (writePin .dc .high (writePin .cs .low s)))

/-- `data(zero_line, len)`: `zero_line` is a source of zero bytes (R31). -/
def zeroFrame (len : Nat) (s : State) : State := dataFrame (List.replicate len 0#8) len s

/-! ### The end of a command, errors, teardown -/

/-- A command ends: the result is posted, `busy` is cleared and the phase is `IDLE` (R26, R190); the word joins the run's
list of result words (R256; log 30). -/
def post (r : Result) (s : State) : State :=
  { s with result := r.word, results := s.results ++ [r.word], phase := .idle, program := [], seqPc := 0 }

/-- `S.variant <- None; S.width <- 0; S.height <- 0; S.backlight_ready <- false` (R192, R215). -/
def clearDriver (s : State) : State :=
  { s with variant := none, width := 0#8, height := 0#8, backlightReady := false }

/-- `S.variant`, `S.width`, `S.height` of a variant (R191). -/
def setDriver (v : Variant) (s : State) : State :=
  { s with variant := some v, width := panelW v, height := panelH v }

/-- `S.backlight_ready <- true` (R148, R197). -/
def setReady (s : State) : State := { s with backlightReady := true }

/-- `if S.backlight_ready then release(LED)` (R192, R215). -/
def releaseLedIfReady (s : State) : State := if s.backlightReady then releasePin .led s else s

/-- `Rollback()`: the teardown path run unconditionally (R215). -/
def rollback (s : State) : State :=
  clearDriver (releaseLedIfReady (spiClose (releasePin .cs (releasePin .dc (releasePin .rst s)))))

/-- `Deinit()`: nothing when the variant is `None`, else the teardown (R192). -/
def deinit (s : State) : State :=
  match s.variant with
  | none => s
  | some _ => rollback s

/-- The steps of the teardown path, one event each at most (R192, R215). -/
def teardownSteps (s : State) : List SeqStep :=
  [.instr (.release .rst), .instr (.release .dc), .instr (.release .cs), .instr .spiClose] ++
    (if s.backlightReady then [.instr (.release .led)] else []) ++ [.clearDriver]

/-- An error ends the running command (R220): its recovery if its rule names one, then the result word, `busy <- 0`,
`phase <- IDLE`; nothing else is written. -/
def raiseError (e : ErrKind) (s : State) : State :=
  post e.result (if e.rollsBack then rollback s else s)

/-- An error at a step of a running step list (R220): the list stops; the recovery's steps and then the posting of the
result word stand in its place, so that the recovery's events too come one at a time (R27; log 19). -/
def enterError (e : ErrKind) (s : State) : State :=
  if e.rollsBack then { s with program := teardownSteps s ++ [.post e.result], seqPc := 0 } else raiseError e s

/-- The state a single step that can fail leaves: its own, or the entry of the error. -/
def StepOut.entered : StepOut → State
  | .done s => s
  | .raised e s => enterError e s

/-- The state a step list that can fail leaves: `k` of the final state, or the error entry. -/
def StepOut.settle (k : State → State) : StepOut → State
  | .done s => k s
  | .raised e s => raiseError e s

/-- A command is accepted: `busy <- 1`, `phase <- EXEC(c)` (R26, R190). -/
def accept (c : Instr) (s : State) : State := { s with phase := .exec c }

/-! ### The initialisation sequence -/

/-- The draw the next `INIT` that reaches the sequence makes (R35): the first queued, or a free value (log 4). -/
def State.nextAcq (s : State) : Acq :=
  match s.acqQueue with
  | a :: _ => a
  | [] => Config.acqDraw s.acqDrawn

/-- `env.acq` is drawn (R35). -/
def drawAcq (s : State) : State :=
  { s with acq := s.nextAcq, acqQueue := s.acqQueue.tail, acqDrawn := s.acqDrawn + 1 }

/-- Steps 3 and 4: software reset, hardware reset pulse, software reset, sleep-out (R124 to R127). -/
def initReset (s : State) : State :=
  let s := cmdFrame 0x01#8 s
  let s := writePin .rst .high (sleepMs tReset (writePin .rst .low s))
  let s := sleepMs tReset (cmdFrame 0x01#8 s)
  sleepMs tSlpout (cmdFrame 0x11#8 s)

/-- Step 5: frame-rate and inversion control (R128 to R131). -/
def initFrameRate (s : State) : State :=
  let s := cmdWithParams 0xB1#8 frmctr1Params s
  let s := cmdFrame 0xB2#8 s
  let s := cmdWithParams 0xB3#8 frmctr3Params s
  cmdWithParams 0xB4#8 invctrParams s

/-- Step 6: power control (R132 to R137). -/
def initPower (s : State) : State :=
  let s := cmdWithParams 0xC0#8 pwctr1Params s
  let s := cmdWithParams 0xC1#8 pwctr2Params s
  let s := cmdWithParams 0xC2#8 pwctr3Params s
  let s := cmdWithParams 0xC3#8 pwctr4Params s
  let s := cmdWithParams 0xC4#8 pwctr5Params s
  cmdWithParams 0xC5#8 vmctr1Params s

/-- The variant-specific part, in the order of R143 (R138 to R142). -/
def initVariant (v : Variant) (bgr : Bool) (s : State) : State :=
  let s := match v with
    | .shield18 =>
      cmdFrame (choosePanel v) (cmdWithParams 0x3A#8 colmodParams (cmdWithParams 0x36#8 [madctlParam v bgr] s))
    | .shield096 =>
      cmdWithParams 0x3A#8 colmodParams (cmdWithParams 0x36#8 [madctlParam v bgr] (cmdFrame (choosePanel v) s))
  cmdWithParams 0x2B#8 (rasetInit v) (cmdWithParams 0x2A#8 (casetInit v) s)

/-- Gamma tables, normal display, display on (R144 to R147). -/
def initEpilogue (s : State) : State :=
  let s := cmdWithParams 0xE0#8 gammaPParams s
  let s := cmdWithParams 0xE1#8 gammaNParams s
  let s := sleepMs tNoron (cmdFrame 0x13#8 s)
  sleepMs tDispon (cmdFrame 0x29#8 s)

/-- Everything between the link (R123) and the backlight pin (R148); no step of it can fail (R149). -/
def initBody (v : Variant) (bgr : Bool) (s : State) : State :=
  initEpilogue (initVariant v bgr (initPower (initFrameRate (initReset s))))

/-- Step 1: the pins CS, RST, DC in that order (R122). -/
def initPins (s : State) : StepOut :=
  ((configureOutput .cs .od .high s).andThen (configureOutput .rst .pp .high)).andThen
    (configureOutput .dc .pp .high)

/-- `InitSequence(v, bgr)` (R120); it can stop at the five points of R149. -/
def initSequence (v : Variant) (bgr : Bool) (s : State) : StepOut :=
  (((initPins s).andThen (spiOpen (clockReq v))).andThen
    fun s => configureOutput .led .od .low (initBody v bgr s)).andThen fun s => .done (setReady s)

/-! ### Geometry -/

/-- One axis of the geometry unit (R161, R162): start, size, leading pad, trailing pad. -/
def axis (start size panel : Nat) : Nat × Nat × Nat × Nat :=
  if panel < size then (start + (size - panel) / 2, panel, 0, 0)
  else (start, size, (panel - size) / 2, (panel - size + 1) / 2)

/-- `Geometry(rect, W, H)` (R160). -/
def geometry (r : Rect) (w h : Nat) : Work :=
  let (x, rw, lp, rp) := axis r.x r.w w
  let (y, rh, tp, bp) := axis r.y r.h h
  ⟨⟨x, y, rw, rh⟩, lp, rp, tp, bp⟩

/-- The step `geometry`: the working registers are written (R160). -/
def geometryStep (r : Rect) (w h : Nat) (s : State) : State := { s with work := geometry r w h }

/-! ### The pixel pump -/

/-- `gs2rgb565(p) = ((p>>3)<<11) | ((p>>2)<<5) | (p>>3)` (R172). -/
def gs2rgb565 (p : Byte) : Half :=
  ((p >>> 3).setWidth 16 <<< 11) ||| ((p >>> 2).setWidth 16 <<< 5) ||| (p >>> 3).setWidth 16

/-- `q[15:8]` (R80 (d)). -/
def hiByte (q : Half) : Byte := q.extractLsb' 8 8

/-- `q[7:0]` (R80 (d)). -/
def loByte (q : Half) : Byte := q.extractLsb' 0 8

/-- Step 1: the window reset, Shield_0_96 only (R174). -/
def windowReset (s : State) : State :=
  match s.variant with
  | some .shield096 => cmdWithParams 0x2B#8 rasetWindow (cmdWithParams 0x2A#8 casetWindow s)
  | _ => s

/-- An operation done n times. -/
def repeatOp : Nat → (State → State) → State → State
  | 0, _, s => s
  | n + 1, f, s => repeatOp n f (f s)

/-- `for i in [lo, lo + n): f(i)` (R8). -/
def forFrom : Nat → Nat → (Nat → State → State) → State → State
  | _, 0, _, s => s
  | lo, n + 1, f, s => forFrom (lo + 1) n f (f lo s)

/-- A whole row of padding, `data(zero_line, 2 * W)` (R177, R182). -/
def zeroRow (s : State) : State := zeroFrame (2 * s.width.toNat) s

/-- Side padding: no frame at all when the pad is 0 (R181). -/
def padFrame (pad : Nat) (s : State) : State := if pad = 0 then s else zeroFrame (2 * pad) s

/-- One pixel of `convert_row`: pixel j of the line buffer, high byte first (R178, R54 (c)). -/
def convertPixel (j addr : Nat) (s : State) : State :=
  let q := gs2rgb565 (imgRead8 s.mem addr)
  { s with line := (s.line.set (2 * j) (hiByte q)).set (2 * j + 1) (loByte q) }

/-- `convert_row(i)`: nothing is emitted (R178). -/
def convertRow (r : Rect) (i : Nat) (s : State) : State :=
  forFrom 0 r.w (fun j s => convertPixel j (pixelAddr s.regs .gs8 (r.x + j) (r.y + i)) s) s

/-- `send_line()` (R179). -/
def sendLine (r : Rect) (s : State) : State := dataFrame s.line (2 * r.w) s

/-- `send_rgb_row(i)`: the bytes of the row's pixels in address order (R180, R173). -/
def sendRgbRow (r : Rect) (i : Nat) (s : State) : State :=
  let a := pixelAddr s.regs .rgb565 r.x (r.y + i)
  dataFrame ((List.range (2 * r.w)).map fun k => imgRead8 s.mem (a + k)) (2 * r.w) s

/-- The pixels of one middle row (R176). -/
def sendRow (fmt : Fmt) (r : Rect) (i : Nat) (s : State) : State :=
  match fmt with
  | .gs8 => sendLine r (convertRow r i s)
  | .rgb565 => sendRgbRow r i s

/-- One middle row with its side padding (R176). -/
def pumpRow (fmt : Fmt) (r : Rect) (lPad rPad : Nat) (i : Nat) (s : State) : State :=
  padFrame rPad (sendRow fmt r i (padFrame lPad s))

/-- `Pump(fmt, rect', l_pad, r_pad, t_pad, b_pad)` (R176). -/
def pump (fmt : Fmt) (r : Rect) (lPad rPad tPad bPad : Nat) (s : State) : State :=
  let s := cmdFrame 0x2C#8 (windowReset s)
  let s := repeatOp tPad zeroRow s
  let s := forFrom 0 r.h (pumpRow fmt r lPad rPad) s
  repeatOp bPad zeroRow s

/-- `ClearStream()` (R184). -/
def clearStream (s : State) : State :=
  repeatOp s.height.toNat zeroRow (cmdFrame 0x2C#8 (windowReset s))

end Sys2Proof.Machine
end

