-- ==== Sys2Proof/Machine/HostCommands.lean ====
section
/-! DEFINITION. Level H: the nine host commands (46_host_commands.md R191 to R200), each one atomic transition
(10_state.md R27) from the acceptance of the command to the posting of its result. -/

namespace Sys2Proof.Machine

/-- `INIT` once accepted (R191): the variant code is checked before the teardown (R213), then `Deinit()`, then the
sequence under the draw of `env.acq`. -/
def initCommand (typ : Option Byte) (bgr : Option Bool) (s : State) : State :=
  if 2 < vcodeOf typ then raiseError .invalidVariant s
  else match variantOfCode (vcodeOf typ) with
    | none => post .none (deinit s)
    | some v =>
      (initSequence v (bgrOf v bgr) (drawAcq (deinit s))).settle fun s => post .none (setDriver v s)

/-- `INIT` (R191). -/
def execInit (typ : Option Byte) (bgr : Option Bool) (s : State) : Host.Outcome State Fault Refusal :=
  .next (initCommand typ bgr (accept (.init typ bgr) s))

/-- `DEINIT` (R192). -/
def execDeinit (s : State) : Host.Outcome State Fault Refusal :=
  .next (post .none (deinit (accept .deinit s)))

/-- The result of a query: a value, or the sentinel while uninitialised (R193 to R195). -/
def queryResult (s : State) (value : Variant → Nat) : Result :=
  match s.variant with
  | none => .none
  | some v => .int (value v)

/-- `WIDTH` (R193). -/
def execWidth (s : State) : Host.Outcome State Fault Refusal :=
  .next (post (queryResult s fun _ => s.width.toNat) (accept .width s))

/-- `HEIGHT` (R194). -/
def execHeight (s : State) : Host.Outcome State Fault Refusal :=
  .next (post (queryResult s fun _ => s.height.toNat) (accept .height s))

/-- `TYPE` (R195). -/
def execType (s : State) : Host.Outcome State Fault Refusal :=
  .next (post (queryResult s variantCode) (accept .type s))

/-- `SET_BACKLIGHT` in an initialised state: the LED pad is configured first if it is not ready (R197). -/
def setBacklightStep (lvl : Level) (s : State) : StepOut :=
  (if s.backlightReady then .done s
   else (configureOutput .led .od lvl s).andThen fun s => .done (setReady s)).andThen
    fun s => .done (writePin .led lvl s)

/-- `SET_BACKLIGHT` (R197). -/
def execSetBacklight (state : BitVec 12) (s : State) : Host.Outcome State Fault Refusal :=
  let s := accept (.setBacklight state) s
  match s.variant with
  | none => .next (raiseError .uninitialized s)
  | some _ => .next ((setBacklightStep (ledLevel (backlightOn state)) s).settle (post .none))

/-- The result of `GET_BACKLIGHT` (R198). -/
def backlightResult (s : State) : Result :=
  if s.backlightReady then .int (backlightValue (readPin .led s)) else .none

/-- `GET_BACKLIGHT` (R198). -/
def execGetBacklight (s : State) : Host.Outcome State Fault Refusal :=
  .next (post (backlightResult s) (accept .getBacklight s))

/-- Geometry of a rectangle on the current panel, then the pump (R199). -/
def displayStream (fmt : Fmt) (rect : Rect) (s : State) : State :=
  let g := geometry rect s.width.toNat s.height.toNat
  pump fmt g.rect g.lPad g.rPad g.tPad g.bPad (geometryStep rect s.width.toNat s.height.toNat s)

/-- `DISPLAY` (R199), with its guards in the order of R219. -/
def execDisplay (roiGiven : Bool) (s : State) : Host.Outcome State Fault Refusal :=
  let s := accept (.display roiGiven) s
  match s.variant with
  | none => .next (raiseError .uninitialized s)
  | some _ =>
    match displayFmt s.regs with
    | none => .next (raiseError .unsupportedFormat s)
    | some fmt =>
      if rectInside (displayRect s.regs roiGiven) s.regs then
        requireSession s (.next (post .none (displayStream fmt (displayRect s.regs roiGiven) s)))
      else .next (raiseError .badRoi s)

/-- The rectangle `CLEAR` stands for: 0×0 at the origin (R184). -/
def emptyRect : Rect := ⟨0, 0, 0, 0⟩

/-- `CLEAR` (R200); geometry runs at the start of it too (44_geometry.md; log 20). -/
def execClear (s : State) : Host.Outcome State Fault Refusal :=
  let s := accept .clear s
  match s.variant with
  | none => .next (raiseError .uninitialized s)
  | some _ =>
    requireSession s
      (.next (post .none (clearStream (geometryStep emptyRect s.width.toNat s.height.toNat s))))

end Sys2Proof.Machine
end

