-- ==== Sys2Proof/Machine/Steps.lean ====
section
/-! DEFINITION. Level S: the nineteen sequencer steps of the opcode table (40_pins.md R90 to R93, 41_spi.md R100 to
R104, 42_frames.md R110 to R113, 43_init_sequence.md R120, 44_geometry.md R160, 45_pixel_pump.md R172, R176, R184,
60_exceptions.md R215, R224). A step that fails inside `INIT` takes the error entry of R220: `configure_output` and `open`
put the recovery's steps in place of the running list, `InitSequence`, itself a list run as one operation, runs them (log 19). -/

namespace Sys2Proof.Machine

/-- `configure_output` (R90). -/
def execConfigureOutput (p : Pin) (d : Drive) (l : Level) (s : State) : Host.Outcome State Fault Refusal :=
  .next (configureOutput p d l s).entered

/-- `write` (R91). -/
def execWrite (p : Pin) (l : Level) (s : State) : Host.Outcome State Fault Refusal := .next (writePin p l s)

/-- `read` (R92): the level is returned, in the model's `value` (log 17). -/
def execRead (p : Pin) (s : State) : Host.Outcome State Fault Refusal :=
  .next { s with value := BitVec.ofNat 16 (readPin p s).toNat }

/-- `release` (R93). -/
def execRelease (p : Pin) (s : State) : Host.Outcome State Fault Refusal := .next (releasePin p s)

/-- `open` (R100). -/
def execSpiOpen (req : ClockReq) (s : State) : Host.Outcome State Fault Refusal :=
  .next (spiOpen req s).entered

/-- `send_byte` (R102). -/
def execSendByte (b : Byte) (s : State) : Host.Outcome State Fault Refusal :=
  requireSession s (.next (sendByte b s))

/-- `send_bytes` (R103). -/
def execSendBytes (buf : List Byte) (len : Nat) (s : State) : Host.Outcome State Fault Refusal :=
  requireSession s (.next (sendBytes buf len s))

/-- `close` (R104). -/
def execSpiClose (s : State) : Host.Outcome State Fault Refusal := .next (spiClose s)

/-- `cmd` (R110). -/
def execCmd (op : Byte) (s : State) : Host.Outcome State Fault Refusal :=
  requireSession s (.next (cmdFrame op s))

/-- `param` (R111). -/
def execParam (b : Byte) (s : State) : Host.Outcome State Fault Refusal :=
  requireSession s (.next (paramFrame b s))

/-- `cmd_with_params` (R112). -/
def execCmdWithParams (op : Byte) (params : List Byte) (s : State) : Host.Outcome State Fault Refusal :=
  requireSession s (.next (cmdWithParams op params s))

/-- `data` (R113). -/
def execData (buf : List Byte) (len : Nat) (s : State) : Host.Outcome State Fault Refusal :=
  requireSession s (.next (dataFrame buf len s))

/-- `sleep` (R224). -/
def execSleep (ms : Nat) (s : State) : Host.Outcome State Fault Refusal := .next (sleepMs ms s)

/-- `InitSequence(v, bgr)` (R120). -/
def execInitSequence (v : Variant) (bgr : Bool) (s : State) : Host.Outcome State Fault Refusal :=
  .next ((initSequence v bgr s).settle id)

/-- `Geometry(rect, W, H)` (R160): the results stand in the working registers (R25). -/
def execGeometry (r : Rect) (w h : Nat) (s : State) : Host.Outcome State Fault Refusal :=
  .next (geometryStep r w h s)

/-- `gs2rgb565(p)` (R172): the pixel is returned, in the model's `value` (log 17). -/
def execGs2rgb565 (p : Byte) (s : State) : Host.Outcome State Fault Refusal :=
  .next { s with value := gs2rgb565 p }

/-- `Pump` (R176). -/
def execPump (fmt : Fmt) (r : Rect) (lPad rPad tPad bPad : Nat) (s : State) :
    Host.Outcome State Fault Refusal :=
  requireSession s (.next (pump fmt r lPad rPad tPad bPad s))

/-- `ClearStream` (R184). -/
def execClearStream (s : State) : Host.Outcome State Fault Refusal := requireSession s (.next (clearStream s))

/-- `Rollback` (R215). -/
def execRollback (s : State) : Host.Outcome State Fault Refusal := .next (rollback s)

end Sys2Proof.Machine
end

