-- ==== Sys2Proof/Machine/WireSymbols.lean ====
section
/-! DEFINITION. Level W: the wire symbols of the opcode table. A symbol with DC low is always the only symbol of its
frame, the command frame of 42_frames.md R110 (30_encoding.md R78, R79; 42_frames.md R114 (c)); a symbol with DC high
sent on its own is the parameter frame of R111. The parameter bytes of a command are symbols of their own (R78;
log 13). -/

namespace Sys2Proof.Machine

/-- A command symbol goes out in its command frame (R77, R78, R110). -/
def commandSymbol (op : Byte) (s : State) : Host.Outcome State Fault Refusal :=
  requireSession s (.next (cmdFrame op s))

/-- `SWRESET`: command byte 0x01 (R79, R124). -/
def execSwreset (s : State) : Host.Outcome State Fault Refusal := commandSymbol 0x01#8 s

/-- `SLPOUT`: command byte 0x11 (R79, R127). -/
def execSlpout (s : State) : Host.Outcome State Fault Refusal := commandSymbol 0x11#8 s

/-- `NORON`: command byte 0x13 (R79, R146). -/
def execNoron (s : State) : Host.Outcome State Fault Refusal := commandSymbol 0x13#8 s

/-- `INVOFF`: command byte 0x20 (R79, R140). -/
def execInvoff (s : State) : Host.Outcome State Fault Refusal := commandSymbol 0x20#8 s

/-- `INVON`: command byte 0x21 (R79, R140). -/
def execInvon (s : State) : Host.Outcome State Fault Refusal := commandSymbol 0x21#8 s

/-- `DISPON`: command byte 0x29 (R79, R147). -/
def execDispon (s : State) : Host.Outcome State Fault Refusal := commandSymbol 0x29#8 s

/-- `CASET`: command byte 0x2A (R79, R141). -/
def execCaset (s : State) : Host.Outcome State Fault Refusal := commandSymbol 0x2A#8 s

/-- `RASET`: command byte 0x2B (R79, R141). -/
def execRaset (s : State) : Host.Outcome State Fault Refusal := commandSymbol 0x2B#8 s

/-- `RAMWR`: command byte 0x2C (R79, R175). -/
def execRamwr (s : State) : Host.Outcome State Fault Refusal := commandSymbol 0x2C#8 s

/-- `MADCTL`: command byte 0x36 (R79, R138). -/
def execMadctl (s : State) : Host.Outcome State Fault Refusal := commandSymbol 0x36#8 s

/-- `COLMOD`: command byte 0x3A (R79, R139). -/
def execColmod (s : State) : Host.Outcome State Fault Refusal := commandSymbol 0x3A#8 s

/-- `FRMCTR1`: command byte 0xB1 (R79, R128). -/
def execFrmctr1 (s : State) : Host.Outcome State Fault Refusal := commandSymbol 0xB1#8 s

/-- `FRMCTR2`: command byte 0xB2 (R79, R129). -/
def execFrmctr2 (s : State) : Host.Outcome State Fault Refusal := commandSymbol 0xB2#8 s

/-- `FRMCTR3`: command byte 0xB3 (R79, R130). -/
def execFrmctr3 (s : State) : Host.Outcome State Fault Refusal := commandSymbol 0xB3#8 s

/-- `INVCTR`: command byte 0xB4 (R79, R131). -/
def execInvctr (s : State) : Host.Outcome State Fault Refusal := commandSymbol 0xB4#8 s

/-- `PWCTR1`: command byte 0xC0 (R79, R132). -/
def execPwctr1 (s : State) : Host.Outcome State Fault Refusal := commandSymbol 0xC0#8 s

/-- `PWCTR2`: command byte 0xC1 (R79, R133). -/
def execPwctr2 (s : State) : Host.Outcome State Fault Refusal := commandSymbol 0xC1#8 s

/-- `PWCTR3`: command byte 0xC2 (R79, R134). -/
def execPwctr3 (s : State) : Host.Outcome State Fault Refusal := commandSymbol 0xC2#8 s

/-- `PWCTR4`: command byte 0xC3 (R79, R135). -/
def execPwctr4 (s : State) : Host.Outcome State Fault Refusal := commandSymbol 0xC3#8 s

/-- `PWCTR5`: command byte 0xC4 (R79, R136). -/
def execPwctr5 (s : State) : Host.Outcome State Fault Refusal := commandSymbol 0xC4#8 s

/-- `VMCTR1`: command byte 0xC5 (R79, R137). -/
def execVmctr1 (s : State) : Host.Outcome State Fault Refusal := commandSymbol 0xC5#8 s

/-- `GMCTRP`: command byte 0xE0 (R79, R144). -/
def execGmctrp (s : State) : Host.Outcome State Fault Refusal := commandSymbol 0xE0#8 s

/-- `GMCTRN`: command byte 0xE1 (R79, R145). -/
def execGmctrn (s : State) : Host.Outcome State Fault Refusal := commandSymbol 0xE1#8 s

/-- A parameter or pixel-data byte on its own (R77, R111). -/
def execDataOrParameterByte (b : Byte) (s : State) : Host.Outcome State Fault Refusal :=
  requireSession s (.next (paramFrame b s))

end Sys2Proof.Machine
end

