-- ==== Sys2Proof/Machine/Dispatch.lean ====
section
/-! DEFINITION. Dispatch: one arm per instruction, each a direct call of its meaning. -/

namespace Sys2Proof.Machine

def exec (i : Instr) (s : State) : Host.Outcome State Fault Refusal :=
  match i with
  -- Level H
  | .init typ bgr => Sys2Proof.Machine.execInit typ bgr s
  | .deinit => Sys2Proof.Machine.execDeinit s
  | .width => Sys2Proof.Machine.execWidth s
  | .height => Sys2Proof.Machine.execHeight s
  | .type => Sys2Proof.Machine.execType s
  | .setBacklight state => Sys2Proof.Machine.execSetBacklight state s
  | .getBacklight => Sys2Proof.Machine.execGetBacklight s
  | .display roi => Sys2Proof.Machine.execDisplay roi s
  | .clear => Sys2Proof.Machine.execClear s
  -- Level S
  | .configureOutput p d l => Sys2Proof.Machine.execConfigureOutput p d l s
  | .write p l => Sys2Proof.Machine.execWrite p l s
  | .read p => Sys2Proof.Machine.execRead p s
  | .release p => Sys2Proof.Machine.execRelease p s
  | .spiOpen req => Sys2Proof.Machine.execSpiOpen req s
  | .sendByte b => Sys2Proof.Machine.execSendByte b s
  | .sendBytes buf len => Sys2Proof.Machine.execSendBytes buf len s
  | .spiClose => Sys2Proof.Machine.execSpiClose s
  | .cmd op => Sys2Proof.Machine.execCmd op s
  | .param b => Sys2Proof.Machine.execParam b s
  | .cmdWithParams op ps => Sys2Proof.Machine.execCmdWithParams op ps s
  | .data buf len => Sys2Proof.Machine.execData buf len s
  | .sleep ms => Sys2Proof.Machine.execSleep ms s
  | .initSequence v bgr => Sys2Proof.Machine.execInitSequence v bgr s
  | .geometry r w h => Sys2Proof.Machine.execGeometry r w h s
  | .gs2rgb565 p => Sys2Proof.Machine.execGs2rgb565 p s
  | .pump fmt r lp rp tp bp => Sys2Proof.Machine.execPump fmt r lp rp tp bp s
  | .clearStream => Sys2Proof.Machine.execClearStream s
  | .rollback => Sys2Proof.Machine.execRollback s
  -- Level W
  | .swreset => Sys2Proof.Machine.execSwreset s
  | .slpout => Sys2Proof.Machine.execSlpout s
  | .noron => Sys2Proof.Machine.execNoron s
  | .invoff => Sys2Proof.Machine.execInvoff s
  | .invon => Sys2Proof.Machine.execInvon s
  | .dispon => Sys2Proof.Machine.execDispon s
  | .caset => Sys2Proof.Machine.execCaset s
  | .raset => Sys2Proof.Machine.execRaset s
  | .ramwr => Sys2Proof.Machine.execRamwr s
  | .madctl => Sys2Proof.Machine.execMadctl s
  | .colmod => Sys2Proof.Machine.execColmod s
  | .frmctr1 => Sys2Proof.Machine.execFrmctr1 s
  | .frmctr2 => Sys2Proof.Machine.execFrmctr2 s
  | .frmctr3 => Sys2Proof.Machine.execFrmctr3 s
  | .invctr => Sys2Proof.Machine.execInvctr s
  | .pwctr1 => Sys2Proof.Machine.execPwctr1 s
  | .pwctr2 => Sys2Proof.Machine.execPwctr2 s
  | .pwctr3 => Sys2Proof.Machine.execPwctr3 s
  | .pwctr4 => Sys2Proof.Machine.execPwctr4 s
  | .pwctr5 => Sys2Proof.Machine.execPwctr5 s
  | .vmctr1 => Sys2Proof.Machine.execVmctr1 s
  | .gmctrp => Sys2Proof.Machine.execGmctrp s
  | .gmctrn => Sys2Proof.Machine.execGmctrn s
  | .dataOrParameterByte b => Sys2Proof.Machine.execDataOrParameterByte b s

end Sys2Proof.Machine
end

