-- ==== Sys2Proof/Machine/StepLists.lean ====
section
/-! DEFINITION. The step list of each host command (10_state.md R26, R27): its expansion into sequencer steps of at
most one event each, so that every part of a command's event list that comes first is a wire history the machine
stands at. The operands and the state are sampled once, at the start (R247, log 22). -/

namespace Sys2Proof.Machine

/-- A frame: CS low, DC, the byte steps, CS high (R110, R111, R113). -/
def frameSteps (dc : Level) (body : List SeqStep) : List SeqStep :=
  .instr (.write .cs .low) :: .instr (.write .dc dc) :: body ++ [.instr (.write .cs .high)]

/-- `cmd(op)` (R110). -/
def cmdSteps (op : Byte) : List SeqStep := frameSteps .low [.instr (.sendByte op)]

/-- `data(buf, len)`, a byte a step (R113, R103). -/
def dataSteps (bytes : List Byte) : List SeqStep := frameSteps .high (bytes.map fun b => .instr (.sendByte b))

/-- `cmd_with_params(op, params)` (R112). -/
def cmdWithParamsSteps (op : Byte) (params : List Byte) : List SeqStep :=
  cmdSteps op ++ params.flatMap fun b => frameSteps .high [.instr (.sendByte b)]

/-- `Deinit()` (R192). -/
def deinitSteps (s : State) : List SeqStep :=
  match s.variant with
  | none => []
  | some _ => teardownSteps s

/-- Rules R124 to R137. -/
def prologueSteps : List SeqStep :=
  cmdSteps 0x01#8 ++
  [.instr (.write .rst .low), .instr (.sleep tReset), .instr (.write .rst .high)] ++
  cmdSteps 0x01#8 ++ [.instr (.sleep tReset)] ++
  cmdSteps 0x11#8 ++ [.instr (.sleep tSlpout)] ++
  cmdWithParamsSteps 0xB1#8 frmctr1Params ++
  cmdSteps 0xB2#8 ++
  cmdWithParamsSteps 0xB3#8 frmctr3Params ++
  cmdWithParamsSteps 0xB4#8 invctrParams ++
  cmdWithParamsSteps 0xC0#8 pwctr1Params ++
  cmdWithParamsSteps 0xC1#8 pwctr2Params ++
  cmdWithParamsSteps 0xC2#8 pwctr3Params ++
  cmdWithParamsSteps 0xC3#8 pwctr4Params ++
  cmdWithParamsSteps 0xC4#8 pwctr5Params ++
  cmdWithParamsSteps 0xC5#8 vmctr1Params

/-- The variant-specific part (R143). -/
def variantSteps (v : Variant) (bgr : Bool) : List SeqStep :=
  let madctl := cmdWithParamsSteps 0x36#8 [madctlParam v bgr]
  let colmod := cmdWithParamsSteps 0x3A#8 colmodParams
  (match v with
    | .shield18 => madctl ++ colmod ++ cmdSteps (choosePanel v)
    | .shield096 => cmdSteps (choosePanel v) ++ madctl ++ colmod) ++
  cmdWithParamsSteps 0x2A#8 (casetInit v) ++
  cmdWithParamsSteps 0x2B#8 (rasetInit v)

/-- Rules R144 to R147. -/
def epilogueSteps : List SeqStep :=
  cmdWithParamsSteps 0xE0#8 gammaPParams ++
  cmdWithParamsSteps 0xE1#8 gammaNParams ++
  cmdSteps 0x13#8 ++ [.instr (.sleep tNoron)] ++
  cmdSteps 0x29#8 ++ [.instr (.sleep tDispon)]

/-- `InitSequence(v, bgr)` (R120). -/
def initSteps (v : Variant) (bgr : Bool) : List SeqStep :=
  [.instr (.configureOutput .cs .od .high), .instr (.configureOutput .rst .pp .high),
   .instr (.configureOutput .dc .pp .high), .instr (.spiOpen (clockReq v))] ++
  prologueSteps ++ variantSteps v bgr ++ epilogueSteps ++
  [.instr (.configureOutput .led .od .low), .setReady]

/-- `window_reset()` (R174). -/
def windowResetSteps : Option Variant → List SeqStep
  | some .shield096 => cmdWithParamsSteps 0x2A#8 casetWindow ++ cmdWithParamsSteps 0x2B#8 rasetWindow
  | _ => []

/-- A zero data frame of n bytes (R177, R181, R182). -/
def zeroSteps (n : Nat) : List SeqStep := dataSteps (List.replicate n 0#8)

/-- `if pad > 0 then pad_frame(pad)` (R181). -/
def padSteps (pad : Nat) : List SeqStep := if pad = 0 then [] else zeroSteps (2 * pad)

/-- `convert_row(i)`, a pixel a step (R178). -/
def convertSteps (x : OperandRegs) (r : Rect) (i : Nat) : List SeqStep :=
  (List.range r.w).map fun j => .convertPixel j (pixelAddr x .gs8 (r.x + j) (r.y + i))

/-- The pixels of one middle row (R176). -/
def rowSteps (x : OperandRegs) (fmt : Fmt) (r : Rect) (i : Nat) : List SeqStep :=
  match fmt with
  | .gs8 => convertSteps x r i ++ frameSteps .high ((List.range (2 * r.w)).map .sendLineByte)
  | .rgb565 =>
    frameSteps .high ((List.range (2 * r.w)).map fun k => .sendImageByte (pixelAddr x .rgb565 r.x (r.y + i) + k))

/-- `Pump` (R176). -/
def pumpSteps (s : State) (fmt : Fmt) (g : Work) : List SeqStep :=
  windowResetSteps s.variant ++ cmdSteps 0x2C#8 ++
  (List.replicate g.tPad (zeroSteps (2 * s.width.toNat))).flatten ++
  ((List.range g.rect.h).map fun i =>
    padSteps g.lPad ++ rowSteps s.regs fmt g.rect i ++ padSteps g.rPad).flatten ++
  (List.replicate g.bPad (zeroSteps (2 * s.width.toNat))).flatten

/-- `ClearStream` (R184). -/
def clearSteps (s : State) : List SeqStep :=
  windowResetSteps s.variant ++ cmdSteps 0x2C#8 ++
  (List.replicate s.height.toNat (zeroSteps (2 * s.width.toNat))).flatten

/-- `INIT` (R191). -/
def initCommandSteps (typ : Option Byte) (bgr : Option Bool) (s : State) : List SeqStep :=
  if 2 < vcodeOf typ then [.raise .invalidVariant]
  else deinitSteps s ++
    match variantOfCode (vcodeOf typ) with
    | none => [.post .none]
    | some v => [.drawAcq] ++ initSteps v (bgrOf v bgr) ++ [.setDriver v, .post .none]

/-- `SET_BACKLIGHT` (R197). -/
def setBacklightSteps (lvl : Level) (s : State) : List SeqStep :=
  match s.variant with
  | none => [.raise .uninitialized]
  | some _ =>
    (if s.backlightReady then [] else [.instr (.configureOutput .led .od lvl), .setReady]) ++
      [.instr (.write .led lvl), .post .none]

/-- `DISPLAY` (R199). -/
def displaySteps (roiGiven : Bool) (s : State) : List SeqStep :=
  match s.variant with
  | none => [.raise .uninitialized]
  | some _ =>
    match displayFmt s.regs with
    | none => [.raise .unsupportedFormat]
    | some fmt =>
      let rect := displayRect s.regs roiGiven
      if rectInside rect s.regs then
        .instr (.geometry rect s.width.toNat s.height.toNat) ::
          pumpSteps s fmt (geometry rect s.width.toNat s.height.toNat) ++ [.post .none]
      else [.raise .badRoi]

/-- `CLEAR` (R200). -/
def clearCommandSteps (s : State) : List SeqStep :=
  match s.variant with
  | none => [.raise .uninitialized]
  | some _ =>
    .instr (.geometry emptyRect s.width.toNat s.height.toNat) :: clearSteps s ++ [.post .none]

/-- The step list of a host command issued in state `s` (R26); level S and W operations are no commands. -/
def commandSteps (c : Instr) (s : State) : List SeqStep :=
  match c with
  | .init typ bgr => initCommandSteps typ bgr s
  | .deinit => deinitSteps s ++ [.post .none]
  | .width => [.post (queryResult s fun _ => s.width.toNat)]
  | .height => [.post (queryResult s fun _ => s.height.toNat)]
  | .type => [.post (queryResult s variantCode)]
  | .setBacklight state => setBacklightSteps (ledLevel (backlightOn state)) s
  | .getBacklight => [.post (backlightResult s)]
  | .display roi => displaySteps roi s
  | .clear => clearCommandSteps s
  | .configureOutput _ _ _ | .write _ _ | .read _ | .release _ | .spiOpen _ | .sendByte _ | .sendBytes _ _
  | .spiClose | .cmd _ | .param _ | .cmdWithParams _ _ | .data _ _ | .sleep _ | .initSequence _ _
  | .geometry _ _ _ | .gs2rgb565 _ | .pump _ _ _ _ _ _ | .clearStream | .rollback
  | .swreset | .slpout | .noron | .invoff | .invon | .dispon | .caset | .raset | .ramwr | .madctl | .colmod
  | .frmctr1 | .frmctr2 | .frmctr3 | .invctr | .pwctr1 | .pwctr2 | .pwctr3 | .pwctr4 | .pwctr5 | .vmctr1
  | .gmctrp | .gmctrn | .dataOrParameterByte _ => []

end Sys2Proof.Machine
end

