-- ==== Sys2Proof/Machine/Sequencer.lean ====
section
/-! DEFINITION. The sequencer (10_state.md R26, R27, 46_host_commands.md R190) and the host's moves (10_state.md R23,
R24, 70_reset_and_hazards.md R240, R241, R246 to R248, R256): what one step does. -/

namespace Sys2Proof.Machine

/-- One entry of a step list. -/
def runSeqStep (st : SeqStep) (s : State) : Host.Outcome State Fault Refusal :=
  match st with
  | .instr i => exec i s
  | .drawAcq => .next (drawAcq s)
  | .setDriver v => .next (setDriver v s)
  | .clearDriver => .next (clearDriver s)
  | .setReady => .next (setReady s)
  | .convertPixel j addr => .next (convertPixel j addr s)
  | .sendLineByte k => exec (.sendByte (s.line.getD k 0#8)) s
  | .sendImageByte addr => exec (.sendByte (imgRead8 s.mem addr)) s
  | .raise e => .next (enterError e s)
  | .post r => .next (post r s)

/-- One sequencer step: nothing in `IDLE`; in `EXEC` the step `seq_pc` names, `seq_pc` advanced by one; a list that
has come to its end returns to `IDLE` (R26). -/
def sequencerStep (s : State) : Host.Outcome State Fault Refusal :=
  match s.phase with
  | .idle => .next s
  | .exec _ =>
    match s.program[s.seqPc]? with
    | none => .next { s with phase := .idle, program := [], seqPc := 0 }
    | some st => runSeqStep st { s with seqPc := s.seqPc + 1 }

/-- A `CMD` write taken whole (R190, R27): decode, then the command's atomic transition, or the error of R76. -/
def runCommand (w : Half) (s : State) : Host.Outcome State Fault Refusal :=
  match decodeHost w with
  | .instr c => exec c { s with cmd := w }
  | .reject _ => .next (raiseError .illegalCommand { s with cmd := w })

/-- A `CMD` write taken step by step (R190, R26): the command is accepted and its step list stands at its start. -/
def beginCommand (w : Half) (s : State) : State :=
  match decodeHost w with
  | .instr c => { accept c { s with cmd := w } with program := commandSteps c s, seqPc := 0 }
  | .reject _ => raiseError .illegalCommand { s with cmd := w }

/-- The block's own reset (R240, R241): everything but the environment takes its reset value; no event (log 21). -/
def resetBlock (s : State) : State :=
  { State.reset with
    mem := s.mem, inbox := s.inbox, acqQueue := s.acqQueue, acqDrawn := s.acqDrawn, readData := s.readData }

/-- The host's move at the head of the inbox, or a sequencer step. A `CMD` write while busy is ignored (R246). While
busy the host has no move that writes an operand register or image memory: such a move waits (R247, R248; log 2). -/
def hostStep (s : State) : Host.Outcome State Fault Refusal :=
  match s.inbox with
  | [] => sequencerStep s
  | .wait :: rest => sequencerStep { s with inbox := rest }
  | .waitIdle :: rest => if s.busy then sequencerStep s else .next { s with inbox := rest }
  | .writeCmd w :: rest =>
    if s.busy then .next { s with inbox := rest } else runCommand w { s with inbox := rest }
  | .startCmd w :: rest =>
    if s.busy then .next { s with inbox := rest } else .next (beginCommand w { s with inbox := rest })
  | .writeReg v :: rest =>
    if s.busy then sequencerStep s else .next { s with inbox := rest, regs := s.regs.write v }
  | .readReg r :: rest =>
    if s.busy then sequencerStep s else .next { s with inbox := rest, readData := s.regs.read r }
  | .readResult :: rest => .next { s with inbox := rest, readData := s.result.setWidth 32 }
  | .readStatus :: rest => .next { s with inbox := rest, readData := s.status.setWidth 32 }
  | .writeImage a b :: rest =>
    if s.busy then sequencerStep s else .next { s with inbox := rest, mem := Memory.write s.mem a.toNat b }
  | .reset :: rest => .next (resetBlock { s with inbox := rest })

/-- The pads once `INIT` has configured CS, RST and DC (R122). -/
def padsConfigured (ps : Pads) : Pads :=
  { ps with cs := ⟨.outOD, .high⟩, rst := ⟨.outPP, .high⟩, dc := ⟨.outPP, .high⟩ }

/-- Where the next step takes a word from. A host word is the host's next `CMD` write, with the block idle. A wire
symbol is the next entry of a running command's step list; where no session is open it is put where the first symbol
of every run stands, inside `INIT` just after `open` (R122, R123, R116; log 14). -/
def placeWord (s : State) (nbits w : Nat) : State :=
  match codeWordOf w with
  | .host cw => { s with phase := .idle, program := [], seqPc := 0, inbox := .writeCmd cw :: s.inbox }
  | .wire _ =>
    match decodeTableWord nbits w with
    | none => { s with phase := .idle, program := [], seqPc := 0, inbox := .writeCmd (BitVec.ofNat 16 w) :: s.inbox }
    | some i =>
      { s with
        phase := .exec (.init none none), program := [.instr i, .post .none], seqPc := 0, inbox := .wait :: s.inbox,
        spi := if s.spi.isSome then s.spi else some (clockReq .shield096),
        pads := if s.spi.isSome then s.pads else padsConfigured s.pads }

end Sys2Proof.Machine
end

