-- ==== Sys2Proof/Machine/Step.lean ====
section
/-! DEFINITION. One step of the machine, and where a word is placed for the next step to take. -/

namespace Sys2Proof.Machine

/-- One step: the host's next move, or a sequencer step (R26, R190). -/
def step (s : State) : Host.Outcome State Fault Refusal := hostStep s

/-- `s` with the word placed where the next step takes it (log 1, 14). -/
def State.withFetchWord (s : State) (nbits w : Nat) : State := placeWord s nbits w

end Sys2Proof.Machine
end

