-- ==== Sys2Proof/Machine/Trace.lean ====
section
/-! DEFINITION. The projections of a trace (10_state.md R34): symbols and frames; wire equivalence; sums over a trace
(60_exceptions.md R224); the observation of a run (70_reset_and_hazards.md R256). Nothing in the machine reads them. -/

namespace Sys2Proof.Machine

/-- The observation of a run that stands at `s`: its result words and its events, oldest first (R256). -/
def State.observation (s : State) : List Half × List Event := (s.results, s.trace)

/-- The DC latch after an event. -/
def dcAfter (dc : Level) : Event → Level
  | .pinCfg p _ l => if p = .dc then l else dc
  | .pinWrite p l => if p = .dc then l else dc
  | .pinRelease _ | .spiOpen _ | .spiByte _ | .spiClose | .delay _ => dc

/-- `symbols(trace)`: one `(dc, b)` per byte, with the DC latch at that moment; `dc` is the latch before (R34). -/
def symbols (dc : Level) : List Event → List (Level × Byte)
  | [] => []
  | .spiByte b :: es => (dc, b) :: symbols dc es
  | e :: es => symbols (dcAfter dc e) es

/-- The 9-bit wire symbol `dc ++ b` (R77). -/
def symbolWord (x : Level × Byte) : BitVec 9 := (BitVec.ofNat 1 x.1.toNat ++ x.2 : BitVec 9)

/-- The frames of a trace, `dc` being the DC latch before it and `cur` the bytes of the frame in flight, if any. -/
def framesFrom (dc : Level) (cur : Option (List Byte)) : List Event → List (Level × List Byte)
  | [] => []
  | .spiByte b :: es => framesFrom dc (cur.map (· ++ [b])) es
  | .pinWrite .cs .low :: es => framesFrom dc (some []) es
  | .pinWrite .cs .high :: es =>
    match cur with
    | none => framesFrom dc none es
    | some bs => (dc, bs) :: framesFrom dc none es
  | e :: es => framesFrom (dcAfter dc e) cur es

/-- `frames(trace)`: one entry per interval between a `PinWrite(CS, 0)` and the next `PinWrite(CS, 1)` (R34). -/
def frames (dc : Level) (es : List Event) : List (Level × List Byte) := framesFrom dc none es

/-- A `PinWrite` of CS or DC. -/
def Event.isFraming : Event → Bool
  | .pinWrite .cs _ => true
  | .pinWrite .dc _ => true
  | .pinWrite .rst _ | .pinWrite .led _ => false
  | .pinCfg _ _ _ | .pinRelease _ | .spiOpen _ | .spiByte _ | .spiClose | .delay _ => false

/-- Two traces are wire-equivalent when they agree on their symbols and on every event that is not a `PinWrite` of CS
or DC, in order (R34). -/
def wireEquivalent (dc : Level) (es fs : List Event) : Prop :=
  symbols dc es = symbols dc fs ∧
    es.filter (fun e => !e.isFraming) = fs.filter (fun e => !e.isFraming)

/-- The milliseconds an event takes at least (R224). -/
def Event.delayMs : Event → Nat
  | .delay ms => ms
  | .pinCfg _ _ _ | .pinWrite _ _ | .pinRelease _ | .spiOpen _ | .spiByte _ | .spiClose => 0

/-- The sum of a trace's delays, a lower bound of its duration (R224, R254). -/
def totalDelay (es : List Event) : Nat := (es.map Event.delayMs).sum

/-- How many bytes a trace sends. -/
def byteCount (es : List Event) : Nat :=
  es.countP fun e => match e with
    | .spiByte _ => true
    | .pinCfg _ _ _ | .pinWrite _ _ | .pinRelease _ | .spiOpen _ | .spiClose | .delay _ => false

end Sys2Proof.Machine
end

