-- ==== Sys2Proof/WellFormed.lean ====
section
/-! DEFINITION. Which instruction terms the spec gives: the operand values of the table's rows and of the rules
(30_encoding.md R79, 40_pins.md R92, R94, 41_spi.md R100, R103, 42_frames.md R112, R113, 44_geometry.md R160,
60_exceptions.md R224). Level H and level W terms are well formed by their types (R72, R73, R77). -/

namespace Sys2Proof

/-- The two panel sizes (R2). -/
def isPanelSize (w h : Nat) : Bool :=
  (w == 128 && h == 160) || (w == 160 && h == 80)

/-- The four fields of a rectangle are 16-bit numbers (R160). -/
def Rect.fits16 (r : Rect) : Bool :=
  r.x < 65536 && r.y < 65536 && r.w < 65536 && r.h < 65536

/-- The operand checks, one arm per constructor. -/
def Instr.wellFormed : Instr → Bool
  | .init _ _ => true
  | .deinit => true
  | .width => true
  | .height => true
  | .type => true
  | .setBacklight _ => true
  | .getBacklight => true
  | .display _ => true
  | .clear => true
  | .configureOutput p d l => d == Machine.pinDrive p && (p == .led || l == Machine.pinIdle p)
  | .write _ _ => true
  | .read p => p == .led
  | .release _ => true
  | .spiOpen req => req == .hz 15151515 || req == .div 8
  | .sendByte _ => true
  | .sendBytes buf len => decide (len ≤ buf.length) && decide (len ≤ 320)
  | .spiClose => true
  | .cmd op => Machine.commandBytes.contains op
  | .param _ => true
  | .cmdWithParams op ps => Machine.commandBytes.contains op && decide (ps.length ≤ 16)
  | .data buf len => decide (len ≤ buf.length) && decide (len ≤ 320)
  | .sleep ms => ms == 10 || ms == 100 || ms == 120
  | .initSequence _ _ => true
  | .geometry r w h => r.fits16 && isPanelSize w h
  | .gs2rgb565 _ => true
  | .pump _ r l rp t b => r.fits16 && isPanelSize (l + r.w + rp) (t + r.h + b)
  | .clearStream => true
  | .rollback => true
  | .swreset => true
  | .slpout => true
  | .noron => true
  | .invoff => true
  | .invon => true
  | .dispon => true
  | .caset => true
  | .raset => true
  | .ramwr => true
  | .madctl => true
  | .colmod => true
  | .frmctr1 => true
  | .frmctr2 => true
  | .frmctr3 => true
  | .invctr => true
  | .pwctr1 => true
  | .pwctr2 => true
  | .pwctr3 => true
  | .pwctr4 => true
  | .pwctr5 => true
  | .vmctr1 => true
  | .gmctrp => true
  | .gmctrn => true
  | .dataOrParameterByte _ => true

end Sys2Proof
end

