-- ==== Sys2Proof/Safety.lean ====
section
/-! DEFINITION. What claims are stated in: the event lists the spec writes out (43_init_sequence.md R150, R151,
45_pixel_pump.md R174 to R182, 60_exceptions.md R214, R215), the DriverState invariants (10_state.md R22,
46_host_commands.md R201), and the framing laws as an automaton over a trace (42_frames.md R114). These definitions
are written from the rules and not from the machine. -/

namespace Sys2Proof.Machine

/-! ### Compact trace notation (R10) -/

/-- `[cXX]`, a command frame. -/
def cFrame (op : Byte) : List Event :=
  [.pinWrite .cs .low, .pinWrite .dc .low, .spiByte op, .pinWrite .cs .high]

/-- `[dXX ...]`, a parameter or data frame. -/
def dFrame (bs : List Byte) : List Event :=
  [.pinWrite .cs .low, .pinWrite .dc .high] ++ bs.map .spiByte ++ [.pinWrite .cs .high]

/-- `[cXX] [dP0] [dP1] ...`, a command and a parameter frame for each byte. -/
def cdFrames (op : Byte) (ps : List Byte) : List Event := cFrame op ++ ps.flatMap fun p => dFrame [p]

/-- `[d00*n]`. -/
def zFrame (n : Nat) : List Event := dFrame (List.replicate n 0#8)

/-! ### The initialisation traces (R150, R151) -/

/-- The first line of R150 and R151. -/
def pinsTrace : List Event := [.pinCfg .cs .od .high, .pinCfg .rst .pp .high, .pinCfg .dc .pp .high]

/-- The lines both traces share, up to `[cC5] [d0E]`. -/
def prologueTrace : List Event :=
  cFrame 0x01#8 ++
  [.pinWrite .rst .low, .delay 120, .pinWrite .rst .high] ++
  cFrame 0x01#8 ++ [.delay 120] ++
  cFrame 0x11#8 ++ [.delay 120] ++
  cdFrames 0xB1#8 [0x01#8, 0x2C#8, 0x2D#8] ++
  cFrame 0xB2#8 ++
  cdFrames 0xB3#8 [0x01#8, 0x2C#8, 0x2D#8, 0x01#8, 0x2C#8, 0x2D#8] ++
  cdFrames 0xB4#8 [0x07#8] ++
  cdFrames 0xC0#8 [0xA2#8, 0x02#8, 0x84#8] ++
  cdFrames 0xC1#8 [0xC5#8] ++
  cdFrames 0xC2#8 [0x0A#8, 0x00#8] ++
  cdFrames 0xC3#8 [0x8A#8, 0x2A#8] ++
  cdFrames 0xC4#8 [0x8A#8, 0xEE#8] ++
  cdFrames 0xC5#8 [0x0E#8]

/-- The variant-specific lines; `XX` is C0, C8, A0 or A8. -/
def variantTrace : Variant → Bool → List Event
  | .shield18, bgr =>
    cdFrames 0x36#8 [if bgr then 0xC8#8 else 0xC0#8] ++
    cdFrames 0x3A#8 [0x05#8] ++
    cFrame 0x20#8 ++
    cdFrames 0x2A#8 [0x00#8, 0x00#8, 0x00#8, 0x7F#8] ++
    cdFrames 0x2B#8 [0x00#8, 0x00#8, 0x00#8, 0x9F#8]
  | .shield096, bgr =>
    cFrame 0x21#8 ++
    cdFrames 0x36#8 [if bgr then 0xA8#8 else 0xA0#8] ++
    cdFrames 0x3A#8 [0x05#8] ++
    cdFrames 0x2A#8 [0x00#8, 0x01#8, 0x00#8, 0xA0#8] ++
    cdFrames 0x2B#8 [0x00#8, 0x1A#8, 0x00#8, 0x69#8]

/-- The lines both traces share from `[cE0]` to `[c29] ~100`. -/
def epilogueTrace : List Event :=
  cdFrames 0xE0#8 ((List.range 16).map Config.gammaP) ++
  cdFrames 0xE1#8 ((List.range 16).map Config.gammaN) ++
  cFrame 0x13#8 ++ [.delay 10] ++
  cFrame 0x29#8 ++ [.delay 100]

/-- `SpiOpen(req)` of the variant. -/
def openTrace : Variant → Event
  | .shield18 => .spiOpen (.hz 15151515)
  | .shield096 => .spiOpen (.div 8)

/-- All but the last event of R150 or R151. -/
def initTraceButLed (v : Variant) (bgr : Bool) : List Event :=
  pinsTrace ++ [openTrace v] ++ prologueTrace ++ variantTrace v bgr ++ epilogueTrace

/-- The complete trace of `InitSequence(v, bgr)` under `AcqOk` (R150, R151). -/
def initTrace (v : Variant) (bgr : Bool) : List Event := initTraceButLed v bgr ++ [.pinCfg .led .od .low]

/-- The events of an `InitSequence` before the point its draw makes it fail at, all of them under `AcqOk` (R149). -/
def initTraceUnder (v : Variant) (bgr : Bool) : Acq → List Event
  | .ok => initTrace v bgr
  | .gpioFail .cs => []
  | .gpioFail .rst => [.pinCfg .cs .od .high]
  | .gpioFail .dc => [.pinCfg .cs .od .high, .pinCfg .rst .pp .high]
  | .spiFail => pinsTrace ++ [openTrace v]
  | .gpioFail .led => initTraceButLed v bgr

/-- The rollback's events after a failure (R215): `SpiClose` only where the session was opened. -/
def rollbackTrace : Acq → List Event
  | .ok => []
  | .gpioFail .led => [.pinRelease .rst, .pinRelease .dc, .pinRelease .cs, .spiClose]
  | .gpioFail .cs | .gpioFail .rst | .gpioFail .dc | .spiFail =>
    [.pinRelease .rst, .pinRelease .dc, .pinRelease .cs]

/-- The five events of `DEINIT` from an initialised state (R192). -/
def teardownTrace : List Event :=
  [.pinRelease .rst, .pinRelease .dc, .pinRelease .cs, .spiClose, .pinRelease .led]

/-- The events `INIT` begins with: the teardown of an initialised block (R191 (a)). -/
def teardownIfInit (s : State) : List Event := if s.variant = none then [] else teardownTrace

/-! ### The pixel stream (R174 to R184) -/

/-- The window reset (R174). -/
def windowTrace : Variant → List Event
  | .shield18 => []
  | .shield096 => cdFrames 0x2A#8 [0x00#8, 0x01#8] ++ cdFrames 0x2B#8 [0x00#8, 0x1A#8]

/-- Side padding (R181). -/
def padTrace (pad : Nat) : List Event := if pad = 0 then [] else zFrame (2 * pad)

/-- The two bytes of an image pixel on the wire (R172, R173), from the pixel's address. -/
def pixelBytes (m : Memory) : Fmt → Nat → List Byte
  | .gs8, a =>
    let p := (m.read a).toNat
    let q := p / 8 * 2048 + p / 4 * 32 + p / 8
    [BitVec.ofNat 8 (q / 256), BitVec.ofNat 8 (q % 256)]
  | .rgb565, a => [m.read a, m.read (a + 1)]

/-- The bytes of row `i` of the effective rectangle, pixel by pixel (R170, R178, R180). -/
def rowBytes (m : Memory) (x : OperandRegs) (fmt : Fmt) (r : Rect) (i : Nat) : List Byte :=
  (List.range r.w).flatMap fun j => pixelBytes m fmt (pixelAddr x fmt (r.x + j) (r.y + i))

/-- The whole stream of `Pump` (R176). -/
def pumpTrace (v : Variant) (m : Memory) (x : OperandRegs) (fmt : Fmt) (g : Work) : List Event :=
  let w := (panelW v).toNat
  windowTrace v ++ cFrame 0x2C#8 ++
  (List.replicate g.tPad (zFrame (2 * w))).flatten ++
  (List.range g.rect.h).flatMap (fun i => padTrace g.lPad ++ dFrame (rowBytes m x fmt g.rect i) ++ padTrace g.rPad) ++
  (List.replicate g.bPad (zFrame (2 * w))).flatten

/-- The stream of `CLEAR` (R184). -/
def clearTrace (v : Variant) : List Event :=
  windowTrace v ++ cFrame 0x2C#8 ++ (List.replicate (panelH v).toNat (zFrame (2 * (panelW v).toNat))).flatten

/-- What a stream leaves in the line buffer: the last converted row of a gs8 image (R185). -/
def lineAfter (s : State) (fmt : Fmt) (r : Rect) : List Byte :=
  if fmt = .gs8 ∧ r.h ≠ 0 then rowBytes s.mem s.regs .gs8 r (r.h - 1) ++ s.line.drop (2 * r.w) else s.line

/-- How many data frames a pump sends, `Fd` of R204. -/
def dataFrameCount (g : Work) : Nat :=
  g.tPad + g.bPad + g.rect.h * (1 + (if g.lPad = 0 then 0 else 1) + (if g.rPad = 0 then 0 else 1))

/-- `rect` lies inside `outer` (R163 (d)). -/
def rectWithin (r outer : Rect) : Prop :=
  outer.x ≤ r.x ∧ r.x + r.w ≤ outer.x + outer.w ∧ outer.y ≤ r.y ∧ r.y + r.h ≤ outer.y + outer.h

/-! ### Numbers of the rules -/

/-- The code of a variant (R21). -/
def variantNumber : Variant → Nat
  | .shield18 => 1
  | .shield096 => 2

/-- The default colour order of a variant (R5, R72): RGB, BGR. -/
def usualOrder : Variant → Bool
  | .shield18 => false
  | .shield096 => true

/-- The code of a pixel format (R24). -/
def fmtCode : Fmt → Byte
  | .gs8 => 1#8
  | .rgb565 => 2#8

/-- The milliseconds of a `Delay` event. -/
def Event.delay? : Event → Option Nat
  | .delay ms => some ms
  | .pinCfg _ _ _ | .pinWrite _ _ | .pinRelease _ | .spiOpen _ | .spiByte _ | .spiClose => none

/-- The pin a `PinCfg` event configures. -/
def Event.configured? : Event → Option Pin
  | .pinCfg p _ _ => some p
  | .pinWrite _ _ | .pinRelease _ | .spiOpen _ | .spiByte _ | .spiClose | .delay _ => none

/-! ### The state between commands -/

/-- Every pad is in `HiZ`. -/
def AllHiZ (ps : Pads) : Prop :=
  ps.rst.mode = .hiZ ∧ ps.dc.mode = .hiZ ∧ ps.cs.mode = .hiZ ∧ ps.led.mode = .hiZ

/-- The DriverState `S0 = (None, 0, 0, absent, false)` with all four pads `HiZ`. -/
def IsS0 (s : State) : Prop :=
  s.variant = none ∧ s.width = 0#8 ∧ s.height = 0#8 ∧ s.spi = none ∧ s.backlightReady = false ∧ AllHiZ s.pads

/-- The DriverState of an initialised block, and its pads (R201). -/
def IsInit (v : Variant) (s : State) : Prop :=
  s.variant = some v ∧ s.width = panelW v ∧ s.height = panelH v ∧ s.spi = some (clockReq v) ∧
  s.backlightReady = true ∧ s.pads.cs = ⟨.outOD, .high⟩ ∧ s.pads.rst = ⟨.outPP, .high⟩ ∧
  s.pads.dc.mode = .outPP ∧ s.pads.led.mode = .outOD

/-- The three DriverStates between commands (R201); R22 (1), (2) and (6) and R97 follow. -/
def DriverInv (s : State) : Prop := IsS0 s ∨ IsInit .shield18 s ∨ IsInit .shield096 s

/-- No command is running. -/
def Idle (s : State) : Prop := s.phase = .idle ∧ s.program = [] ∧ s.seqPc = 0

/-- Every command the host is still to issue is one it issues whole (R27). -/
def WholeCommands (s : State) : Prop := ∀ w : Half, .startCmd w ∉ s.inbox

/-! ### Framing (R114) -/

/-- Where a wire history stands: between frames, in a frame before DC is written, or in a frame with the DC level
`dc` and `n` bytes sent. -/
inductive Link where
  | between
  | opened
  | inFrame (dc : Level) (n : Nat)
  deriving DecidableEq, Repr

/-- One event; `none` where R114 forbids it: a byte or a DC write outside a frame, a DC write after the first byte, a
frame inside a frame, a second byte or no byte with DC low, any event but a byte inside a frame. -/
def Link.next : Link → Event → Option Link
  | .between, .pinWrite .cs .low => some .opened
  | .between, .pinWrite .cs .high => none
  | .between, .pinWrite .dc _ => none
  | .between, .pinWrite .rst _ => some .between
  | .between, .pinWrite .led _ => some .between
  | .between, .spiByte _ => none
  | .between, .pinCfg _ _ _ => some .between
  | .between, .pinRelease _ => some .between
  | .between, .spiOpen _ => some .between
  | .between, .spiClose => some .between
  | .between, .delay _ => some .between
  | .opened, .pinWrite .dc l => some (.inFrame l 0)
  | .opened, _ => none
  | .inFrame .low 0, .spiByte _ => some (.inFrame .low 1)
  | .inFrame .high n, .spiByte _ => some (.inFrame .high (n + 1))
  | .inFrame .low 1, .pinWrite .cs .high => some .between
  | .inFrame .high _, .pinWrite .cs .high => some .between
  | .inFrame _ _, _ => none

/-- A list of events from a place; `none` where one of them is forbidden. -/
def Link.run : Link → List Event → Option Link
  | l, [] => some l
  | l, e :: es => (l.next e).bind fun l' => Link.run l' es

/-- The trace keeps the framing laws and ends between frames (R22 (4), (5), R114). -/
def FramedTrace (s : State) : Prop := Link.run .between s.trace = some .between

/-- Every byte sent with DC low is one of R79's command bytes. -/
def KnownCommands (s : State) : Prop := ∀ b : Byte, (Level.low, b) ∈ symbols .high s.trace → b ∈ commandBytes

/-- The result words the block posts: `NONE`, `INT(n)` with n at most 160, `ERR(c)` with c from 1 to 5 (R74, R75). -/
def LegalResult (s : State) : Prop :=
  s.result = 0x0000#16 ∨ (∃ n : Nat, n ≤ 160 ∧ s.result = 0x4000#16 + BitVec.ofNat 16 n) ∨
    (∃ c : Nat, 1 ≤ c ∧ c ≤ 5 ∧ s.result = 0x8000#16 + BitVec.ofNat 16 c)

/-! ### Frames of statements -/

/-- What no operation of level S or W but those named in a statement writes, and no host command but `DISPLAY` and
`CLEAR`: operand registers, image memory, line buffer, working registers, and the model's own fields. -/
def SameData (s t : State) : Prop :=
  t.regs = s.regs ∧ t.mem = s.mem ∧ t.line = s.line ∧ t.work = s.work ∧ t.inbox = s.inbox ∧ t.cmd = s.cmd ∧
  t.value = s.value ∧ t.readData = s.readData

/-- `RESULT <- rw`, which joins the run's list of result words (R256; log 30), and nothing else. -/
def posted (rw : Half) (s : State) : State := { s with result := rw, results := s.results ++ [rw] }

/-- `t` is `s` after `Rollback()`, whatever `RESULT`, the sequencer and the trace hold (R215): DriverState, the pads, and
everything else as it was. -/
def RolledBack (s t : State) : Prop :=
  t.variant = none ∧ t.width = 0#8 ∧ t.height = 0#8 ∧ t.spi = none ∧ t.backlightReady = false ∧
  t.pads.rst = ⟨.hiZ, s.pads.rst.latch⟩ ∧ t.pads.dc = ⟨.hiZ, s.pads.dc.latch⟩ ∧
  t.pads.cs = ⟨.hiZ, s.pads.cs.latch⟩ ∧
  t.pads.led = (if s.backlightReady then ⟨.hiZ, s.pads.led.latch⟩ else s.pads.led) ∧
  SameData s t ∧ t.acq = s.acq ∧ t.acqQueue = s.acqQueue ∧ t.acqDrawn = s.acqDrawn

/-- The events of `Rollback()` in a state (R215). -/
def rollbackEvents (s : State) : List Event :=
  [.pinRelease .rst, .pinRelease .dc, .pinRelease .cs] ++ (if s.spi = none then [] else [.spiClose]) ++
    (if s.backlightReady then [.pinRelease .led] else [])

/-- How many bytes with DC high follow each byte with DC low. -/
def paramCounts (xs : List (Level × Byte)) : List Nat :=
  (xs.foldr (fun x acc => if x.1 = .low then (0, acc.1 :: acc.2) else (acc.1 + 1, acc.2)) ((0, []) : Nat × List Nat)).2

/-- The pads after a frame: CS high, DC at the frame's level (R110, R111, R113). -/
def padsAfterFrame (dc : Level) (ps : Pads) : Pads :=
  { ps with cs := ⟨ps.cs.mode, .high⟩, dc := ⟨ps.dc.mode, dc⟩ }

/-- What a pump or a clear stream needs and every initialised state has. -/
def StreamReady (v : Variant) (s : State) : Prop := IsInit v s ∧ s.line.length = 320

/-- The register a host write names, and the value it carries. -/
def OperandWrite.target : OperandWrite → OperandReg × BitVec 32
  | .imgBase v => (.imgBase, v)
  | .imgW v => (.imgW, v.setWidth 32)
  | .imgH v => (.imgH, v.setWidth 32)
  | .imgFmt v => (.imgFmt, v.setWidth 32)
  | .imgMut v => (.imgMut, v.setWidth 32)
  | .roiX v => (.roiX, v.setWidth 32)
  | .roiY v => (.roiY, v.setWidth 32)
  | .roiW v => (.roiW, v.setWidth 32)
  | .roiH v => (.roiH, v.setWidth 32)

/-- The command symbols with their bytes (R79). -/
def commandSymbols : List (Instr × Byte) :=
  [(.swreset, 0x01#8), (.slpout, 0x11#8), (.noron, 0x13#8), (.invoff, 0x20#8), (.invon, 0x21#8), (.dispon, 0x29#8),
   (.caset, 0x2A#8), (.raset, 0x2B#8), (.ramwr, 0x2C#8), (.madctl, 0x36#8), (.colmod, 0x3A#8), (.frmctr1, 0xB1#8),
   (.frmctr2, 0xB2#8), (.frmctr3, 0xB3#8), (.invctr, 0xB4#8), (.pwctr1, 0xC0#8), (.pwctr2, 0xC1#8),
   (.pwctr3, 0xC2#8), (.pwctr4, 0xC3#8), (.pwctr5, 0xC4#8), (.vmctr1, 0xC5#8), (.gmctrp, 0xE0#8), (.gmctrn, 0xE1#8)]

end Sys2Proof.Machine
end

