-- ==== Sys2Proof/Certificates/Slice0/Obligations.lean ====
section
/-! DEFINITION. The statements for the provers. Every meaning's statement gives the whole next state as the old one with
the changed fields written out, so it is the completion, the result and the frame at once: every field not written out
(registers, image memory, every other special register) is unchanged. -/

open Sys2Proof Sys2Proof.Machine

/-! ### Encodings -/

/-- R71 to R73, R77, R79: encoding then decoding any operation with a binary form gives it back. -/
def Obligations.DecodeOfEncodeIsTheInstruction : Prop :=
  ∀ i : Instr, i.wellFormed = true → i.level ≠ .step → ∃ w, encode i = some w ∧ decode w = .instr i

/-- R71: "a word encodes at most one command, and each command with given arguments has exactly one word". -/
def Obligations.EveryDecodedWordIsTheEncoding : Prop :=
  ∀ (w : CodeWord) (i : Instr), decode w = .instr i → encode i = some w ∧ i.wellFormed = true

/-- R71, R72, R76: which host words are legal, by the match and mask columns and the two conditions of `INIT`. -/
def Obligations.LegalHostWordsAreTheTableRows : Prop :=
  ∀ cw : Half, (∃ i, decode (.host cw) = .instr i) ↔
    (cw &&& 0xF800#16 = 0x1000#16 ∧ (cw &&& 0x0400#16 = 0#16 → cw &&& 0x00FF#16 = 0#16) ∧
      (cw &&& 0x0200#16 = 0#16 → cw &&& 0x0100#16 = 0#16)) ∨
    cw = 0x2000#16 ∨ cw = 0x3000#16 ∨ cw = 0x4000#16 ∨ cw = 0x5000#16 ∨ cw &&& 0xF000#16 = 0x6000#16 ∨
    cw = 0x7000#16 ∨ cw &&& 0xFFFE#16 = 0x8000#16 ∨ cw = 0x9000#16

/-- R77, R79: a symbol with DC high is a data or parameter byte; one with DC low is a command exactly for the bytes of
R79. -/
def Obligations.WireSymbolsDecodeByDcAndByte : Prop :=
  ∀ b : Byte, decode (.wire (1#1 ++ b : BitVec 9)) = .instr (.dataOrParameterByte b) ∧
    ((∃ i, decode (.wire (0#1 ++ b : BitVec 9)) = .instr i) ↔ b ∈ commandBytes)

/-- R86, T30: some worked host words, and some symbols of R79, bit by bit. -/
def Obligations.WorkedWordsDecode : Prop :=
  decode (.host 0b0001000000000000#16) = .instr (.init none none) ∧
  decode (.host 0b0001010000000001#16) = .instr (.init (some 1#8) none) ∧
  decode (.host 0b0001011000000010#16) = .instr (.init (some 2#8) (some false)) ∧
  decode (.host 0b0001011100000001#16) = .instr (.init (some 1#8) (some true)) ∧
  decode (.host 0b0110000000000001#16) = .instr (.setBacklight 1#12) ∧
  decode (.host 0b1000000000000001#16) = .instr (.display true) ∧
  decode (.host 0b0001000100000000#16) = .reject .bgrNotGiven ∧
  decode (.host 0b0001000000000011#16) = .reject .typeNotGiven ∧
  decode (.wire 0b000101100#9) = .instr .ramwr ∧
  decode (.wire 0b011100001#9) = .instr .gmctrn ∧
  decode (.wire 0b110000100#9) = .instr (.dataOrParameterByte 0x84#8)

/-! ### Reset, the host's registers, the step -/

/-- R36: the reset values the spec gives. -/
def Obligations.ResetStateIsAsSpecified : Prop :=
  IsS0 State.reset ∧ State.reset.result = 0x0000#16 ∧ State.reset.status = 0x0000#16 ∧ State.reset.phase = .idle ∧
    State.reset.trace = []

/-- R190, R76: a `CMD` write while `busy = 0` runs the decoded command's meaning, or posts `ERR(ILLEGAL_COMMAND)` and
does nothing else. (Where the host's move stands and that `CMD` keeps its word are the model's, log 1 and 10; that an
illegal word gets the response of R76, `RESULT` 0x8004, and is no refusal of the step is the model's choice, log 26.) -/
def Obligations.CmdWriteRunsTheDecodedCommand : Prop :=
  ∀ (s : State) (cw : Half) (rest : List HostMove), s.inbox = .writeCmd cw :: rest → Idle s →
    (∀ i, decode (.host cw) = .instr i → step s = exec i { s with inbox := rest, cmd := cw }) ∧
    (∀ r, decode (.host cw) = .reject r →
      step s = .next (posted 0x8004#16 { s with inbox := rest, cmd := cw }))

/-- R26: in `EXEC` the step that `seq_pc` names is executed and `seq_pc` advances by one, for every kind of entry a step
list has; past the end of its list the command is over; in `IDLE` nothing changes. (The host's inbox and the list as a
field are the model's, log 1 and 10; the error entry's list is log 19.) -/
def Obligations.SequencerStepRunsTheStepAtSeqPc : Prop :=
  ∀ (s : State), s.inbox = [] →
    (s.phase = .idle → step s = .next s) ∧
    (∀ c, s.phase = .exec c →
      let here := s.program[s.seqPc]?
      let u := { s with seqPc := s.seqPc + 1 }
      (here = none → step s = .next { s with phase := .idle, program := [], seqPc := 0 }) ∧
      (∀ i, here = some (.instr i) → step s = exec i u) ∧
      (here = some .drawAcq → step s = .next { u with
        acq := s.nextAcq, acqQueue := s.acqQueue.tail, acqDrawn := s.acqDrawn + 1 }) ∧
      (∀ v, here = some (.setDriver v) → step s = .next { u with
        variant := some v, width := panelW v, height := panelH v }) ∧
      (here = some .clearDriver → step s = .next { u with
        variant := none, width := 0#8, height := 0#8, backlightReady := false }) ∧
      (here = some .setReady → step s = .next { u with backlightReady := true }) ∧
      (∀ j a, here = some (.convertPixel j a) → step s = .next { u with
        line := (s.line.set (2 * j) (hiByte (gs2rgb565 (s.mem.read a)))).set (2 * j + 1)
          (loByte (gs2rgb565 (s.mem.read a))) }) ∧
      (∀ k, here = some (.sendLineByte k) → step s = exec (.sendByte (s.line.getD k 0#8)) u) ∧
      (∀ a, here = some (.sendImageByte a) → step s = exec (.sendByte (s.mem.read a)) u) ∧
      (∀ e, here = some (.raise e) → e.rollsBack = false → step s = .next { posted e.result.word u with
        phase := .idle, program := [], seqPc := 0 }) ∧
      (∀ e, here = some (.raise e) → e.rollsBack = true → step s = .next { s with
        program := teardownSteps s ++ [.post e.result], seqPc := 0 }) ∧
      (∀ r, here = some (.post r) → step s = .next { posted r.word u with phase := .idle, program := [], seqPc := 0 }))

/-- The model's placement of a table word (log 1, 14): the very next step runs the instruction the decoder reads. -/
def Obligations.PlacedWordRunsNext : Prop :=
  ∀ (s : State) (w : Nat) (i : Instr), w < 2 ^ 16 → decodeTableWord 16 w = some i →
    (i.level = .host ∧ step (s.withFetchWord 16 w) =
      exec i { s with phase := .idle, program := [], seqPc := 0, cmd := BitVec.ofNat 16 w }) ∨
    (i.level = .wire ∧ ∃ u, step (s.withFetchWord 16 w) = exec i u ∧ u.spi ≠ none ∧ u.trace = s.trace ∧
      u.regs = s.regs ∧ u.mem = s.mem ∧ u.inbox = s.inbox ∧ u.results = s.results ∧ (s.spi ≠ none → u.spi = s.spi ∧ u.pads = s.pads))

/-- R246: a `CMD` write while `busy = 1` is ignored: no state change, no event, `RESULT` not touched. -/
def Obligations.CmdWriteWhileBusyIsIgnored : Prop :=
  ∀ (s : State) (cw : Half) (rest : List HostMove), s.busy = true →
    (s.inbox = .writeCmd cw :: rest ∨ s.inbox = .startCmd cw :: rest) → step s = .next { s with inbox := rest }

/-- R23, R24, R256: what the host's register moves do, while the block is idle and (for `RESULT` and `STATUS`) while it
is busy. -/
def Obligations.HostRegisterMoves : Prop :=
  ∀ (s : State) (rest : List HostMove),
    (s.inbox = .readResult :: rest → step s = .next { s with inbox := rest, readData := s.result.setWidth 32 }) ∧
    (s.inbox = .readStatus :: rest → step s = .next { s with
      inbox := rest, readData := if s.phase = .idle then 0#32 else 1#32 }) ∧
    (∀ v, s.phase = .idle → s.inbox = .writeReg v :: rest →
      step s = .next { s with inbox := rest, regs := s.regs.write v }) ∧
    (∀ r, s.phase = .idle → s.inbox = .readReg r :: rest →
      step s = .next { s with inbox := rest, readData := s.regs.read r }) ∧
    (∀ a b, s.phase = .idle → s.inbox = .writeImage a b :: rest →
      step s = .next { s with inbox := rest, mem := Memory.write s.mem a.toNat b })

/-- R24: the nine operand registers are independent; a write is read back and touches no other register. -/
def Obligations.OperandRegisterReadAfterWrite : Prop :=
  ∀ (x : OperandRegs) (v : OperandWrite) (r : OperandReg),
    (x.write v).read r = if r = (OperandWrite.target v).1 then (OperandWrite.target v).2 else x.read r

/-- R241: a reset at any moment gives `S0` with an empty trace and no event, and leaves the environment alone. -/
def Obligations.ResetMoveAbandonsTheCommand : Prop :=
  ∀ (s : State) (rest : List HostMove), s.inbox = .reset :: rest → ∃ t, step s = .next t ∧ IsS0 t ∧ t.result = 0#16 ∧
    t.phase = .idle ∧ t.trace = [] ∧ t.results = [] ∧ t.mem = s.mem ∧ t.inbox = rest

/-! ### Level S: pads and link -/

/-- R90: `configure_output` writes the latch and the mode of the one pad and emits its event, unless it is the pad
that the running `INIT` cannot acquire. -/
def Obligations.ConfigureOutputSetsThePad : Prop :=
  ∀ (s : State) (p : Pin) (d : Drive) (l : Level), s.drawInForce ≠ .gpioFail p →
    ∃ ps : Pads, exec (.configureOutput p d l) s = .next { s with
        pads := ps, trace := s.trace ++ [.pinCfg p d l] } ∧
      ps.get p = ⟨driveMode d, l⟩ ∧ ∀ q, q ≠ p → ps.get q = s.pads.get q

/-- R91, R92, R93: `write`, `read` and `release`. -/
def Obligations.PadStepsWriteReadRelease : Prop :=
  ∀ (s : State) (p : Pin) (l : Level),
    (∃ ps : Pads, exec (.write p l) s = .next { s with pads := ps, trace := s.trace ++ [.pinWrite p l] } ∧
      ps.get p = ⟨(s.pads.get p).mode, l⟩ ∧ ∀ q, q ≠ p → ps.get q = s.pads.get q) ∧
    exec (.read p) s = .next { s with value := if (s.pads.get p).latch = .high then 1#16 else 0#16 } ∧
    (∃ ps : Pads, exec (.release p) s = .next { s with pads := ps, trace := s.trace ++ [.pinRelease p] } ∧
      ps.get p = ⟨.hiZ, (s.pads.get p).latch⟩ ∧ ∀ q, q ≠ p → ps.get q = s.pads.get q)

/-- R100, R102, R103, R104, R224: the operations of the SPI session and the sleep. -/
def Obligations.LinkStepsOpenSendCloseSleep : Prop :=
  ∀ (s : State),
    (∀ req, s.drawInForce ≠ .spiFail → exec (.spiOpen req) s = .next { s with
      spi := some req, trace := s.trace ++ [.spiOpen req] }) ∧
    (∀ b, s.spi ≠ none → exec (.sendByte b) s = .next { s with trace := s.trace ++ [.spiByte b] }) ∧
    (∀ buf len, s.spi ≠ none → len ≤ buf.length → exec (.sendBytes buf len) s = .next { s with
      trace := s.trace ++ (List.range len).map fun k => .spiByte (buf.getD k 0#8) }) ∧
    (s.spi ≠ none → exec .spiClose s = .next { s with spi := none, trace := s.trace ++ [.spiClose] }) ∧
    (s.spi = none → exec .spiClose s = .next s) ∧
    (∀ ms, exec (.sleep ms) s = .next { s with trace := s.trace ++ [.delay ms] })

/-- The model's stop (log 15): without a session every sending operation of levels S and W stops by name. -/
def Obligations.SendingWithoutSessionFaults : Prop :=
  ∀ (s : State) (i : Instr), s.spi = none →
    (i.level = .wire ∨ (∃ b, i = .sendByte b) ∨ (∃ bs n, i = .sendBytes bs n) ∨ (∃ b, i = .cmd b) ∨
      (∃ b, i = .param b) ∨ (∃ b ps, i = .cmdWithParams b ps) ∨ (∃ bs n, i = .data bs n) ∨ i = .clearStream ∨
      (∃ f r a b c d, i = .pump f r a b c d)) → exec i s = .fault .sendWithoutSession

/-! ### Level S and W: frames -/

/-- R110, R111, R113: the command frame, the parameter frame and the data frame, the empty one too. -/
def Obligations.SingleFramesOnTheWire : Prop :=
  ∀ (s : State), s.spi ≠ none →
    (∀ op, exec (.cmd op) s = .next { s with
      pads := padsAfterFrame .low s.pads
      trace := s.trace ++ [.pinWrite .cs .low, .pinWrite .dc .low, .spiByte op, .pinWrite .cs .high] }) ∧
    (∀ b, exec (.param b) s = .next { s with
      pads := padsAfterFrame .high s.pads
      trace := s.trace ++ [.pinWrite .cs .low, .pinWrite .dc .high, .spiByte b, .pinWrite .cs .high] }) ∧
    (∀ b, exec (.param b) s = exec (.data [b] 1) s) ∧
    (∀ buf len, len ≤ buf.length → exec (.data buf len) s = .next { s with
      pads := padsAfterFrame .high s.pads
      trace := s.trace ++ ([.pinWrite .cs .low, .pinWrite .dc .high] ++ (buf.take len).map .spiByte ++
        [.pinWrite .cs .high]) })

/-- R112: `cmd_with_params` is a command frame and a parameter frame for each byte; with no byte it is `cmd(op)`; it
costs `4 * (k + 1)` events. -/
def Obligations.CmdWithParamsTogglesCsPerByte : Prop :=
  ∀ (s : State) (op : Byte) (ps : List Byte), s.spi ≠ none →
    exec (.cmdWithParams op ps) s = .next { s with
      pads := padsAfterFrame (if ps = [] then .low else .high) s.pads
      trace := s.trace ++ cdFrames op ps } ∧
    exec (.cmdWithParams op []) s = exec (.cmd op) s ∧
    (cdFrames op ps).length = 4 * (ps.length + 1) ∧
    (cdFrames op ps).count (.pinWrite .cs .low) = ps.length + 1

/-- R112, R34: an implementation that coalesces the parameter bytes into one burst is wire-equivalent. -/
def Obligations.CoalescedParametersAreWireEquivalent : Prop :=
  ∀ (dc : Level) (op : Byte) (ps : List Byte),
    wireEquivalent dc (cdFrames op ps) (cFrame op ++ dFrame ps)

/-- R77, R78, R79: each of the 23 command symbols goes out as its one-symbol command frame, a data or parameter symbol
as its one-symbol parameter frame (the reading of a symbol as an operation is the model's, log 13). -/
def Obligations.WireSymbolsGoOutAsOneFrame : Prop :=
  ∀ (s : State), s.spi ≠ none →
    (∀ x ∈ commandSymbols, exec x.1 s = .next { s with
      pads := padsAfterFrame .low s.pads, trace := s.trace ++ cFrame x.2 }) ∧
    (∀ b, exec (.dataOrParameterByte b) s = .next { s with
      pads := padsAfterFrame .high s.pads, trace := s.trace ++ dFrame [b] })

/-! ### Level S: the initialisation sequence and the rollback -/

/-- R120, R122 to R148, R150, R151: `InitSequence` where nothing fails. -/
def Obligations.InitSequenceEmitsItsTrace : Prop :=
  ∀ (s : State) (v : Variant) (bgr : Bool), s.drawInForce = .ok →
    exec (.initSequence v bgr) s = .next { s with
      spi := some (clockReq v), backlightReady := true,
      pads := ⟨⟨.outPP, .high⟩, ⟨.outPP, .low⟩, ⟨.outOD, .high⟩, ⟨.outOD, .low⟩⟩,
      trace := s.trace ++ initTrace v bgr }

/-- R149, R214, R215: inside an `INIT` that cannot acquire something, the sequence, run as one operation, stops at its
point, rolls back and ends the command with the error's result word. -/
def Obligations.InitSequenceFailsAtItsPoint : Prop :=
  ∀ (s : State) (v : Variant) (bgr : Bool) (typ : Option Byte) (b : Option Bool), s.phase = .exec (.init typ b) →
    IsS0 s → s.acq ≠ .ok →
    ∃ t, exec (.initSequence v bgr) s = .next t ∧ IsS0 t ∧ Idle t ∧
      t.result = (if s.acq = .spiFail then 0x8001#16 else 0x8002#16) ∧ t.results = s.results ++ [t.result] ∧
      t.trace = s.trace ++ initTraceUnder v bgr s.acq ++ rollbackTrace s.acq ∧ SameData s t

/-- R90, R100, R214, R215, R220: inside an `INIT`, configuring the pad that cannot be acquired, or opening the session
that cannot be, stops the step list: the recovery's steps and the posting of the error's result word stand in its place
(log 19), and run from there to the end they do what `Rollback()` does and end the command. -/
def Obligations.FailedAcquisitionEndsTheInit : Prop :=
  ∀ (s : State) (typ : Option Byte) (bgr : Option Bool), s.phase = .exec (.init typ bgr) →
    (∀ p d l, s.acq = .gpioFail p → ∃ u, exec (.configureOutput p d l) s = .next u ∧
      u = { s with program := teardownSteps s ++ [.post (.err 2)], seqPc := 0 } ∧
      (s.inbox = [] → ∃ n t, Host.Core.run core n u = .next t ∧ RolledBack s t ∧ Idle t ∧ t.result = 0x8002#16 ∧
        t.results = s.results ++ [0x8002#16] ∧ t.trace = s.trace ++ rollbackEvents s)) ∧
    (∀ req, s.acq = .spiFail → ∃ u, exec (.spiOpen req) s = .next u ∧
      u = { s with program := teardownSteps s ++ [.post (.err 1)], seqPc := 0, trace := s.trace ++ [.spiOpen req] } ∧
      (s.inbox = [] → ∃ n t, Host.Core.run core n u = .next t ∧ RolledBack s t ∧ Idle t ∧ t.result = 0x8001#16 ∧
        t.results = s.results ++ [0x8001#16] ∧ t.trace = s.trace ++ [.spiOpen req] ++ rollbackEvents s))

/-- R215: `Rollback()` in any state. -/
def Obligations.RollbackTearsDown : Prop :=
  ∀ s : State, ∃ t, exec .rollback s = .next t ∧ RolledBack s t ∧ t.trace = s.trace ++ rollbackEvents s ∧
    t.result = s.result ∧ t.results = s.results ∧ t.phase = s.phase ∧ t.program = s.program ∧ t.seqPc = s.seqPc

/-- R152, R245: the totals of the init trace. -/
def Obligations.InitTraceTotals : Prop :=
  ∀ (v : Variant) (bgr : Bool), (initTrace v bgr).length = 352 ∧ byteCount (initTrace v bgr) = 85 ∧
    (frames .high (initTrace v bgr)).length = 85 ∧ (∀ f ∈ frames .high (initTrace v bgr), f.2.length = 1) ∧
    ((symbols .high (initTrace v bgr)).filter (fun x => x.1 = .low)).length = 22 ∧
    ((symbols .high (initTrace v bgr)).filter (fun x => x.1 = .high)).length = 63 ∧
    (initTrace v bgr).filterMap Event.delay? = [120, 120, 120, 10, 100] ∧
    totalDelay (initTrace v bgr) = 470 ∧
    ((symbols .high (initTrace v bgr)).filter (fun x => x.1 = .low)).map Prod.snd =
      (if v = .shield18 then
        [0x01#8, 0x01#8, 0x11#8, 0xB1#8, 0xB2#8, 0xB3#8, 0xB4#8, 0xC0#8, 0xC1#8, 0xC2#8, 0xC3#8, 0xC4#8, 0xC5#8,
          0x36#8, 0x3A#8, 0x20#8, 0x2A#8, 0x2B#8, 0xE0#8, 0xE1#8, 0x13#8, 0x29#8]
      else
        [0x01#8, 0x01#8, 0x11#8, 0xB1#8, 0xB2#8, 0xB3#8, 0xB4#8, 0xC0#8, 0xC1#8, 0xC2#8, 0xC3#8, 0xC4#8, 0xC5#8,
          0x21#8, 0x36#8, 0x3A#8, 0x2A#8, 0x2B#8, 0xE0#8, 0xE1#8, 0x13#8, 0x29#8]) ∧
    paramCounts (symbols .high (initTrace v bgr)) =
      (if v = .shield18 then [0, 0, 0, 3, 0, 6, 1, 3, 1, 2, 2, 2, 1, 1, 1, 0, 4, 4, 16, 16, 0, 0]
      else [0, 0, 0, 3, 0, 6, 1, 3, 1, 2, 2, 2, 1, 0, 1, 1, 4, 4, 16, 16, 0, 0]) ∧
    (initTrace v bgr).countP Event.isFraming = 255 ∧
    ((initTrace v bgr).filterMap Event.configured?).length = 4 ∧ (initTrace v bgr).count (openTrace v) = 1 ∧
    (initTrace v bgr).count (.pinWrite .rst .low) = 1 ∧ (initTrace v bgr).count (.pinWrite .rst .high) = 1

/-! ### Level S: geometry, conversion, streams -/

/-- R161, R162, R160: the step `geometry`, both axes. -/
def Obligations.GeometryStepWritesTheWorkingRegisters : Prop :=
  ∀ (s : State) (r : Rect) (w h : Nat), exec (.geometry r w h) s = .next { s with work :=
    { rect :=
        { x := if r.w > w then r.x + (r.w - w) / 2 else r.x
          y := if r.h > h then r.y + (r.h - h) / 2 else r.y
          w := if r.w > w then w else r.w
          h := if r.h > h then h else r.h }
      lPad := if r.w > w then 0 else (w - r.w) / 2
      rPad := if r.w > w then 0 else (w - r.w + 1) / 2
      tPad := if r.h > h then 0 else (h - r.h) / 2
      bPad := if r.h > h then 0 else (h - r.h + 1) / 2 } }

/-- R163: the laws of the geometry unit, for every input. -/
def Obligations.GeometryLaws : Prop :=
  ∀ (r : Rect) (w h : Nat),
    let g := geometry r w h
    g.lPad + g.rect.w + g.rPad = w ∧ g.tPad + g.rect.h + g.bPad = h ∧
    g.lPad ≤ g.rPad ∧ g.rPad - g.lPad ≤ 1 ∧ g.tPad ≤ g.bPad ∧ g.bPad - g.tPad ≤ 1 ∧
    g.rect.w ≤ w ∧ g.rect.h ≤ h ∧ g.rect.w ≤ r.w ∧ g.rect.h ≤ r.h ∧ rectWithin g.rect r ∧
    (∀ iw ih : Nat, r.x + r.w ≤ iw → r.y + r.h ≤ ih → g.rect.x + g.rect.w ≤ iw ∧ g.rect.y + g.rect.h ≤ ih) ∧
    g.lPad ≤ w ∧ g.rPad ≤ w ∧ g.tPad ≤ h ∧ g.bPad ≤ h ∧
    (w ≤ 160 → h ≤ 160 → g.lPad ≤ 160 ∧ g.rPad ≤ 160 ∧ g.tPad ≤ 160 ∧ g.bPad ≤ 160)

/-- R172: the conversion, field by field, with its corner cases: monotone, and 64 distinct results. -/
def Obligations.GrayscaleConversionFields : Prop :=
  (∀ (s : State) (p : Byte), ∃ q : Half, exec (.gs2rgb565 p) s = .next { s with value := q } ∧
    q.extractLsb' 11 5 = p.extractLsb' 3 5 ∧ q.extractLsb' 5 6 = p.extractLsb' 2 6 ∧
    q.extractLsb' 0 5 = p.extractLsb' 3 5) ∧
  (∀ p p' : Byte, p ≤ p' → gs2rgb565 p ≤ gs2rgb565 p') ∧
  ((List.range 256).map fun n => gs2rgb565 (BitVec.ofNat 8 n)).dedup.length = 64 ∧
  gs2rgb565 0#8 = 0x0000#16 ∧ gs2rgb565 255#8 = 0xFFFF#16 ∧ gs2rgb565 128#8 = 0x8410#16 ∧
  (∀ p : Byte, p.toNat ≤ 3 → gs2rgb565 p = 0x0000#16) ∧
  (∀ p : Byte, 4 ≤ p.toNat → p.toNat ≤ 7 → gs2rgb565 p = 0x0020#16)

/-- R52, R53: the two reads of image memory, the second big-endian. -/
def Obligations.ImageReadsAreBigEndian : Prop :=
  ∀ (m : Memory) (a : Nat), imgRead8 m a = m.read a ∧
    (imgRead16BE m a).toNat = (m.read a).toNat * 256 + (m.read (a + 1)).toNat

/-- R174 to R182: the stream of `pump`, for every effective rectangle that fits the panel. -/
def Obligations.PumpStreamsTheFrame : Prop :=
  ∀ (s : State) (v : Variant) (fmt : Fmt) (g : Work), StreamReady v s →
    g.lPad + g.rect.w + g.rPad = (panelW v).toNat → g.tPad + g.rect.h + g.bPad = (panelH v).toNat →
    exec (.pump fmt g.rect g.lPad g.rPad g.tPad g.bPad) s = .next { s with
      pads := padsAfterFrame .high s.pads, line := lineAfter s fmt g.rect,
      trace := s.trace ++ pumpTrace v s.mem s.regs fmt g }

/-- R184: the step `ClearStream`, and that its stream is the pump's for the 0×0 rectangle. -/
def Obligations.ClearStreamIsTheEmptyPump : Prop :=
  (∀ (s : State) (v : Variant), IsInit v s → exec .clearStream s = .next { s with
    pads := padsAfterFrame .high s.pads, trace := s.trace ++ clearTrace v }) ∧
  (∀ (v : Variant) (m : Memory) (x : OperandRegs) (fmt : Fmt),
    clearTrace v = pumpTrace v m x fmt (geometry ⟨0, 0, 0, 0⟩ (panelW v).toNat (panelH v).toNat))

/-- R183, R204: the totals of one pump: `2 * W * H` data bytes after the memory-write command, and the number of
events. -/
def Obligations.PumpTotals : Prop :=
  ∀ (v : Variant) (m : Memory) (x : OperandRegs) (fmt : Fmt) (r : Rect),
    let w := (panelW v).toNat
    let h := (panelH v).toNat
    let g := geometry r w h
    ∃ stream, pumpTrace v m x fmt g = windowTrace v ++ cFrame 0x2C#8 ++ stream ∧ byteCount stream = 2 * w * h ∧
      (frames .high stream).length = dataFrameCount g ∧
      (∀ f ∈ frames .high stream, f.1 = .high) ∧
      (windowTrace v).length = (if v = .shield18 then 0 else 24) ∧
      (pumpTrace v m x fmt g).length = (windowTrace v).length + 4 + 3 * dataFrameCount g + 2 * w * h

/-! ### Level H -/

/-- R191, R148: a successful `INIT`, from `S0` or from an initialised state. -/
def Obligations.InitSucceeds : Prop :=
  ∀ (s : State) (typ : Option Byte) (bgr : Option Bool) (v : Variant), DriverInv s → Idle s →
    (typ.getD 2#8).toNat = variantNumber v → s.nextAcq = .ok →
    exec (.init typ bgr) s = .next { s with
      variant := some v, width := panelW v, height := panelH v, spi := some (clockReq v), backlightReady := true,
      pads := ⟨⟨.outPP, .high⟩, ⟨.outPP, .low⟩, ⟨.outOD, .high⟩, ⟨.outOD, .low⟩⟩,
      trace := s.trace ++ teardownIfInit s ++ initTrace v (bgr.getD (usualOrder v)),
      result := 0#16, results := s.results ++ [0#16],
      acq := .ok, acqQueue := s.acqQueue.tail, acqDrawn := s.acqDrawn + 1 }

/-- R191, R214, R215: a failing `INIT`, from `S0` or from an initialised state: the events, the result word, the
state `S0`. -/
def Obligations.InitFailsAndRollsBack : Prop :=
  ∀ (s : State) (typ : Option Byte) (bgr : Option Bool) (v : Variant), DriverInv s → Idle s →
    (typ.getD 2#8).toNat = variantNumber v → s.nextAcq ≠ .ok →
    ∃ t, exec (.init typ bgr) s = .next t ∧ IsS0 t ∧ Idle t ∧
      t.result = (if s.nextAcq = .spiFail then 0x8001#16 else 0x8002#16) ∧ t.results = s.results ++ [t.result] ∧
      t.trace = s.trace ++ teardownIfInit s ++
        initTraceUnder v (bgr.getD (usualOrder v)) s.nextAcq ++
        rollbackTrace s.nextAcq ∧ SameData s t

/-- R213, R191: `INIT` of a code that names no variant changes nothing but `RESULT`. -/
def Obligations.InitInvalidVariantChangesNothing : Prop :=
  ∀ (s : State) (n : Byte) (bgr : Option Bool), Idle s → 2 < n.toNat →
    exec (.init (some n) bgr) s = .next (posted 0x0000#16 s)

/-- R192: `DEINIT` in every state, with the five events of an initialised one; and R191 (b): `INIT` of type 0 is the
same in its effect. -/
def Obligations.DeinitReleasesEverything : Prop :=
  ∀ (s : State) (bgr : Option Bool), Idle s →
    exec (.init (some 0#8) bgr) s = exec .deinit s ∧
    (s.variant = none → exec .deinit s = .next (posted 0x0000#16 s)) ∧
    (s.variant ≠ none → exec .deinit s = .next (posted 0x0000#16 { s with
      variant := none, width := 0#8, height := 0#8, spi := none, backlightReady := false,
      pads := ⟨⟨.hiZ, s.pads.rst.latch⟩, ⟨.hiZ, s.pads.dc.latch⟩, ⟨.hiZ, s.pads.cs.latch⟩,
        if s.backlightReady then ⟨.hiZ, s.pads.led.latch⟩ else s.pads.led⟩,
      trace := s.trace ++ rollbackEvents s })) ∧
    (∀ v, IsInit v s → rollbackEvents s = teardownTrace)

/-- R193, R194, R195, R21: the three queries change nothing but `RESULT`. -/
def Obligations.QueriesReturnTheDimensionsAndCode : Prop :=
  ∀ s : State, Idle s →
    (s.variant = none → exec .width s = .next (posted 0x0000#16 s) ∧ exec .height s = .next (posted 0x0000#16 s) ∧
      exec .type s = .next (posted 0x0000#16 s)) ∧
    (∀ v, s.variant = some v →
      exec .width s = .next (posted (0x4000#16 + s.width.setWidth 16) s) ∧
      exec .height s = .next (posted (0x4000#16 + s.height.setWidth 16) s) ∧
      exec .type s = .next (posted (0x4000#16 + BitVec.ofNat 16 (variantNumber v)) s))

/-- R197: `SET_BACKLIGHT` in every case: uninitialised, with the LED pad ready, and (a state no run reaches) not ready. -/
def Obligations.SetBacklightWritesTheInvertedLevel : Prop :=
  ∀ (s : State) (state : BitVec 12), Idle s →
    let lvl := if state = 0#12 then Level.high else Level.low
    (s.variant = none → exec (.setBacklight state) s = .next (posted 0x0000#16 s)) ∧
    (s.variant ≠ none → s.backlightReady = true → exec (.setBacklight state) s = .next (posted 0x0000#16 { s with
      pads := { s.pads with led := ⟨s.pads.led.mode, lvl⟩ }, trace := s.trace ++ [.pinWrite .led lvl] })) ∧
    (s.variant ≠ none → s.backlightReady = false → exec (.setBacklight state) s = .next (posted 0x0000#16 { s with
      backlightReady := true, pads := { s.pads with led := ⟨.outOD, lvl⟩ },
      trace := s.trace ++ [.pinCfg .led .od lvl, .pinWrite .led lvl] }))

/-- R198: `GET_BACKLIGHT` returns the inverted latch, or the sentinel. -/
def Obligations.GetBacklightReturnsTheInvertedLatch : Prop :=
  ∀ s : State, Idle s →
    (s.backlightReady = false → exec .getBacklight s = .next (posted 0x0000#16 s)) ∧
    (s.backlightReady = true → exec .getBacklight s =
      .next (posted (if s.pads.led.latch = .low then 0x4001#16 else 0x4000#16) s))

/-- R211: `DISPLAY`, `CLEAR` and `SET_BACKLIGHT` while uninitialised: the sentinel and no side effect. -/
def Obligations.UninitializedHasNoSideEffect : Prop :=
  ∀ (s : State) (roi : Bool) (state : BitVec 12), Idle s → s.variant = none →
    exec (.display roi) s = .next (posted 0x0000#16 s) ∧ exec .clear s = .next (posted 0x0000#16 s) ∧
    exec (.setBacklight state) s = .next (posted 0x0000#16 s) ∧ exec .width s = .next (posted 0x0000#16 s) ∧
    exec .height s = .next (posted 0x0000#16 s) ∧ exec .type s = .next (posted 0x0000#16 s) ∧
    exec .deinit s = .next (posted 0x0000#16 s) ∧
    (s.backlightReady = false → exec .getBacklight s = .next (posted 0x0000#16 s))

/-- R212, R217, R219: the two errors of `DISPLAY` in their order; nothing on the wire, no state change. -/
def Obligations.DisplayRefusesFormatThenRoi : Prop :=
  ∀ (s : State) (roi : Bool), Idle s → s.variant ≠ none →
    let x := s.regs
    let rx := if roi then x.roiX.toNat else 0
    let ry := if roi then x.roiY.toNat else 0
    let rw := if roi then x.roiW.toNat else x.imgW.toNat
    let rh := if roi then x.roiH.toNat else x.imgH.toNat
    let bad := (x.imgFmt ≠ 1#8 ∧ x.imgFmt ≠ 2#8) ∨ x.imgMut = 0#1
    (bad → exec (.display roi) s = .next (posted 0x8003#16 s)) ∧
    (¬ bad → (x.imgW.toNat < rx + rw ∨ x.imgH.toNat < ry + rh) →
      exec (.display roi) s = .next (posted 0x8005#16 s))

/-- R199: a `DISPLAY` that passes its guards: geometry, the pump's stream, `NONE`. -/
def Obligations.DisplayStreamsTheImage : Prop :=
  ∀ (s : State) (roi : Bool) (v : Variant) (fmt : Fmt) (r : Rect), StreamReady v s → Idle s → s.regs.imgMut = 1#1 →
    s.regs.imgFmt = fmtCode fmt →
    r = (if roi then ⟨s.regs.roiX.toNat, s.regs.roiY.toNat, s.regs.roiW.toNat, s.regs.roiH.toNat⟩
      else ⟨0, 0, s.regs.imgW.toNat, s.regs.imgH.toNat⟩) →
    r.x + r.w ≤ s.regs.imgW.toNat → r.y + r.h ≤ s.regs.imgH.toNat →
    let g := geometry r (panelW v).toNat (panelH v).toNat
    exec (.display roi) s = .next (posted 0x0000#16 { s with
      pads := padsAfterFrame .high s.pads, work := g, line := lineAfter s fmt g.rect,
      trace := s.trace ++ pumpTrace v s.mem s.regs fmt g })

/-- R200, R184: `CLEAR` in an initialised state (that geometry's working registers are written is the model's, log 20). -/
def Obligations.ClearStreamsBlack : Prop :=
  ∀ (s : State) (v : Variant), IsInit v s → Idle s →
    exec .clear s = .next (posted 0x0000#16 { s with
      pads := padsAfterFrame .high s.pads, work := geometry ⟨0, 0, 0, 0⟩ (panelW v).toNat (panelH v).toNat,
      trace := s.trace ++ clearTrace v })

/-- R56, R217: every pixel a `DISPLAY` reads lies inside the image it was given. -/
def Obligations.DisplayReadsInsideTheImage : Prop :=
  ∀ (x : OperandRegs) (fmt : Fmt) (r : Rect) (w h i j : Nat), rectInside r x = true →
    let g := geometry r w h
    i < g.rect.h → j < g.rect.w →
    x.imgBase.toNat ≤ pixelAddr x fmt (g.rect.x + j) (g.rect.y + i) ∧
    pixelAddr x fmt (g.rect.x + j) (g.rect.y + i) + bpp fmt ≤
      x.imgBase.toNat + bpp fmt * (x.imgW.toNat * x.imgH.toNat)

/-- R203: the backlight law, by two commands one after the other. -/
def Obligations.BacklightReadsBackWhatWasSet : Prop :=
  ∀ (s : State) (v : Variant) (a : BitVec 12), IsInit v s → Idle s → ∃ t u, exec (.setBacklight a) s = .next t ∧
    exec .getBacklight t = .next u ∧ u.result = (if a = 0#12 then 0x4000#16 else 0x4001#16)

/-- R202: `INIT`, `DEINIT`, `INIT` of one variant and colour order, all acquired: two identical traces, and DriverState
and pads after the second as after the first; and without the `DEINIT` the five teardown events come first. -/
def Obligations.ReinitialisationRepeatsTheTrace : Prop :=
  ∀ (s : State) (v : Variant) (typ : Option Byte) (bgr : Option Bool) (rest : List Acq), IsS0 s → Idle s →
    (typ.getD 2#8).toNat = variantNumber v → s.acqQueue = .ok :: .ok :: rest →
    ∃ a b c d evs, exec (.init typ bgr) s = .next a ∧ exec .deinit a = .next b ∧ exec (.init typ bgr) b = .next c ∧
      exec (.init typ bgr) a = .next d ∧ IsS0 b ∧ evs.length = 352 ∧
      a.trace = s.trace ++ evs ∧ b.trace = a.trace ++ teardownTrace ∧ c.trace = b.trace ++ evs ∧
      d.trace = a.trace ++ teardownTrace ++ evs ∧
      (∀ e ∈ [c, d], e.variant = a.variant ∧ e.width = a.width ∧ e.height = a.height ∧ e.spi = a.spi ∧
        e.backlightReady = a.backlightReady ∧ e.pads = a.pads)

/-- R185: `DISPLAY` is idempotent with respect to driver state: the second run puts the same events on the wire. -/
def Obligations.DisplayIsIdempotent : Prop :=
  ∀ (s t : State) (roi : Bool) (v : Variant), StreamReady v s → Idle s → exec (.display roi) s = .next t →
    ∃ u evs, exec (.display roi) t = .next u ∧ t.trace = s.trace ++ evs ∧ u.trace = t.trace ++ evs ∧
      IsInit v t ∧ u.line = t.line ∧ u.result = t.result ∧ t.spi = s.spi ∧ t.pads.rst = s.pads.rst ∧
      t.pads.led = s.pads.led

/-! ### Whole-machine rules -/

/-- The invariant holds at reset (the step list and counter at rest are the model's, log 10). -/
def Obligations.ResetMeetsTheInvariant : Prop :=
  DriverInv State.reset ∧ Idle State.reset ∧ WholeCommands State.reset ∧ FramedTrace State.reset ∧
    KnownCommands State.reset ∧ LegalResult State.reset ∧ State.reset.mem.wf = true ∧ State.reset.line.length = 320 ∧
    State.reset.observation = ([], [])

/-- R22 (1), (2), (6), R97, R201: where commands run whole, every step from a state between commands gives one of the
three DriverStates, with the pads as R201 says, and is between commands again. -/
def Obligations.StepKeepsTheDriverStates : Prop :=
  ∀ s t : State, DriverInv s → Idle s → WholeCommands s → step s = .next t → DriverInv t ∧ Idle t ∧ WholeCommands t

/-- The same states never stop: every step gives a next state (R255: every command terminates). -/
def Obligations.StepAlwaysCompletes : Prop :=
  ∀ s : State, DriverInv s → Idle s → ∃ t, step s = .next t

/-- R114, R22 (4), (5): every step keeps the framing laws over the whole wire history. -/
def Obligations.StepKeepsTheFraming : Prop :=
  ∀ s t : State, DriverInv s → Idle s → WholeCommands s → FramedTrace s → step s = .next t → FramedTrace t

/-- R79: "No other byte is ever sent with DC low." -/
def Obligations.StepSendsOnlyKnownCommands : Prop :=
  ∀ s t : State, DriverInv s → Idle s → WholeCommands s → FramedTrace s → KnownCommands s → step s = .next t →
    KnownCommands t

/-- R74, U17: every step keeps `RESULT` one of the words the block can post. -/
def Obligations.StepKeepsTheResultLegal : Prop :=
  ∀ s t : State, DriverInv s → Idle s → WholeCommands s → LegalResult s → step s = .next t → LegalResult t

/-- Every step, in any state at all, keeps image memory in its canonical form and the line buffer at 320 bytes. -/
def Obligations.StepKeepsMemoryAndLineForm : Prop :=
  ∀ s t : State, s.mem.wf = true → s.line.length = 320 → step s = .next t → t.mem.wf = true ∧ t.line.length = 320

/-- R50, R33, R248, R256: in any state at all, a step changes image memory only for the host's own move, taken while the
block is idle; and but for a reset it only appends to the wire history and to the list of result words, `RESULT` being the
last word appended, if any (the move that waits while busy is log 2, the list as a field log 30). -/
def Obligations.StepAppendsToTheTraceAndReadsTheImage : Prop :=
  ∀ s t : State, step s = .next t →
    ((s.busy = true ∨ ∀ a b, s.inbox.head? ≠ some (.writeImage a b)) → t.mem = s.mem) ∧
    (s.inbox.head? ≠ some .reset → (∃ evs, t.trace = s.trace ++ evs) ∧
      ∃ ws, t.results = s.results ++ ws ∧ t.result = ws.getLastD s.result)

/-- R26, R27: a command run step by step from its step list comes to exactly the state of its atomic transition, with
every error and every draw, and on the way its events come one at a time: every wire history between the one before the
command and the one after it is one the machine stands at. (Taking a `CMD` write step by step is the model's move
`startCmd`, log 3; its operands are sampled at the start, log 22; a recovery's steps are log 19.) -/
def Obligations.SteppedCommandReachesTheAtomicResult : Prop :=
  ∀ (s : State) (cw : Half), DriverInv s → Idle s → s.line.length = 320 →
    let first := { s with inbox := [.startCmd cw] }
    ∃ n t, Host.Core.run core n first = .next t ∧ step { s with inbox := [.writeCmd cw] } = .next t ∧
      ∀ h : List Event, s.trace <+: h → h <+: t.trace →
        ∃ k u, k ≤ n ∧ Host.Core.run core k first = .next u ∧ u.trace = h

/-- R22 (4), (5), R27, R23, R26, R256: also while a command runs step by step, at every one of its steps, the wire
history keeps the framing laws, and CS is low exactly while a frame is in flight; the first step of a legal word moves to
`EXEC`; while busy the phase is `EXEC` of that word's command, `STATUS` reads 1 and `RESULT` holds the previous command's
word. (`startCmd` is log 3, a recovery's steps are log 19.) -/
def Obligations.SteppedCommandKeepsTheFraming : Prop :=
  ∀ (s t : State) (cw : Half) (n : Nat), DriverInv s → Idle s → s.line.length = 320 → FramedTrace s →
    Host.Core.run core n { s with inbox := [.startCmd cw] } = .next t →
    (∃ l, Link.run .between t.trace = some l ∧ (l ≠ .between ↔ (t.pads.cs.mode ≠ .hiZ ∧ t.pads.cs.latch = .low))) ∧
    (∀ c, n = 1 → decode (.host cw) = .instr c → t.phase = .exec c) ∧
    (t.busy = true → ∃ c, decode (.host cw) = .instr c ∧ t.phase = .exec c ∧ t.status = 1#16 ∧ t.result = s.result ∧
      t.results = s.results)

/-! ### Image memory, timing -/

/-- A byte of image memory reads back as written, and no other byte changes. -/
def Obligations.ImageReadAfterWrite : Prop :=
  ∀ (m : Memory) (a b : Nat) (v : Byte), m.wf = true → a < 2 ^ 32 →
    (Memory.write m a v).read b = if b = a then v else m.read b

/-- R253, R101: the bit clock never exceeds a frequency request, and where some prescaler meets the request it is the
highest clock one of them gives, whatever the controller's kernel clock and prescalers. (Whole Hz, and the free value where
none meets it, are the model's, log 27.) -/
def Obligations.BitClockNeverExceedsTheRequest : Prop :=
  (∀ n, bitClock (.hz n) ≤ n ∧ bitClock (.hz n) = pickClock Config.spiKernelHz Config.prescalers n) ∧
  ∀ (kernel n d : Nat) (ps : List Nat), d ∈ ps → kernel ≤ n * d →
    kernel / d ≤ pickClock kernel ps n ∧ ∃ e ∈ ps, kernel ≤ n * e ∧ pickClock kernel ps n = kernel / e
end

