-- ==== Sys2Proof/Laws/State.lean ====
section
/-! SUPPORT. One lemma per field of State for each primitive update, so that no later proof unfolds a record update. -/

namespace Sys2Proof.Machine

/-! `emit` appends to the trace and changes nothing else. -/

@[simp] theorem emit_variant (es : List Event) (s : State) : (emit es s).variant = s.variant := rfl
@[simp] theorem emit_width (es : List Event) (s : State) : (emit es s).width = s.width := rfl
@[simp] theorem emit_height (es : List Event) (s : State) : (emit es s).height = s.height := rfl
@[simp] theorem emit_spi (es : List Event) (s : State) : (emit es s).spi = s.spi := rfl
@[simp] theorem emit_backlightReady (es : List Event) (s : State) : (emit es s).backlightReady = s.backlightReady := rfl
@[simp] theorem emit_pads (es : List Event) (s : State) : (emit es s).pads = s.pads := rfl
@[simp] theorem emit_regs (es : List Event) (s : State) : (emit es s).regs = s.regs := rfl
@[simp] theorem emit_cmd (es : List Event) (s : State) : (emit es s).cmd = s.cmd := rfl
@[simp] theorem emit_result (es : List Event) (s : State) : (emit es s).result = s.result := rfl
@[simp] theorem emit_phase (es : List Event) (s : State) : (emit es s).phase = s.phase := rfl
@[simp] theorem emit_seqPc (es : List Event) (s : State) : (emit es s).seqPc = s.seqPc := rfl
@[simp] theorem emit_program (es : List Event) (s : State) : (emit es s).program = s.program := rfl
@[simp] theorem emit_work (es : List Event) (s : State) : (emit es s).work = s.work := rfl
@[simp] theorem emit_line (es : List Event) (s : State) : (emit es s).line = s.line := rfl
@[simp] theorem emit_trace (es : List Event) (s : State) : (emit es s).trace = s.trace ++ es := rfl
@[simp] theorem emit_mem (es : List Event) (s : State) : (emit es s).mem = s.mem := rfl
@[simp] theorem emit_inbox (es : List Event) (s : State) : (emit es s).inbox = s.inbox := rfl
@[simp] theorem emit_acq (es : List Event) (s : State) : (emit es s).acq = s.acq := rfl
@[simp] theorem emit_acqQueue (es : List Event) (s : State) : (emit es s).acqQueue = s.acqQueue := rfl
@[simp] theorem emit_acqDrawn (es : List Event) (s : State) : (emit es s).acqDrawn = s.acqDrawn := rfl
@[simp] theorem emit_results (es : List Event) (s : State) : (emit es s).results = s.results := rfl
@[simp] theorem emit_value (es : List Event) (s : State) : (emit es s).value = s.value := rfl
@[simp] theorem emit_readData (es : List Event) (s : State) : (emit es s).readData = s.readData := rfl

/-! `setLatch` changes one pad's latch. -/

@[simp] theorem setLatch_variant (p : Pin) (l : Level) (s : State) : (setLatch p l s).variant = s.variant := rfl
@[simp] theorem setLatch_width (p : Pin) (l : Level) (s : State) : (setLatch p l s).width = s.width := rfl
@[simp] theorem setLatch_height (p : Pin) (l : Level) (s : State) : (setLatch p l s).height = s.height := rfl
@[simp] theorem setLatch_spi (p : Pin) (l : Level) (s : State) : (setLatch p l s).spi = s.spi := rfl
@[simp] theorem setLatch_backlightReady (p : Pin) (l : Level) (s : State) : (setLatch p l s).backlightReady = s.backlightReady := rfl
@[simp] theorem setLatch_pads (p : Pin) (l : Level) (s : State) : (setLatch p l s).pads = s.pads.set p { s.pads.get p with latch := l } := rfl
@[simp] theorem setLatch_regs (p : Pin) (l : Level) (s : State) : (setLatch p l s).regs = s.regs := rfl
@[simp] theorem setLatch_cmd (p : Pin) (l : Level) (s : State) : (setLatch p l s).cmd = s.cmd := rfl
@[simp] theorem setLatch_result (p : Pin) (l : Level) (s : State) : (setLatch p l s).result = s.result := rfl
@[simp] theorem setLatch_phase (p : Pin) (l : Level) (s : State) : (setLatch p l s).phase = s.phase := rfl
@[simp] theorem setLatch_seqPc (p : Pin) (l : Level) (s : State) : (setLatch p l s).seqPc = s.seqPc := rfl
@[simp] theorem setLatch_program (p : Pin) (l : Level) (s : State) : (setLatch p l s).program = s.program := rfl
@[simp] theorem setLatch_work (p : Pin) (l : Level) (s : State) : (setLatch p l s).work = s.work := rfl
@[simp] theorem setLatch_line (p : Pin) (l : Level) (s : State) : (setLatch p l s).line = s.line := rfl
@[simp] theorem setLatch_trace (p : Pin) (l : Level) (s : State) : (setLatch p l s).trace = s.trace := rfl
@[simp] theorem setLatch_mem (p : Pin) (l : Level) (s : State) : (setLatch p l s).mem = s.mem := rfl
@[simp] theorem setLatch_inbox (p : Pin) (l : Level) (s : State) : (setLatch p l s).inbox = s.inbox := rfl
@[simp] theorem setLatch_acq (p : Pin) (l : Level) (s : State) : (setLatch p l s).acq = s.acq := rfl
@[simp] theorem setLatch_acqQueue (p : Pin) (l : Level) (s : State) : (setLatch p l s).acqQueue = s.acqQueue := rfl
@[simp] theorem setLatch_acqDrawn (p : Pin) (l : Level) (s : State) : (setLatch p l s).acqDrawn = s.acqDrawn := rfl
@[simp] theorem setLatch_results (p : Pin) (l : Level) (s : State) : (setLatch p l s).results = s.results := rfl
@[simp] theorem setLatch_value (p : Pin) (l : Level) (s : State) : (setLatch p l s).value = s.value := rfl
@[simp] theorem setLatch_readData (p : Pin) (l : Level) (s : State) : (setLatch p l s).readData = s.readData := rfl

/-! `setMode` changes one pad's mode. -/

@[simp] theorem setMode_variant (p : Pin) (m : PadMode) (s : State) : (setMode p m s).variant = s.variant := rfl
@[simp] theorem setMode_width (p : Pin) (m : PadMode) (s : State) : (setMode p m s).width = s.width := rfl
@[simp] theorem setMode_height (p : Pin) (m : PadMode) (s : State) : (setMode p m s).height = s.height := rfl
@[simp] theorem setMode_spi (p : Pin) (m : PadMode) (s : State) : (setMode p m s).spi = s.spi := rfl
@[simp] theorem setMode_backlightReady (p : Pin) (m : PadMode) (s : State) : (setMode p m s).backlightReady = s.backlightReady := rfl
@[simp] theorem setMode_pads (p : Pin) (m : PadMode) (s : State) : (setMode p m s).pads = s.pads.set p { s.pads.get p with mode := m } := rfl
@[simp] theorem setMode_regs (p : Pin) (m : PadMode) (s : State) : (setMode p m s).regs = s.regs := rfl
@[simp] theorem setMode_cmd (p : Pin) (m : PadMode) (s : State) : (setMode p m s).cmd = s.cmd := rfl
@[simp] theorem setMode_result (p : Pin) (m : PadMode) (s : State) : (setMode p m s).result = s.result := rfl
@[simp] theorem setMode_phase (p : Pin) (m : PadMode) (s : State) : (setMode p m s).phase = s.phase := rfl
@[simp] theorem setMode_seqPc (p : Pin) (m : PadMode) (s : State) : (setMode p m s).seqPc = s.seqPc := rfl
@[simp] theorem setMode_program (p : Pin) (m : PadMode) (s : State) : (setMode p m s).program = s.program := rfl
@[simp] theorem setMode_work (p : Pin) (m : PadMode) (s : State) : (setMode p m s).work = s.work := rfl
@[simp] theorem setMode_line (p : Pin) (m : PadMode) (s : State) : (setMode p m s).line = s.line := rfl
@[simp] theorem setMode_trace (p : Pin) (m : PadMode) (s : State) : (setMode p m s).trace = s.trace := rfl
@[simp] theorem setMode_mem (p : Pin) (m : PadMode) (s : State) : (setMode p m s).mem = s.mem := rfl
@[simp] theorem setMode_inbox (p : Pin) (m : PadMode) (s : State) : (setMode p m s).inbox = s.inbox := rfl
@[simp] theorem setMode_acq (p : Pin) (m : PadMode) (s : State) : (setMode p m s).acq = s.acq := rfl
@[simp] theorem setMode_acqQueue (p : Pin) (m : PadMode) (s : State) : (setMode p m s).acqQueue = s.acqQueue := rfl
@[simp] theorem setMode_acqDrawn (p : Pin) (m : PadMode) (s : State) : (setMode p m s).acqDrawn = s.acqDrawn := rfl
@[simp] theorem setMode_results (p : Pin) (m : PadMode) (s : State) : (setMode p m s).results = s.results := rfl
@[simp] theorem setMode_value (p : Pin) (m : PadMode) (s : State) : (setMode p m s).value = s.value := rfl
@[simp] theorem setMode_readData (p : Pin) (m : PadMode) (s : State) : (setMode p m s).readData = s.readData := rfl

/-! `post` ends the command. -/

@[simp] theorem post_variant (r : Result) (s : State) : (post r s).variant = s.variant := rfl
@[simp] theorem post_width (r : Result) (s : State) : (post r s).width = s.width := rfl
@[simp] theorem post_height (r : Result) (s : State) : (post r s).height = s.height := rfl
@[simp] theorem post_spi (r : Result) (s : State) : (post r s).spi = s.spi := rfl
@[simp] theorem post_backlightReady (r : Result) (s : State) : (post r s).backlightReady = s.backlightReady := rfl
@[simp] theorem post_pads (r : Result) (s : State) : (post r s).pads = s.pads := rfl
@[simp] theorem post_regs (r : Result) (s : State) : (post r s).regs = s.regs := rfl
@[simp] theorem post_cmd (r : Result) (s : State) : (post r s).cmd = s.cmd := rfl
@[simp] theorem post_result (r : Result) (s : State) : (post r s).result = r.word := rfl
@[simp] theorem post_phase (r : Result) (s : State) : (post r s).phase = .idle := rfl
@[simp] theorem post_seqPc (r : Result) (s : State) : (post r s).seqPc = 0 := rfl
@[simp] theorem post_program (r : Result) (s : State) : (post r s).program = [] := rfl
@[simp] theorem post_work (r : Result) (s : State) : (post r s).work = s.work := rfl
@[simp] theorem post_line (r : Result) (s : State) : (post r s).line = s.line := rfl
@[simp] theorem post_trace (r : Result) (s : State) : (post r s).trace = s.trace := rfl
@[simp] theorem post_mem (r : Result) (s : State) : (post r s).mem = s.mem := rfl
@[simp] theorem post_inbox (r : Result) (s : State) : (post r s).inbox = s.inbox := rfl
@[simp] theorem post_acq (r : Result) (s : State) : (post r s).acq = s.acq := rfl
@[simp] theorem post_acqQueue (r : Result) (s : State) : (post r s).acqQueue = s.acqQueue := rfl
@[simp] theorem post_acqDrawn (r : Result) (s : State) : (post r s).acqDrawn = s.acqDrawn := rfl
@[simp] theorem post_results (r : Result) (s : State) : (post r s).results = s.results ++ [r.word] := rfl
@[simp] theorem post_value (r : Result) (s : State) : (post r s).value = s.value := rfl
@[simp] theorem post_readData (r : Result) (s : State) : (post r s).readData = s.readData := rfl

/-! `clearDriver` clears DriverState but the session. -/

@[simp] theorem clearDriver_variant (s : State) : (clearDriver s).variant = none := rfl
@[simp] theorem clearDriver_width (s : State) : (clearDriver s).width = 0#8 := rfl
@[simp] theorem clearDriver_height (s : State) : (clearDriver s).height = 0#8 := rfl
@[simp] theorem clearDriver_spi (s : State) : (clearDriver s).spi = s.spi := rfl
@[simp] theorem clearDriver_backlightReady (s : State) : (clearDriver s).backlightReady = false := rfl
@[simp] theorem clearDriver_pads (s : State) : (clearDriver s).pads = s.pads := rfl
@[simp] theorem clearDriver_regs (s : State) : (clearDriver s).regs = s.regs := rfl
@[simp] theorem clearDriver_cmd (s : State) : (clearDriver s).cmd = s.cmd := rfl
@[simp] theorem clearDriver_result (s : State) : (clearDriver s).result = s.result := rfl
@[simp] theorem clearDriver_phase (s : State) : (clearDriver s).phase = s.phase := rfl
@[simp] theorem clearDriver_seqPc (s : State) : (clearDriver s).seqPc = s.seqPc := rfl
@[simp] theorem clearDriver_program (s : State) : (clearDriver s).program = s.program := rfl
@[simp] theorem clearDriver_work (s : State) : (clearDriver s).work = s.work := rfl
@[simp] theorem clearDriver_line (s : State) : (clearDriver s).line = s.line := rfl
@[simp] theorem clearDriver_trace (s : State) : (clearDriver s).trace = s.trace := rfl
@[simp] theorem clearDriver_mem (s : State) : (clearDriver s).mem = s.mem := rfl
@[simp] theorem clearDriver_inbox (s : State) : (clearDriver s).inbox = s.inbox := rfl
@[simp] theorem clearDriver_acq (s : State) : (clearDriver s).acq = s.acq := rfl
@[simp] theorem clearDriver_acqQueue (s : State) : (clearDriver s).acqQueue = s.acqQueue := rfl
@[simp] theorem clearDriver_acqDrawn (s : State) : (clearDriver s).acqDrawn = s.acqDrawn := rfl
@[simp] theorem clearDriver_results (s : State) : (clearDriver s).results = s.results := rfl
@[simp] theorem clearDriver_value (s : State) : (clearDriver s).value = s.value := rfl
@[simp] theorem clearDriver_readData (s : State) : (clearDriver s).readData = s.readData := rfl

/-! `setDriver` writes the variant and its dimensions. -/

@[simp] theorem setDriver_variant (v : Variant) (s : State) : (setDriver v s).variant = some v := rfl
@[simp] theorem setDriver_width (v : Variant) (s : State) : (setDriver v s).width = panelW v := rfl
@[simp] theorem setDriver_height (v : Variant) (s : State) : (setDriver v s).height = panelH v := rfl
@[simp] theorem setDriver_spi (v : Variant) (s : State) : (setDriver v s).spi = s.spi := rfl
@[simp] theorem setDriver_backlightReady (v : Variant) (s : State) : (setDriver v s).backlightReady = s.backlightReady := rfl
@[simp] theorem setDriver_pads (v : Variant) (s : State) : (setDriver v s).pads = s.pads := rfl
@[simp] theorem setDriver_regs (v : Variant) (s : State) : (setDriver v s).regs = s.regs := rfl
@[simp] theorem setDriver_cmd (v : Variant) (s : State) : (setDriver v s).cmd = s.cmd := rfl
@[simp] theorem setDriver_result (v : Variant) (s : State) : (setDriver v s).result = s.result := rfl
@[simp] theorem setDriver_phase (v : Variant) (s : State) : (setDriver v s).phase = s.phase := rfl
@[simp] theorem setDriver_seqPc (v : Variant) (s : State) : (setDriver v s).seqPc = s.seqPc := rfl
@[simp] theorem setDriver_program (v : Variant) (s : State) : (setDriver v s).program = s.program := rfl
@[simp] theorem setDriver_work (v : Variant) (s : State) : (setDriver v s).work = s.work := rfl
@[simp] theorem setDriver_line (v : Variant) (s : State) : (setDriver v s).line = s.line := rfl
@[simp] theorem setDriver_trace (v : Variant) (s : State) : (setDriver v s).trace = s.trace := rfl
@[simp] theorem setDriver_mem (v : Variant) (s : State) : (setDriver v s).mem = s.mem := rfl
@[simp] theorem setDriver_inbox (v : Variant) (s : State) : (setDriver v s).inbox = s.inbox := rfl
@[simp] theorem setDriver_acq (v : Variant) (s : State) : (setDriver v s).acq = s.acq := rfl
@[simp] theorem setDriver_acqQueue (v : Variant) (s : State) : (setDriver v s).acqQueue = s.acqQueue := rfl
@[simp] theorem setDriver_acqDrawn (v : Variant) (s : State) : (setDriver v s).acqDrawn = s.acqDrawn := rfl
@[simp] theorem setDriver_results (v : Variant) (s : State) : (setDriver v s).results = s.results := rfl
@[simp] theorem setDriver_value (v : Variant) (s : State) : (setDriver v s).value = s.value := rfl
@[simp] theorem setDriver_readData (v : Variant) (s : State) : (setDriver v s).readData = s.readData := rfl

/-! `setReady` sets the flag. -/

@[simp] theorem setReady_variant (s : State) : (setReady s).variant = s.variant := rfl
@[simp] theorem setReady_width (s : State) : (setReady s).width = s.width := rfl
@[simp] theorem setReady_height (s : State) : (setReady s).height = s.height := rfl
@[simp] theorem setReady_spi (s : State) : (setReady s).spi = s.spi := rfl
@[simp] theorem setReady_backlightReady (s : State) : (setReady s).backlightReady = true := rfl
@[simp] theorem setReady_pads (s : State) : (setReady s).pads = s.pads := rfl
@[simp] theorem setReady_regs (s : State) : (setReady s).regs = s.regs := rfl
@[simp] theorem setReady_cmd (s : State) : (setReady s).cmd = s.cmd := rfl
@[simp] theorem setReady_result (s : State) : (setReady s).result = s.result := rfl
@[simp] theorem setReady_phase (s : State) : (setReady s).phase = s.phase := rfl
@[simp] theorem setReady_seqPc (s : State) : (setReady s).seqPc = s.seqPc := rfl
@[simp] theorem setReady_program (s : State) : (setReady s).program = s.program := rfl
@[simp] theorem setReady_work (s : State) : (setReady s).work = s.work := rfl
@[simp] theorem setReady_line (s : State) : (setReady s).line = s.line := rfl
@[simp] theorem setReady_trace (s : State) : (setReady s).trace = s.trace := rfl
@[simp] theorem setReady_mem (s : State) : (setReady s).mem = s.mem := rfl
@[simp] theorem setReady_inbox (s : State) : (setReady s).inbox = s.inbox := rfl
@[simp] theorem setReady_acq (s : State) : (setReady s).acq = s.acq := rfl
@[simp] theorem setReady_acqQueue (s : State) : (setReady s).acqQueue = s.acqQueue := rfl
@[simp] theorem setReady_acqDrawn (s : State) : (setReady s).acqDrawn = s.acqDrawn := rfl
@[simp] theorem setReady_results (s : State) : (setReady s).results = s.results := rfl
@[simp] theorem setReady_value (s : State) : (setReady s).value = s.value := rfl
@[simp] theorem setReady_readData (s : State) : (setReady s).readData = s.readData := rfl

/-! `accept` moves to `EXEC(c)`. -/

@[simp] theorem accept_variant (c : Instr) (s : State) : (accept c s).variant = s.variant := rfl
@[simp] theorem accept_width (c : Instr) (s : State) : (accept c s).width = s.width := rfl
@[simp] theorem accept_height (c : Instr) (s : State) : (accept c s).height = s.height := rfl
@[simp] theorem accept_spi (c : Instr) (s : State) : (accept c s).spi = s.spi := rfl
@[simp] theorem accept_backlightReady (c : Instr) (s : State) : (accept c s).backlightReady = s.backlightReady := rfl
@[simp] theorem accept_pads (c : Instr) (s : State) : (accept c s).pads = s.pads := rfl
@[simp] theorem accept_regs (c : Instr) (s : State) : (accept c s).regs = s.regs := rfl
@[simp] theorem accept_cmd (c : Instr) (s : State) : (accept c s).cmd = s.cmd := rfl
@[simp] theorem accept_result (c : Instr) (s : State) : (accept c s).result = s.result := rfl
@[simp] theorem accept_phase (c : Instr) (s : State) : (accept c s).phase = .exec c := rfl
@[simp] theorem accept_seqPc (c : Instr) (s : State) : (accept c s).seqPc = s.seqPc := rfl
@[simp] theorem accept_program (c : Instr) (s : State) : (accept c s).program = s.program := rfl
@[simp] theorem accept_work (c : Instr) (s : State) : (accept c s).work = s.work := rfl
@[simp] theorem accept_line (c : Instr) (s : State) : (accept c s).line = s.line := rfl
@[simp] theorem accept_trace (c : Instr) (s : State) : (accept c s).trace = s.trace := rfl
@[simp] theorem accept_mem (c : Instr) (s : State) : (accept c s).mem = s.mem := rfl
@[simp] theorem accept_inbox (c : Instr) (s : State) : (accept c s).inbox = s.inbox := rfl
@[simp] theorem accept_acq (c : Instr) (s : State) : (accept c s).acq = s.acq := rfl
@[simp] theorem accept_acqQueue (c : Instr) (s : State) : (accept c s).acqQueue = s.acqQueue := rfl
@[simp] theorem accept_acqDrawn (c : Instr) (s : State) : (accept c s).acqDrawn = s.acqDrawn := rfl
@[simp] theorem accept_results (c : Instr) (s : State) : (accept c s).results = s.results := rfl
@[simp] theorem accept_value (c : Instr) (s : State) : (accept c s).value = s.value := rfl
@[simp] theorem accept_readData (c : Instr) (s : State) : (accept c s).readData = s.readData := rfl

/-! `drawAcq` takes the next draw. -/

@[simp] theorem drawAcq_variant (s : State) : (drawAcq s).variant = s.variant := rfl
@[simp] theorem drawAcq_width (s : State) : (drawAcq s).width = s.width := rfl
@[simp] theorem drawAcq_height (s : State) : (drawAcq s).height = s.height := rfl
@[simp] theorem drawAcq_spi (s : State) : (drawAcq s).spi = s.spi := rfl
@[simp] theorem drawAcq_backlightReady (s : State) : (drawAcq s).backlightReady = s.backlightReady := rfl
@[simp] theorem drawAcq_pads (s : State) : (drawAcq s).pads = s.pads := rfl
@[simp] theorem drawAcq_regs (s : State) : (drawAcq s).regs = s.regs := rfl
@[simp] theorem drawAcq_cmd (s : State) : (drawAcq s).cmd = s.cmd := rfl
@[simp] theorem drawAcq_result (s : State) : (drawAcq s).result = s.result := rfl
@[simp] theorem drawAcq_phase (s : State) : (drawAcq s).phase = s.phase := rfl
@[simp] theorem drawAcq_seqPc (s : State) : (drawAcq s).seqPc = s.seqPc := rfl
@[simp] theorem drawAcq_program (s : State) : (drawAcq s).program = s.program := rfl
@[simp] theorem drawAcq_work (s : State) : (drawAcq s).work = s.work := rfl
@[simp] theorem drawAcq_line (s : State) : (drawAcq s).line = s.line := rfl
@[simp] theorem drawAcq_trace (s : State) : (drawAcq s).trace = s.trace := rfl
@[simp] theorem drawAcq_mem (s : State) : (drawAcq s).mem = s.mem := rfl
@[simp] theorem drawAcq_inbox (s : State) : (drawAcq s).inbox = s.inbox := rfl
@[simp] theorem drawAcq_acq (s : State) : (drawAcq s).acq = s.nextAcq := rfl
@[simp] theorem drawAcq_acqQueue (s : State) : (drawAcq s).acqQueue = s.acqQueue.tail := rfl
@[simp] theorem drawAcq_acqDrawn (s : State) : (drawAcq s).acqDrawn = s.acqDrawn + 1 := rfl
@[simp] theorem drawAcq_results (s : State) : (drawAcq s).results = s.results := rfl
@[simp] theorem drawAcq_value (s : State) : (drawAcq s).value = s.value := rfl
@[simp] theorem drawAcq_readData (s : State) : (drawAcq s).readData = s.readData := rfl

/-! `geometryStep` writes the working registers. -/

@[simp] theorem geometryStep_variant (r : Rect) (w h : Nat) (s : State) : (geometryStep r w h s).variant = s.variant := rfl
@[simp] theorem geometryStep_width (r : Rect) (w h : Nat) (s : State) : (geometryStep r w h s).width = s.width := rfl
@[simp] theorem geometryStep_height (r : Rect) (w h : Nat) (s : State) : (geometryStep r w h s).height = s.height := rfl
@[simp] theorem geometryStep_spi (r : Rect) (w h : Nat) (s : State) : (geometryStep r w h s).spi = s.spi := rfl
@[simp] theorem geometryStep_backlightReady (r : Rect) (w h : Nat) (s : State) : (geometryStep r w h s).backlightReady = s.backlightReady := rfl
@[simp] theorem geometryStep_pads (r : Rect) (w h : Nat) (s : State) : (geometryStep r w h s).pads = s.pads := rfl
@[simp] theorem geometryStep_regs (r : Rect) (w h : Nat) (s : State) : (geometryStep r w h s).regs = s.regs := rfl
@[simp] theorem geometryStep_cmd (r : Rect) (w h : Nat) (s : State) : (geometryStep r w h s).cmd = s.cmd := rfl
@[simp] theorem geometryStep_result (r : Rect) (w h : Nat) (s : State) : (geometryStep r w h s).result = s.result := rfl
@[simp] theorem geometryStep_phase (r : Rect) (w h : Nat) (s : State) : (geometryStep r w h s).phase = s.phase := rfl
@[simp] theorem geometryStep_seqPc (r : Rect) (w h : Nat) (s : State) : (geometryStep r w h s).seqPc = s.seqPc := rfl
@[simp] theorem geometryStep_program (r : Rect) (w h : Nat) (s : State) : (geometryStep r w h s).program = s.program := rfl
@[simp] theorem geometryStep_work (r : Rect) (w h : Nat) (s : State) : (geometryStep r w h s).work = geometry r w h := rfl
@[simp] theorem geometryStep_line (r : Rect) (w h : Nat) (s : State) : (geometryStep r w h s).line = s.line := rfl
@[simp] theorem geometryStep_trace (r : Rect) (w h : Nat) (s : State) : (geometryStep r w h s).trace = s.trace := rfl
@[simp] theorem geometryStep_mem (r : Rect) (w h : Nat) (s : State) : (geometryStep r w h s).mem = s.mem := rfl
@[simp] theorem geometryStep_inbox (r : Rect) (w h : Nat) (s : State) : (geometryStep r w h s).inbox = s.inbox := rfl
@[simp] theorem geometryStep_acq (r : Rect) (w h : Nat) (s : State) : (geometryStep r w h s).acq = s.acq := rfl
@[simp] theorem geometryStep_acqQueue (r : Rect) (w h : Nat) (s : State) : (geometryStep r w h s).acqQueue = s.acqQueue := rfl
@[simp] theorem geometryStep_acqDrawn (r : Rect) (w h : Nat) (s : State) : (geometryStep r w h s).acqDrawn = s.acqDrawn := rfl
@[simp] theorem geometryStep_results (r : Rect) (w h : Nat) (s : State) : (geometryStep r w h s).results = s.results := rfl
@[simp] theorem geometryStep_value (r : Rect) (w h : Nat) (s : State) : (geometryStep r w h s).value = s.value := rfl
@[simp] theorem geometryStep_readData (r : Rect) (w h : Nat) (s : State) : (geometryStep r w h s).readData = s.readData := rfl

/-! `convertPixel` writes two bytes of the line buffer. -/

@[simp] theorem convertPixel_variant (j a : Nat) (s : State) : (convertPixel j a s).variant = s.variant := rfl
@[simp] theorem convertPixel_width (j a : Nat) (s : State) : (convertPixel j a s).width = s.width := rfl
@[simp] theorem convertPixel_height (j a : Nat) (s : State) : (convertPixel j a s).height = s.height := rfl
@[simp] theorem convertPixel_spi (j a : Nat) (s : State) : (convertPixel j a s).spi = s.spi := rfl
@[simp] theorem convertPixel_backlightReady (j a : Nat) (s : State) : (convertPixel j a s).backlightReady = s.backlightReady := rfl
@[simp] theorem convertPixel_pads (j a : Nat) (s : State) : (convertPixel j a s).pads = s.pads := rfl
@[simp] theorem convertPixel_regs (j a : Nat) (s : State) : (convertPixel j a s).regs = s.regs := rfl
@[simp] theorem convertPixel_cmd (j a : Nat) (s : State) : (convertPixel j a s).cmd = s.cmd := rfl
@[simp] theorem convertPixel_result (j a : Nat) (s : State) : (convertPixel j a s).result = s.result := rfl
@[simp] theorem convertPixel_phase (j a : Nat) (s : State) : (convertPixel j a s).phase = s.phase := rfl
@[simp] theorem convertPixel_seqPc (j a : Nat) (s : State) : (convertPixel j a s).seqPc = s.seqPc := rfl
@[simp] theorem convertPixel_program (j a : Nat) (s : State) : (convertPixel j a s).program = s.program := rfl
@[simp] theorem convertPixel_work (j a : Nat) (s : State) : (convertPixel j a s).work = s.work := rfl
@[simp] theorem convertPixel_line (j a : Nat) (s : State) : (convertPixel j a s).line = (s.line.set (2 * j) (hiByte (gs2rgb565 (imgRead8 s.mem a)))).set (2 * j + 1)
      (loByte (gs2rgb565 (imgRead8 s.mem a))) := rfl
@[simp] theorem convertPixel_trace (j a : Nat) (s : State) : (convertPixel j a s).trace = s.trace := rfl
@[simp] theorem convertPixel_mem (j a : Nat) (s : State) : (convertPixel j a s).mem = s.mem := rfl
@[simp] theorem convertPixel_inbox (j a : Nat) (s : State) : (convertPixel j a s).inbox = s.inbox := rfl
@[simp] theorem convertPixel_acq (j a : Nat) (s : State) : (convertPixel j a s).acq = s.acq := rfl
@[simp] theorem convertPixel_acqQueue (j a : Nat) (s : State) : (convertPixel j a s).acqQueue = s.acqQueue := rfl
@[simp] theorem convertPixel_acqDrawn (j a : Nat) (s : State) : (convertPixel j a s).acqDrawn = s.acqDrawn := rfl
@[simp] theorem convertPixel_results (j a : Nat) (s : State) : (convertPixel j a s).results = s.results := rfl
@[simp] theorem convertPixel_value (j a : Nat) (s : State) : (convertPixel j a s).value = s.value := rfl
@[simp] theorem convertPixel_readData (j a : Nat) (s : State) : (convertPixel j a s).readData = s.readData := rfl

end Sys2Proof.Machine
end

