-- ==== Sys2Proof/Laws/Frames.lean ====
section
/-! SUPPORT. Pads and frames (40_pins.md, 42_frames.md): one closed form for each frame operation, in the trace notation
of Safety.lean. -/

namespace Sys2Proof.Machine

/-! ### Pads -/

@[simp] theorem Pads.get_set_self (ps : Pads) (p : Pin) (v : Pad) : (ps.set p v).get p = v := by
  cases p <;> rfl

theorem Pads.get_set_other (ps : Pads) {p q : Pin} (v : Pad) (h : q ≠ p) : (ps.set p v).get q = ps.get q := by
  cases p <;> cases q <;> first | rfl | exact absurd rfl h

/-! ### Frames -/

theorem padsAfterFrame_idem (l l' : Level) (ps : Pads) :
    padsAfterFrame l (padsAfterFrame l' ps) = padsAfterFrame l ps := rfl

/-- A state with frames appended: the shape every frame operation leaves. -/
def framed (l : Level) (es : List Event) (s : State) : State :=
  { s with pads := padsAfterFrame l s.pads, trace := s.trace ++ es }

theorem framed_framed (l l' : Level) (es es' : List Event) (s : State) :
    framed l' es' (framed l es s) = framed l' (es ++ es') s := by
  simp [framed, padsAfterFrame]

theorem cmdFrame_eq (op : Byte) (s : State) : cmdFrame op s = framed .low (cFrame op) s := by
  simp [cmdFrame, writePin, sendByte, emit, setLatch, framed, padsAfterFrame, cFrame, Pads.get, Pads.set]

theorem dFrame_singleton (b : Byte) :
    dFrame [b] = [.pinWrite .cs .low, .pinWrite .dc .high, .spiByte b, .pinWrite .cs .high] := rfl

theorem paramFrame_eq (b : Byte) (s : State) : paramFrame b s = framed .high (dFrame [b]) s := by
  simp [paramFrame, writePin, sendByte, emit, setLatch, framed, padsAfterFrame, dFrame, Pads.get, Pads.set]

theorem dataFrame_eq (buf : List Byte) (len : Nat) (s : State) :
    dataFrame buf len s = framed .high (dFrame (buf.take len)) s := by
  simp [dataFrame, writePin, sendBytes, emit, setLatch, framed, padsAfterFrame, dFrame, Pads.get, Pads.set]

theorem zeroFrame_eq (n : Nat) (s : State) : zeroFrame n s = framed .high (zFrame n) s := by
  simp [zeroFrame, dataFrame_eq, zFrame]

/-- The level of the last frame of a command with k parameters. -/
def lastLevel (ps : List Byte) : Level := if ps = [] then .low else .high

theorem paramFrames_cons (b : Byte) (bs : List Byte) (s : State) :
    paramFrames (b :: bs) s = framed .high ((b :: bs).flatMap fun p => dFrame [p]) s := by
  induction bs generalizing b s with
  | nil => simp [paramFrames, paramFrame_eq]
  | cons c bs ih =>
    rw [paramFrames, ih c (paramFrame b s), paramFrame_eq, framed_framed]
    simp

theorem cmdWithParams_eq (op : Byte) (ps : List Byte) (s : State) :
    cmdWithParams op ps s = framed (lastLevel ps) (cdFrames op ps) s := by
  cases ps with
  | nil => simp [cmdWithParams, paramFrames, cmdFrame_eq, cdFrames, lastLevel]
  | cons b bs => simp [cmdWithParams, paramFrames_cons, cmdFrame_eq, framed_framed, cdFrames, lastLevel]

theorem cFrame_length (op : Byte) : (cFrame op).length = 4 := rfl

theorem dFrame_length (bs : List Byte) : (dFrame bs).length = bs.length + 3 := by
  simp [dFrame]

theorem cdFrames_length (op : Byte) (ps : List Byte) : (cdFrames op ps).length = 4 * (ps.length + 1) := by
  induction ps with
  | nil => rfl
  | cons b bs ih =>
    simp only [cdFrames, List.length_append, List.flatMap_cons, cFrame_length, dFrame_length,
      List.length_cons, List.length_nil] at ih ⊢
    omega

/-! ### Fields of a framed state -/

@[simp] theorem framed_trace (l : Level) (es : List Event) (s : State) :
    (framed l es s).trace = s.trace ++ es := rfl

@[simp] theorem framed_pads (l : Level) (es : List Event) (s : State) :
    (framed l es s).pads = padsAfterFrame l s.pads := rfl

@[simp] theorem framed_width (l : Level) (es : List Event) (s : State) : (framed l es s).width = s.width := rfl

@[simp] theorem framed_height (l : Level) (es : List Event) (s : State) : (framed l es s).height = s.height := rfl

@[simp] theorem framed_variant (l : Level) (es : List Event) (s : State) : (framed l es s).variant = s.variant := rfl

@[simp] theorem framed_regs (l : Level) (es : List Event) (s : State) : (framed l es s).regs = s.regs := rfl

@[simp] theorem framed_mem (l : Level) (es : List Event) (s : State) : (framed l es s).mem = s.mem := rfl

@[simp] theorem framed_line (l : Level) (es : List Event) (s : State) : (framed l es s).line = s.line := rfl

@[simp] theorem framed_spi (l : Level) (es : List Event) (s : State) : (framed l es s).spi = s.spi := rfl

@[simp] theorem framed_phase (l : Level) (es : List Event) (s : State) : (framed l es s).phase = s.phase := rfl

@[simp] theorem framed_acq (l : Level) (es : List Event) (s : State) : (framed l es s).acq = s.acq := rfl

@[simp] theorem framed_backlightReady (l : Level) (es : List Event) (s : State) :
    (framed l es s).backlightReady = s.backlightReady := rfl

end Sys2Proof.Machine
end

