-- ==== Sys2Proof/Laws/Init.lean ====
section
/-! SUPPORT. The initialisation sequence (43_init_sequence.md): the closed form of each part and of the whole, with its
failures (R149), and the teardown (46_host_commands.md R192, 60_exceptions.md R215). -/

namespace Sys2Proof.Machine

@[simp] theorem lastLevel_cons (b : Byte) (bs : List Byte) : lastLevel (b :: bs) = .high := rfl

/-- `framed` commutes with appending an event that is no frame. -/
theorem emit_framed (l : Level) (es fs : List Event) (s : State) :
    emit fs (framed l es s) = framed l (es ++ fs) s := by
  simp [emit, framed]

/-- `RST` low, the wait, `RST` high (R125). -/
def resetPulse : List Event := [.pinWrite .rst .low, .delay 120, .pinWrite .rst .high]

/-- A frame operation after RST's latch is set. -/
def rstHigh (ps : Pads) : Pads := { ps with rst := ⟨ps.rst.mode, .high⟩ }

/-- The state the reset steps and every later frame of the sequence leave. -/
def seqState (l : Level) (es : List Event) (s : State) : State :=
  { s with pads := padsAfterFrame l (rstHigh s.pads), trace := s.trace ++ es }

theorem framed_seqState (l l' : Level) (es es' : List Event) (s : State) :
    framed l' es' (seqState l es s) = seqState l' (es ++ es') s := by
  simp [framed, seqState, padsAfterFrame]

theorem emit_seqState (l : Level) (es fs : List Event) (s : State) :
    emit fs (seqState l es s) = seqState l (es ++ fs) s := by
  simp [emit, seqState]

theorem resetPulse_framed (l : Level) (es : List Event) (s : State) :
    writePin .rst .high (sleepMs tReset (writePin .rst .low (framed l es s))) = seqState l (es ++ resetPulse) s := by
  simp [writePin, sleepMs, emit, setLatch, framed, seqState, padsAfterFrame, rstHigh, resetPulse, tReset,
    Pads.get, Pads.set]

theorem madctlParam_eq (v : Variant) (bgr : Bool) : madctlParam v bgr =
    match v with
    | .shield18 => if bgr then 0xC8#8 else 0xC0#8
    | .shield096 => if bgr then 0xA8#8 else 0xA0#8 := by
  cases v <;> cases bgr <;> decide

theorem initReset_eq (s : State) : initReset s =
    seqState .low (cFrame 0x01#8 ++ resetPulse ++ cFrame 0x01#8 ++ [.delay 120] ++ cFrame 0x11#8 ++ [.delay 120]) s := by
  simp only [initReset, cmdFrame_eq]
  rw [resetPulse_framed]
  simp only [framed_seqState, sleepMs, emit_seqState, tReset, tSlpout]

theorem initFrameRate_seq (l : Level) (es : List Event) (s : State) : initFrameRate (seqState l es s) =
    seqState .high (es ++ cdFrames 0xB1#8 frmctr1Params ++ cFrame 0xB2#8 ++ cdFrames 0xB3#8 frmctr3Params ++
      cdFrames 0xB4#8 invctrParams) s := by
  simp only [initFrameRate, cmdWithParams_eq, cmdFrame_eq, framed_seqState]
  rfl

theorem initPower_seq (l : Level) (es : List Event) (s : State) : initPower (seqState l es s) =
    seqState .high (es ++ cdFrames 0xC0#8 pwctr1Params ++ cdFrames 0xC1#8 pwctr2Params ++
      cdFrames 0xC2#8 pwctr3Params ++ cdFrames 0xC3#8 pwctr4Params ++ cdFrames 0xC4#8 pwctr5Params ++
      cdFrames 0xC5#8 vmctr1Params) s := by
  simp only [initPower, cmdWithParams_eq, framed_seqState]
  rfl

theorem initVariant_seq (v : Variant) (bgr : Bool) (l : Level) (es : List Event) (s : State) :
    initVariant v bgr (seqState l es s) = seqState .high (es ++ variantTrace v bgr) s := by
  cases v <;>
    simp [initVariant, cmdWithParams_eq, cmdFrame_eq, framed_seqState, variantTrace, madctlParam_eq, colmodParams,
      choosePanel, casetInit, rasetInit]

theorem initEpilogue_seq (l : Level) (es : List Event) (s : State) :
    initEpilogue (seqState l es s) = seqState .low (es ++ epilogueTrace) s := by
  simp only [initEpilogue, cmdWithParams_eq, cmdFrame_eq, framed_seqState, sleepMs, emit_seqState, epilogueTrace,
    gammaPParams, gammaNParams, tNoron, tDispon]
  simp

/-- The body between the link and the backlight pin: one trace, CS and RST high, DC low. -/
theorem initBody_eq (v : Variant) (bgr : Bool) (s : State) :
    initBody v bgr s = seqState .low (prologueTrace ++ variantTrace v bgr ++ epilogueTrace) s := by
  simp only [initBody, initReset_eq, initFrameRate_seq, initPower_seq, initVariant_seq, initEpilogue_seq]
  congr 1

/-! ### The whole sequence -/

@[simp] theorem StepOut.done_andThen (s : State) (f : State → StepOut) : (StepOut.done s).andThen f = f s := rfl

@[simp] theorem StepOut.raised_andThen (e : ErrKind) (s : State) (f : State → StepOut) :
    (StepOut.raised e s).andThen f = .raised e s := rfl

@[simp] theorem StepOut.settle_done (k : State → State) (s : State) : (StepOut.done s).settle k = k s := rfl

@[simp] theorem StepOut.settle_raised (k : State → State) (e : ErrKind) (s : State) :
    (StepOut.raised e s).settle k = raiseError e s := rfl

/-- The draw in force depends on the phase and the draw alone. -/
theorem drawInForce_congr {s t : State} (hp : t.phase = s.phase) (ha : t.acq = s.acq) :
    t.drawInForce = s.drawInForce := by
  simp [State.drawInForce, hp, ha]

/-- `configure_output`, both ways (R90). -/
theorem configureOutput_eq (p : Pin) (d : Drive) (l : Level) (s : State) : configureOutput p d l s =
    if s.drawInForce = .gpioFail p then .raised .hardwareUnavailable s
    else .done { s with pads := s.pads.set p ⟨driveMode d, l⟩, trace := s.trace ++ [.pinCfg p d l] } := by
  unfold configureOutput
  split
  · rfl
  · cases p <;> rfl

/-- `open`, both ways (R100). -/
theorem spiOpen_eq (req : ClockReq) (s : State) : spiOpen req s =
    if s.drawInForce = .spiFail then .raised .spiUnavailable { s with trace := s.trace ++ [.spiOpen req] }
    else .done { s with spi := some req, trace := s.trace ++ [.spiOpen req] } := rfl

/-- The pads after the three configurations of R122. -/
def padsOfInit (ps : Pads) : Pads :=
  { ps with cs := ⟨.outOD, .high⟩, rst := ⟨.outPP, .high⟩, dc := ⟨.outPP, .high⟩ }

theorem clockReq_openTrace (v : Variant) : Event.spiOpen (clockReq v) = openTrace v := by cases v <;> rfl

/-- What `InitSequence` does under each draw in force (R149). -/
theorem initSequence_eq (v : Variant) (bgr : Bool) (s : State) : initSequence v bgr s =
    match s.drawInForce with
    | .ok => .done { s with
        spi := some (clockReq v), backlightReady := true,
        pads := ⟨⟨.outPP, .high⟩, ⟨.outPP, .low⟩, ⟨.outOD, .high⟩, ⟨.outOD, .low⟩⟩,
        trace := s.trace ++ initTrace v bgr }
    | .gpioFail .cs => .raised .hardwareUnavailable s
    | .gpioFail .rst => .raised .hardwareUnavailable { s with
        pads := { s.pads with cs := ⟨.outOD, .high⟩ }, trace := s.trace ++ initTraceUnder v bgr (.gpioFail .rst) }
    | .gpioFail .dc => .raised .hardwareUnavailable { s with
        pads := { s.pads with cs := ⟨.outOD, .high⟩, rst := ⟨.outPP, .high⟩ },
        trace := s.trace ++ initTraceUnder v bgr (.gpioFail .dc) }
    | .spiFail => .raised .spiUnavailable { s with
        pads := padsOfInit s.pads, trace := s.trace ++ initTraceUnder v bgr .spiFail }
    | .gpioFail .led => .raised .hardwareUnavailable { s with
        spi := some (clockReq v), pads := { padsOfInit s.pads with dc := ⟨.outPP, .low⟩ },
        trace := s.trace ++ initTraceUnder v bgr (.gpioFail .led) } := by
  have key : ∀ t : State, t.phase = s.phase → t.acq = s.acq → t.drawInForce = s.drawInForce :=
    fun t hp ha => drawInForce_congr hp ha
  unfold initSequence initPins
  rcases h : s.drawInForce with _ | _ | p
  · simp [configureOutput_eq, spiOpen_eq, h, key, initBody_eq, seqState, padsAfterFrame, rstHigh, setReady, initTrace,
      initTraceButLed, pinsTrace, clockReq_openTrace, Pads.set, driveMode]
  · simp [configureOutput_eq, spiOpen_eq, h, key, initTraceUnder, pinsTrace, clockReq_openTrace, Pads.set, driveMode,
      padsOfInit]
  · cases p <;>
      simp [configureOutput_eq, spiOpen_eq, h, key, initBody_eq, seqState, padsAfterFrame, rstHigh, initTraceUnder,
        initTraceButLed, pinsTrace, clockReq_openTrace, Pads.set, driveMode, padsOfInit]

/-! ### Teardown -/

/-- `Rollback()` in any state (R215). -/
theorem rollback_eq (s : State) : rollback s = { s with
    variant := none, width := 0#8, height := 0#8, spi := none, backlightReady := false,
    pads := ⟨⟨.hiZ, s.pads.rst.latch⟩, ⟨.hiZ, s.pads.dc.latch⟩, ⟨.hiZ, s.pads.cs.latch⟩,
      if s.backlightReady then ⟨.hiZ, s.pads.led.latch⟩ else s.pads.led⟩,
    trace := s.trace ++ [.pinRelease .rst, .pinRelease .dc, .pinRelease .cs] ++
      (if s.spi.isSome then [.spiClose] else []) ++ (if s.backlightReady then [.pinRelease .led] else []) } := by
  cases hs : s.spi <;> cases hb : s.backlightReady <;>
    simp [rollback, clearDriver, releaseLedIfReady, spiClose, releasePin, setMode, emit, Pads.get, Pads.set, hs, hb]

end Sys2Proof.Machine
end

