-- ==== Sys2Proof/Laws/Framing.lean ====
section
/-! SUPPORT. The framing laws (42_frames.md R114) and the command bytes (30_encoding.md R79) over traces: what keeps
them, and that every stream of the pump does (45_pixel_pump.md). -/

namespace Sys2Proof.Machine

theorem Link.run_append (l : Link) (es fs : List Event) :
    Link.run l (es ++ fs) = (Link.run l es).bind fun l' => Link.run l' fs := by
  induction es generalizing l with
  | nil => rfl
  | cons e es ih =>
    simp only [List.cons_append, Link.run]
    cases Link.next l e <;> simp [ih]

theorem symbols_append (dc : Level) (es fs : List Event) :
    symbols dc (es ++ fs) = symbols dc es ++ symbols (es.foldl dcAfter dc) fs := by
  induction es generalizing dc with
  | nil => rfl
  | cons e es ih => cases e <;> simp [symbols, ih, dcAfter]

/-- Events that go from between frames to between frames, with only R79's bytes as commands. -/
def WellFramed (es : List Event) : Prop :=
  Link.run .between es = some .between ∧ ∀ (dc : Level) (b : Byte), (Level.low, b) ∈ symbols dc es → b ∈ commandBytes

theorem wellFramed_nil : WellFramed [] := ⟨rfl, fun _ _ h => absurd h List.not_mem_nil⟩

theorem WellFramed.append {es fs : List Event} (h : WellFramed es) (k : WellFramed fs) : WellFramed (es ++ fs) := by
  refine ⟨by rw [Link.run_append, h.1]; exact k.1, fun dc b hb => ?_⟩
  rw [symbols_append, List.mem_append] at hb
  exact hb.elim (h.2 dc b) (k.2 _ b)

theorem wellFramed_flatMap {α : Type} {f : α → List Event} {xs : List α} (h : ∀ x ∈ xs, WellFramed (f x)) :
    WellFramed (xs.flatMap f) := by
  induction xs with
  | nil => exact wellFramed_nil
  | cons x xs ih =>
    exact (h x List.mem_cons_self).append (ih fun y hy => h y (List.mem_cons_of_mem x hy))

theorem wellFramed_cFrame {op : Byte} (h : op ∈ commandBytes) : WellFramed (cFrame op) := by
  refine ⟨rfl, fun dc b hb => ?_⟩
  simp only [cFrame, symbols, dcAfter, List.mem_cons, Prod.mk.injEq] at hb
  rcases hb with ⟨-, rfl⟩ | hb
  · exact h
  · exact absurd hb List.not_mem_nil

theorem Link.run_bytes (bs : List Byte) (n : Nat) :
    Link.run (.inFrame .high n) (bs.map .spiByte ++ [.pinWrite .cs .high]) = some .between := by
  induction bs generalizing n with
  | nil => cases n <;> rfl
  | cons b bs ih => exact ih (n + 1)

theorem symbols_bytes (bs : List Byte) (dc : Level) :
    symbols dc (bs.map .spiByte ++ [.pinWrite .cs .high]) = bs.map fun b => (dc, b) := by
  induction bs with
  | nil => rfl
  | cons b bs ih => simp [symbols, ih]

theorem symbols_dFrame (bs : List Byte) (dc : Level) : symbols dc (dFrame bs) = bs.map fun b => (Level.high, b) := by
  simp [dFrame, symbols, dcAfter, symbols_bytes]

theorem wellFramed_dFrame (bs : List Byte) : WellFramed (dFrame bs) := by
  refine ⟨?_, fun dc b hb => ?_⟩
  · have := Link.run_bytes bs 0
    simpa [dFrame, Link.run, Link.next] using this
  · rw [symbols_dFrame, List.mem_map] at hb
    obtain ⟨c, -, hc⟩ := hb
    cases hc

theorem wellFramed_cdFrames {op : Byte} (h : op ∈ commandBytes) (ps : List Byte) : WellFramed (cdFrames op ps) :=
  (wellFramed_cFrame h).append (wellFramed_flatMap fun _ _ => wellFramed_dFrame _)

/-- An event that is no byte and no write of CS or DC. -/
theorem wellFramed_single {e : Event} (h : Link.next .between e = some .between) : WellFramed [e] := by
  refine ⟨by simp [Link.run, h], fun dc b hb => ?_⟩
  cases e with
  | spiByte c => cases h
  | pinCfg _ _ _ | pinWrite _ _ | pinRelease _ | spiOpen _ | spiClose | delay _ =>
    exact absurd hb List.not_mem_nil

theorem wellFramed_plain {es : List Event} (h : ∀ e ∈ es, Link.next .between e = some .between) : WellFramed es := by
  have := wellFramed_flatMap (f := fun e => [e]) (xs := es) fun e he => wellFramed_single (h e he)
  simpa using this

theorem wellFramed_variantTrace (v : Variant) (bgr : Bool) : WellFramed (variantTrace v bgr) := by
  cases v
  · exact ((((wellFramed_cdFrames (by decide) _).append (wellFramed_cdFrames (by decide) _)).append
      (wellFramed_cFrame (by decide))).append (wellFramed_cdFrames (by decide) _)).append
      (wellFramed_cdFrames (by decide) _)
  · exact ((((wellFramed_cFrame (by decide)).append (wellFramed_cdFrames (by decide) _)).append
      (wellFramed_cdFrames (by decide) _)).append (wellFramed_cdFrames (by decide) _)).append
      (wellFramed_cdFrames (by decide) _)

theorem wellFramed_prologueTrace : WellFramed prologueTrace := by
  unfold prologueTrace
  repeat' first
    | with_reducible exact wellFramed_cFrame (by decide)
    | with_reducible exact wellFramed_cdFrames (by decide) _
    | with_reducible apply WellFramed.append
    | exact wellFramed_plain (by simp [Link.next])

theorem wellFramed_epilogueTrace : WellFramed epilogueTrace := by
  unfold epilogueTrace
  repeat' first
    | with_reducible exact wellFramed_cFrame (by decide)
    | with_reducible exact wellFramed_cdFrames (by decide) _
    | with_reducible apply WellFramed.append
    | exact wellFramed_plain (by simp [Link.next])

theorem wellFramed_pinsTrace : WellFramed pinsTrace := wellFramed_plain (by simp [pinsTrace, Link.next])

theorem wellFramed_openTrace (v : Variant) : WellFramed [openTrace v] :=
  wellFramed_plain (by cases v <;> simp [openTrace, Link.next])

theorem wellFramed_initTraceButLed (v : Variant) (bgr : Bool) : WellFramed (initTraceButLed v bgr) :=
  (((wellFramed_pinsTrace.append (wellFramed_openTrace v)).append wellFramed_prologueTrace).append
    (wellFramed_variantTrace v bgr)).append wellFramed_epilogueTrace

/-- The events of an `InitSequence` keep the framing laws wherever it stops. -/
theorem wellFramed_initTraceUnder (v : Variant) (bgr : Bool) (a : Acq) : WellFramed (initTraceUnder v bgr a) := by
  match a with
  | .ok => exact (wellFramed_initTraceButLed v bgr).append (wellFramed_plain (by simp [Link.next]))
  | .spiFail => exact wellFramed_pinsTrace.append (wellFramed_openTrace v)
  | .gpioFail .cs => exact wellFramed_nil
  | .gpioFail .rst => exact wellFramed_plain (by simp [initTraceUnder, Link.next])
  | .gpioFail .dc => exact wellFramed_plain (by simp [initTraceUnder, Link.next])
  | .gpioFail .led => exact wellFramed_initTraceButLed v bgr

theorem wellFramed_rollbackTrace (a : Acq) : WellFramed (rollbackTrace a) := by
  match a with
  | .ok => exact wellFramed_nil
  | .spiFail | .gpioFail .cs | .gpioFail .rst | .gpioFail .dc | .gpioFail .led =>
    exact wellFramed_plain (by simp [rollbackTrace, Link.next])

theorem wellFramed_teardownIfInit (s : State) : WellFramed (teardownIfInit s) := by
  unfold teardownIfInit
  split
  · exact wellFramed_nil
  · exact wellFramed_plain (by simp [teardownTrace, Link.next])

/-! ### Streams -/

/-- `t` is `s` after whole frames: the pads as one of them leaves them, the line buffer as it may be. -/
def Streams (s t : State) : Prop :=
  ∃ ps ln es, t = { s with pads := ps, line := ln, trace := s.trace ++ es } ∧
    (ps = s.pads ∨ ∃ l, ps = padsAfterFrame l s.pads) ∧ WellFramed es

theorem Streams.refl (s : State) : Streams s s := ⟨s.pads, s.line, [], by simp, .inl rfl, wellFramed_nil⟩

theorem Streams.trans {s t u : State} (h : Streams s t) (k : Streams t u) : Streams s u := by
  obtain ⟨ps, ln, es, rfl, h1, h2⟩ := h
  obtain ⟨qs, lm, fs, rfl, k1, k2⟩ := k
  refine ⟨qs, lm, es ++ fs, by simp, ?_, h2.append k2⟩
  rcases k1 with rfl | ⟨l, rfl⟩
  · exact h1
  · rcases h1 with rfl | ⟨l', rfl⟩
    · exact .inr ⟨l, rfl⟩
    · exact .inr ⟨l, rfl⟩

theorem streams_framed (l : Level) {es : List Event} (h : WellFramed es) (s : State) : Streams s (framed l es s) :=
  ⟨_, s.line, es, rfl, .inr ⟨l, rfl⟩, h⟩

theorem streams_dataFrame (buf : List Byte) (len : Nat) (s : State) : Streams s (dataFrame buf len s) :=
  dataFrame_eq buf len s ▸ streams_framed _ (wellFramed_dFrame _) s

theorem streams_cmdFrame {op : Byte} (h : op ∈ commandBytes) (s : State) : Streams s (cmdFrame op s) :=
  cmdFrame_eq op s ▸ streams_framed _ (wellFramed_cFrame h) s

theorem streams_cmdWithParams {op : Byte} (h : op ∈ commandBytes) (ps : List Byte) (s : State) :
    Streams s (cmdWithParams op ps s) :=
  cmdWithParams_eq op ps s ▸ streams_framed _ (wellFramed_cdFrames h ps) s

theorem streams_windowReset (s : State) : Streams s (windowReset s) := by
  unfold windowReset
  split
  · exact (streams_cmdWithParams (by decide) _ s).trans (streams_cmdWithParams (by decide) _ _)
  · exact .refl s

theorem streams_repeatOp {f : State → State} (hf : ∀ t, Streams t (f t)) (n : Nat) (s : State) :
    Streams s (repeatOp n f s) := by
  induction n generalizing s with
  | zero => exact .refl s
  | succ n ih => exact (hf s).trans (ih (f s))

theorem streams_forFrom {f : Nat → State → State} (hf : ∀ i t, Streams t (f i t)) (lo n : Nat) (s : State) :
    Streams s (forFrom lo n f s) := by
  induction n generalizing lo s with
  | zero => exact .refl s
  | succ n ih => exact (hf lo s).trans (ih (lo + 1) (f lo s))

theorem streams_convertPixel (j addr : Nat) (s : State) : Streams s (convertPixel j addr s) :=
  ⟨s.pads, (convertPixel j addr s).line, [], by simp [convertPixel], .inl rfl, wellFramed_nil⟩

theorem streams_padFrame (pad : Nat) (s : State) : Streams s (padFrame pad s) := by
  unfold padFrame
  split
  · exact .refl s
  · exact streams_dataFrame _ _ s

theorem streams_sendRow (fmt : Fmt) (r : Rect) (i : Nat) (s : State) : Streams s (sendRow fmt r i s) := by
  cases fmt
  · exact (streams_forFrom (fun j t => streams_convertPixel j _ t) 0 r.w s).trans (streams_dataFrame _ _ _)
  · exact streams_dataFrame _ _ s

theorem streams_pump (fmt : Fmt) (r : Rect) (lp rp tp bp : Nat) (s : State) : Streams s (pump fmt r lp rp tp bp s) :=
  ((((streams_windowReset s).trans (streams_cmdFrame (by decide) _)).trans
    (streams_repeatOp (fun t => streams_dataFrame _ _ t) _ _)).trans
    (streams_forFrom (fun i t => ((streams_padFrame lp t).trans (streams_sendRow fmt r i _)).trans
      (streams_padFrame rp _)) _ _ _)).trans (streams_repeatOp (fun t => streams_dataFrame _ _ t) _ _)

theorem streams_clearStream (s : State) : Streams s (clearStream s) :=
  ((streams_windowReset s).trans (streams_cmdFrame (by decide) _)).trans
    (streams_repeatOp (fun t => streams_dataFrame _ _ t) _ _)

end Sys2Proof.Machine
end

