-- ==== Sys2Proof/Laws/Commands.lean ====
section
/-! SUPPORT. What a host command can do (46_host_commands.md R191 to R200) from a state between commands: one lemma
over the nine commands, which every invariant cites. -/

namespace Sys2Proof.Machine

/-- A command that ended in `t`: the DriverState is one of the three, the block is idle, whole frames went out, and
the result word is one the block posts. -/
def CommandEnds (s t : State) : Prop :=
  DriverInv t ∧ Idle t ∧ LegalResult t ∧ ∃ es, t.trace = s.trace ++ es ∧ WellFramed es

theorem idle_post (r : Result) (s : State) : Idle (post r s) := ⟨rfl, rfl, rfl⟩

theorem legalResult_none (s : State) : LegalResult (post .none s) := .inl rfl

theorem legalResult_int {n : Nat} (h : n ≤ 160) (s : State) : LegalResult (post (.int n) s) := by
  refine .inr (.inl ⟨n, h, ?_⟩)
  apply BitVec.eq_of_toNat_eq
  show (1#2 ++ BitVec.ofNat 14 n : BitVec 16).toNat = _
  rw [BitVec.toNat_append, ← Nat.shiftLeft_add_eq_or_of_lt (BitVec.isLt _), Nat.shiftLeft_eq]
  simp only [BitVec.toNat_ofNat, BitVec.toNat_add]
  omega

theorem legalResult_raise (e : ErrKind) (s : State) : LegalResult (raiseError e s) := by
  cases e
  · exact .inl rfl
  · exact .inr (.inr ⟨3, by omega, by omega, rfl⟩)
  · exact .inl rfl
  · exact .inr (.inr ⟨1, by omega, by omega, rfl⟩)
  · exact .inr (.inr ⟨2, by omega, by omega, rfl⟩)
  · exact .inr (.inr ⟨4, by omega, by omega, rfl⟩)
  · exact .inr (.inr ⟨5, by omega, by omega, rfl⟩)

/-- A DriverState survives what changes neither it nor a pad. -/
theorem driverInv_congr {s t : State} (h : DriverInv s) (hv : t.variant = s.variant) (hw : t.width = s.width)
    (hh : t.height = s.height) (hs : t.spi = s.spi) (hb : t.backlightReady = s.backlightReady)
    (hp : t.pads = s.pads) : DriverInv t := by
  simp only [DriverInv, IsS0, IsInit, hv, hw, hh, hs, hb, hp] at h ⊢
  exact h

/-- A posted result alone. -/
theorem commandEnds_post {s : State} (h : DriverInv s) {r : Result} (hr : ∀ u, LegalResult (post r u)) (c : Instr) :
    CommandEnds s (post r (accept c s)) :=
  ⟨driverInv_congr h rfl rfl rfl rfl rfl rfl, idle_post r _, hr _, [], by simp [post, accept], wellFramed_nil⟩

/-- An error without recovery. -/
theorem commandEnds_raise {s : State} (h : DriverInv s) {e : ErrKind} (he : e.rollsBack = false) (c : Instr) :
    CommandEnds s (raiseError e (accept c s)) := by
  have hr := legalResult_raise e (accept c s)
  have : raiseError e (accept c s) = post e.result (accept c s) := by simp [raiseError, he]
  rw [this] at hr ⊢
  exact ⟨driverInv_congr h rfl rfl rfl rfl rfl rfl, idle_post _ _, hr, [], by simp [post, accept], wellFramed_nil⟩

/-- The session, the flag and the pads of an initialised state outlive a frame. -/
theorem isInit_streams {v : Variant} {s t : State} (h : IsInit v s) (k : Streams s t) : IsInit v t := by
  obtain ⟨ps, ln, es, rfl, hp, -⟩ := k
  rcases hp with rfl | ⟨l, rfl⟩
  · exact h
  · obtain ⟨h1, h2, h3, h4, h5, h6, h7, h8, h9⟩ := h
    refine ⟨h1, h2, h3, h4, h5, ?_, h7, h8, h9⟩
    simp [padsAfterFrame, h6]

theorem driverInv_init {v : Variant} {s : State} (h : IsInit v s) : DriverInv s := by
  cases v
  · exact .inr (.inl h)
  · exact .inr (.inr h)

/-- The two cases of the invariant. -/
theorem driverInv_cases {s : State} (h : DriverInv s) : IsS0 s ∨ ∃ v, IsInit v s := by
  rcases h with h | h | h
  · exact .inl h
  · exact .inr ⟨_, h⟩
  · exact .inr ⟨_, h⟩

/-- `Deinit()` between commands comes to `S0`. -/
theorem deinit_effect {s : State} (h : DriverInv s) :
    IsS0 (deinit s) ∧ (deinit s).trace = s.trace ++ teardownIfInit s := by
  rcases driverInv_cases h with h | ⟨v, h⟩
  · have : deinit s = s := by simp [deinit, h.1]
    rw [this]
    exact ⟨h, by simp [teardownIfInit, h.1]⟩
  · obtain ⟨h1, -, -, h4, h5, -⟩ := h
    have : deinit s = rollback s := by simp [deinit, h1]
    rw [this, rollback_eq]
    simp [IsS0, AllHiZ, h4, h5, teardownIfInit, h1, teardownTrace]

/-- The sequence of an `INIT` from `S0`, whichever way it ends. -/
theorem initSequence_ends {s : State} (v : Variant) (bgr : Bool) (h : IsS0 s) :
    let t := (initSequence v bgr s).settle fun s => post .none (setDriver v s)
    DriverInv t ∧ Idle t ∧ LegalResult t ∧ ∃ es, t.trace = s.trace ++ es ∧ WellFramed es := by
  obtain ⟨h1, h2, h3, h4, h5, h6⟩ := h
  simp only [AllHiZ] at h6
  intro t
  have ht : t = (initSequence v bgr s).settle fun s => post .none (setDriver v s) := rfl
  rw [initSequence_eq] at ht
  have fail : ∀ (ps : Pads) (sp : Option ClockReq) (a : Acq) (e : ErrKind), e.rollsBack = true → ps.led = s.pads.led →
      t = raiseError e { s with pads := ps, spi := sp, trace := s.trace ++ initTraceUnder v bgr a } →
      DriverInv t ∧ Idle t ∧ LegalResult t ∧ ∃ es, t.trace = s.trace ++ es ∧ WellFramed es := by
    intro ps sp a e he hl ht
    have hr := legalResult_raise e { s with pads := ps, spi := sp, trace := s.trace ++ initTraceUnder v bgr a }
    rw [ht]
    refine ⟨.inl ?_, ?_, hr, ?_⟩
    · simp [raiseError, he, rollback_eq, post, IsS0, AllHiZ, h5, hl, h6]
    · simp [raiseError, he, idle_post]
    · refine ⟨initTraceUnder v bgr a ++ ([.pinRelease .rst, .pinRelease .dc, .pinRelease .cs] ++
        (if sp.isSome then [.spiClose] else [])), ?_, ?_⟩
      · simp [raiseError, he, rollback_eq, post, h5]
      · refine (wellFramed_initTraceUnder v bgr a).append (wellFramed_plain ?_)
        cases sp <;> simp [Link.next]
  rcases hd : s.drawInForce with _ | _ | p
  · rw [hd] at ht
    rw [ht]
    refine ⟨driverInv_init (v := v) (by simp [IsInit, post, setDriver]), idle_post _ _, .inl rfl, initTrace v bgr, rfl,
      wellFramed_initTraceUnder v bgr .ok⟩
  · rw [hd] at ht
    exact fail (padsOfInit s.pads) s.spi .spiFail .spiUnavailable rfl rfl ht
  · rw [hd] at ht
    cases p
    · exact fail { s.pads with cs := ⟨.outOD, .high⟩ } s.spi (.gpioFail .rst) .hardwareUnavailable rfl rfl ht
    · exact fail { s.pads with cs := ⟨.outOD, .high⟩, rst := ⟨.outPP, .high⟩ } s.spi (.gpioFail .dc)
        .hardwareUnavailable rfl rfl ht
    · exact fail s.pads s.spi (.gpioFail .cs) .hardwareUnavailable rfl rfl (by simpa [initTraceUnder] using ht)
    · exact fail { padsOfInit s.pads with dc := ⟨.outPP, .low⟩ } (some (clockReq v)) (.gpioFail .led)
        .hardwareUnavailable rfl rfl ht

/-- A stream, between the acceptance of its command and its result. -/
theorem commandEnds_stream {s t : State} {v : Variant} (h : IsInit v s) (c : Instr) (r : Rect) (w hh : Nat)
    (k : Streams (geometryStep r w hh (accept c s)) t) : CommandEnds s (post .none t) := by
  have h' : IsInit v (geometryStep r w hh (accept c s)) := h
  have ht := isInit_streams h' k
  obtain ⟨ps, ln, es, rfl, -, hw⟩ := k
  exact ⟨driverInv_init (v := v) ht, idle_post _ _, .inl rfl, es, rfl, hw⟩

/-- Every host command ends, between commands again. -/
theorem command_ends {c : Instr} {s : State} (hc : c.level = .host) (h : DriverInv s) :
    ∃ t, exec c s = .next t ∧ CommandEnds s t := by
  have ha : ∀ c, DriverInv (accept c s) := fun c => driverInv_congr h rfl rfl rfl rfl rfl rfl
  cases c <;> simp only [Instr.level, reduceCtorEq] at hc
  case init typ bgr =>
    refine ⟨_, rfl, ?_⟩
    unfold initCommand
    split
    · exact commandEnds_raise h rfl _
    · obtain ⟨h0, htr⟩ := deinit_effect (ha (.init typ bgr))
      have htd : teardownIfInit (accept (.init typ bgr) s) = teardownIfInit s := rfl
      split
      · refine ⟨.inl h0, idle_post _ _, .inl rfl, teardownIfInit s, ?_, wellFramed_teardownIfInit s⟩
        exact htr
      · next v hv =>
        have h0' : IsS0 (drawAcq (deinit (accept (.init typ bgr) s))) := h0
        obtain ⟨e1, e2, e3, es, e4, e5⟩ := initSequence_ends v (bgrOf v bgr) h0'
        refine ⟨e1, e2, e3, teardownIfInit s ++ es, ?_, (wellFramed_teardownIfInit s).append e5⟩
        rw [e4, ← List.append_assoc, ← htd]
        congr 1
  case deinit =>
    obtain ⟨h0, htr⟩ := deinit_effect (ha .deinit)
    exact ⟨_, rfl, .inl h0, idle_post _ _, .inl rfl, teardownIfInit s, htr, wellFramed_teardownIfInit s⟩
  case width =>
    refine ⟨_, rfl, commandEnds_post h (fun u => ?_) _⟩
    unfold queryResult
    rcases driverInv_cases h with h | ⟨v, h⟩
    · rw [h.1]; exact legalResult_none u
    · rw [h.1]; exact legalResult_int (by rw [h.2.1]; cases v <;> decide) u
  case height =>
    refine ⟨_, rfl, commandEnds_post h (fun u => ?_) _⟩
    unfold queryResult
    rcases driverInv_cases h with h | ⟨v, h⟩
    · rw [h.1]; exact legalResult_none u
    · rw [h.1]; exact legalResult_int (by rw [h.2.2.1]; cases v <;> decide) u
  case type =>
    refine ⟨_, rfl, commandEnds_post h (fun u => ?_) _⟩
    unfold queryResult
    rcases driverInv_cases h with h | ⟨v, h⟩
    · rw [h.1]; exact legalResult_none u
    · rw [h.1]; exact legalResult_int (by cases v <;> decide) u
  case setBacklight st =>
    rcases driverInv_cases h with h' | ⟨v, h'⟩
    · simp only [exec, execSetBacklight, accept_variant, h'.1]
      exact ⟨_, rfl, commandEnds_raise h rfl _⟩
    · obtain ⟨h1, h2, h3, h4, h5, h6, h7, h8, h9⟩ := h'
      simp only [exec, execSetBacklight, accept_variant, h1, setBacklightStep, accept_backlightReady, h5, if_true,
        StepOut.done_andThen, StepOut.settle_done]
      refine ⟨_, rfl, driverInv_init (v := v) ⟨h1, h2, h3, h4, h5, h6, h7, h8, h9⟩, idle_post _ _, .inl rfl, _, rfl, ?_⟩
      exact wellFramed_plain (by simp [Link.next])
  case getBacklight =>
    refine ⟨_, rfl, commandEnds_post h (fun u => ?_) _⟩
    unfold backlightResult
    split
    · exact legalResult_int (by cases readPin .led s <;> decide) u
    · exact legalResult_none u
  case display roi =>
    simp only [exec, execDisplay, accept_variant]
    rcases driverInv_cases h with h' | ⟨v, h'⟩
    · rw [h'.1]
      exact ⟨_, rfl, commandEnds_raise h rfl _⟩
    · rw [h'.1]
      dsimp only
      split
      · exact ⟨_, rfl, commandEnds_raise h rfl _⟩
      · split
        · refine ⟨_, by rw [requireSession, accept_spi, h'.2.2.2.1], ?_⟩
          exact commandEnds_stream h' _ _ _ _ (streams_pump _ _ _ _ _ _ _)
        · exact ⟨_, rfl, commandEnds_raise h rfl _⟩
  case clear =>
    simp only [exec, execClear, accept_variant]
    rcases driverInv_cases h with h' | ⟨v, h'⟩
    · rw [h'.1]
      exact ⟨_, rfl, commandEnds_raise h rfl _⟩
    · rw [h'.1]
      refine ⟨_, by rw [requireSession, accept_spi, h'.2.2.2.1], ?_⟩
      exact commandEnds_stream h' _ _ _ _ (streams_clearStream _)

end Sys2Proof.Machine
end

