-- ==== Sys2Proof/Laws/Extends.lean ====
section
/-! SUPPORT. What every operation of the block leaves alone (20_memory.md R50, 10_state.md R31, R33): operand
registers, image memory, the host's moves, the size of the line buffer; and the wire history and the list of result
words only grow, `RESULT` being the last word posted. One lemma per shared operation, then one for `exec`. -/

namespace Sys2Proof.Machine

/-- `t` is `s` after operations of the block. -/
def Extends (s t : State) : Prop :=
  t.regs = s.regs ∧ t.mem = s.mem ∧ t.inbox = s.inbox ∧ t.cmd = s.cmd ∧ t.readData = s.readData ∧
    t.line.length = s.line.length ∧ (∃ ws, t.results = s.results ++ ws ∧ t.result = ws.getLastD s.result) ∧
    ∃ es, t.trace = s.trace ++ es

/-- An operation that posts nothing. -/
theorem postsNothing {s t : State} (h : t.results = s.results) (k : t.result = s.result) :
    ∃ ws, t.results = s.results ++ ws ∧ t.result = ws.getLastD s.result := ⟨[], by simpa using h, k⟩

theorem Extends.refl (s : State) : Extends s s := ⟨rfl, rfl, rfl, rfl, rfl, rfl, postsNothing rfl rfl, [], by simp⟩

theorem Extends.trans {s t u : State} (h : Extends s t) (k : Extends t u) : Extends s u := by
  obtain ⟨h1, h2, h3, h4, h5, h6, ⟨ws, h7, h8⟩, es, h9⟩ := h
  obtain ⟨k1, k2, k3, k4, k5, k6, ⟨vs, k7, k8⟩, fs, k9⟩ := k
  refine ⟨k1.trans h1, k2.trans h2, k3.trans h3, k4.trans h4, k5.trans h5, k6.trans h6, ⟨ws ++ vs, ?_, ?_⟩, es ++ fs, ?_⟩
  · rw [k7, h7, List.append_assoc]
  · rw [k8, h8]
    rcases List.eq_nil_or_concat vs with rfl | ⟨xs, x, rfl⟩
    · simp
    · rw [List.concat_eq_append, ← List.append_assoc, List.getLastD_concat, List.getLastD_concat]
  · rw [k9, h9, List.append_assoc]

/-- The tail of a chain of operations. -/
theorem Extends.next {s t : State} (f : State → State) (hf : ∀ u, Extends u (f u)) (h : Extends s t) :
    Extends s (f t) := h.trans (hf t)

theorem extends_emit (es : List Event) (s : State) : Extends s (emit es s) :=
  ⟨rfl, rfl, rfl, rfl, rfl, rfl, postsNothing rfl rfl, es, rfl⟩

theorem extends_framed (l : Level) (es : List Event) (s : State) : Extends s (framed l es s) :=
  ⟨rfl, rfl, rfl, rfl, rfl, rfl, postsNothing rfl rfl, es, rfl⟩

theorem extends_writePin (p : Pin) (l : Level) (s : State) : Extends s (writePin p l s) :=
  ⟨rfl, rfl, rfl, rfl, rfl, rfl, postsNothing rfl rfl, _, rfl⟩

theorem extends_releasePin (p : Pin) (s : State) : Extends s (releasePin p s) :=
  ⟨rfl, rfl, rfl, rfl, rfl, rfl, postsNothing rfl rfl, _, rfl⟩

theorem extends_spiClose (s : State) : Extends s (spiClose s) := by
  unfold spiClose
  split
  · exact ⟨rfl, rfl, rfl, rfl, rfl, rfl, postsNothing rfl rfl, _, rfl⟩
  · exact .refl s

theorem extends_cmdFrame (op : Byte) (s : State) : Extends s (cmdFrame op s) :=
  cmdFrame_eq op s ▸ extends_framed _ _ s

theorem extends_paramFrame (b : Byte) (s : State) : Extends s (paramFrame b s) :=
  paramFrame_eq b s ▸ extends_framed _ _ s

theorem extends_cmdWithParams (op : Byte) (ps : List Byte) (s : State) : Extends s (cmdWithParams op ps s) :=
  cmdWithParams_eq op ps s ▸ extends_framed _ _ s

theorem extends_dataFrame (buf : List Byte) (len : Nat) (s : State) : Extends s (dataFrame buf len s) :=
  dataFrame_eq buf len s ▸ extends_framed _ _ s

theorem extends_zeroFrame (n : Nat) (s : State) : Extends s (zeroFrame n s) := extends_dataFrame _ _ s

theorem extends_post (r : Result) (s : State) : Extends s (post r s) :=
  ⟨rfl, rfl, rfl, rfl, rfl, rfl, ⟨[r.word], rfl, rfl⟩, [], by simp⟩

theorem extends_accept (c : Instr) (s : State) : Extends s (accept c s) :=
  ⟨rfl, rfl, rfl, rfl, rfl, rfl, postsNothing rfl rfl, [], by simp [accept]⟩

theorem extends_geometryStep (r : Rect) (w h : Nat) (s : State) : Extends s (geometryStep r w h s) :=
  ⟨rfl, rfl, rfl, rfl, rfl, rfl, postsNothing rfl rfl, [], by simp [geometryStep]⟩

theorem extends_setDriver (v : Variant) (s : State) : Extends s (setDriver v s) :=
  ⟨rfl, rfl, rfl, rfl, rfl, rfl, postsNothing rfl rfl, [], by simp [setDriver]⟩

theorem extends_setReady (s : State) : Extends s (setReady s) :=
  ⟨rfl, rfl, rfl, rfl, rfl, rfl, postsNothing rfl rfl, [], by simp [setReady]⟩

theorem extends_clearDriver (s : State) : Extends s (clearDriver s) :=
  ⟨rfl, rfl, rfl, rfl, rfl, rfl, postsNothing rfl rfl, [], by simp [clearDriver]⟩

theorem extends_drawAcq (s : State) : Extends s (drawAcq s) :=
  ⟨rfl, rfl, rfl, rfl, rfl, rfl, postsNothing rfl rfl, [], by simp [drawAcq]⟩

theorem extends_rollback (s : State) : Extends s (rollback s) := by
  rw [rollback_eq]
  exact ⟨rfl, rfl, rfl, rfl, rfl, rfl, postsNothing rfl rfl, [.pinRelease .rst, .pinRelease .dc, .pinRelease .cs] ++
    (if s.spi.isSome then [.spiClose] else []) ++ (if s.backlightReady then [.pinRelease .led] else []), by simp⟩

theorem extends_deinit (s : State) : Extends s (deinit s) := by
  unfold deinit
  split
  · exact .refl s
  · exact extends_rollback s

theorem extends_raiseError (e : ErrKind) (s : State) : Extends s (raiseError e s) := by
  unfold raiseError
  split
  · exact (extends_rollback s).trans (extends_post _ _)
  · exact extends_post _ s

theorem extends_enterError (e : ErrKind) (s : State) : Extends s (enterError e s) := by
  unfold enterError
  split
  · exact ⟨rfl, rfl, rfl, rfl, rfl, rfl, postsNothing rfl rfl, [], by simp⟩
  · exact extends_raiseError e s

/-- The state a step that can fail leaves, either way. -/
def StepOut.state : StepOut → State
  | .done s => s
  | .raised _ s => s

theorem extends_settle {s : State} {r : StepOut} (k : State → State) (h : Extends s r.state)
    (hk : ∀ t, Extends t (k t)) : Extends s (r.settle k) := by
  cases r with
  | done t => exact h.trans (hk t)
  | raised e t => exact h.trans (extends_raiseError e t)

theorem extends_entered {s : State} {r : StepOut} (h : Extends s r.state) : Extends s r.entered := by
  cases r with
  | done t => exact h
  | raised e t => exact h.trans (extends_enterError e t)

theorem extends_andThen {s : State} {r : StepOut} {f : State → StepOut} (h : Extends s r.state)
    (hf : ∀ t, Extends t (f t).state) : Extends s (r.andThen f).state := by
  cases r with
  | done t => exact h.trans (hf t)
  | raised e t => exact h

theorem extends_configureOutput (p : Pin) (d : Drive) (l : Level) (s : State) :
    Extends s (configureOutput p d l s).state := by
  rw [configureOutput_eq]
  split
  · exact .refl s
  · exact ⟨rfl, rfl, rfl, rfl, rfl, rfl, postsNothing rfl rfl, _, rfl⟩

theorem extends_spiOpen (req : ClockReq) (s : State) : Extends s (spiOpen req s).state := by
  rw [spiOpen_eq]
  split <;> exact ⟨rfl, rfl, rfl, rfl, rfl, rfl, postsNothing rfl rfl, _, rfl⟩

theorem extends_initBody (v : Variant) (bgr : Bool) (s : State) : Extends s (initBody v bgr s) :=
  initBody_eq v bgr s ▸ ⟨rfl, rfl, rfl, rfl, rfl, rfl, postsNothing rfl rfl, _, rfl⟩

theorem extends_initSequence (v : Variant) (bgr : Bool) (s : State) : Extends s (initSequence v bgr s).state :=
  extends_andThen
    (extends_andThen
      (extends_andThen
        (extends_andThen
          (extends_andThen (extends_configureOutput _ _ _ s) fun t => extends_configureOutput _ _ _ t)
          fun t => extends_configureOutput _ _ _ t)
        fun t => extends_spiOpen _ t)
      fun t => (extends_initBody v bgr t).trans (extends_configureOutput _ _ _ _))
    fun t => extends_setReady t

theorem extends_windowReset (s : State) : Extends s (windowReset s) := by
  unfold windowReset
  split
  · exact (extends_cmdWithParams _ _ s).trans (extends_cmdWithParams _ _ _)
  · exact .refl s

theorem extends_repeatOp {f : State → State} (hf : ∀ t, Extends t (f t)) (n : Nat) (s : State) :
    Extends s (repeatOp n f s) := by
  induction n generalizing s with
  | zero => exact .refl s
  | succ n ih => exact (hf s).trans (ih (f s))

theorem extends_forFrom {f : Nat → State → State} (hf : ∀ i t, Extends t (f i t)) (lo n : Nat) (s : State) :
    Extends s (forFrom lo n f s) := by
  induction n generalizing lo s with
  | zero => exact .refl s
  | succ n ih => exact (hf lo s).trans (ih (lo + 1) (f lo s))

theorem extends_convertPixel (j addr : Nat) (s : State) : Extends s (convertPixel j addr s) :=
  ⟨rfl, rfl, rfl, rfl, rfl, by simp [convertPixel], postsNothing rfl rfl, [], by simp [convertPixel]⟩

theorem extends_padFrame (pad : Nat) (s : State) : Extends s (padFrame pad s) := by
  unfold padFrame
  split
  · exact .refl s
  · exact extends_zeroFrame _ s

theorem extends_sendRow (fmt : Fmt) (r : Rect) (i : Nat) (s : State) : Extends s (sendRow fmt r i s) := by
  cases fmt
  · exact (extends_forFrom (fun j t => extends_convertPixel j _ t) 0 r.w s).trans (extends_dataFrame _ _ _)
  · exact extends_dataFrame _ _ s

theorem extends_pumpRow (fmt : Fmt) (r : Rect) (lp rp i : Nat) (s : State) : Extends s (pumpRow fmt r lp rp i s) :=
  ((extends_padFrame lp s).trans (extends_sendRow fmt r i _)).trans (extends_padFrame rp _)

theorem extends_zeroRow (s : State) : Extends s (zeroRow s) := extends_zeroFrame _ s

theorem extends_pump (fmt : Fmt) (r : Rect) (lp rp tp bp : Nat) (s : State) :
    Extends s (pump fmt r lp rp tp bp s) :=
  ((((extends_windowReset s).trans (extends_cmdFrame _ _)).trans (extends_repeatOp extends_zeroRow _ _)).trans
    (extends_forFrom (fun i t => extends_pumpRow fmt r lp rp i t) _ _ _)).trans (extends_repeatOp extends_zeroRow _ _)

theorem extends_clearStream (s : State) : Extends s (clearStream s) :=
  ((extends_windowReset s).trans (extends_cmdFrame _ _)).trans (extends_repeatOp extends_zeroRow _ _)

/-- A sending operation gives a next state only while a session is open. -/
theorem requireSession_next {s t : State} {k : Host.Outcome State Fault Refusal}
    (h : requireSession s k = .next t) : s.spi ≠ none ∧ k = .next t := by
  unfold requireSession at h
  split at h
  · cases h
  · next r hr => exact ⟨by rw [hr]; exact Option.some_ne_none r, h⟩

theorem extends_requireSession {s t u : State} (hu : Extends s u)
    (h : requireSession s (.next u) = .next t) : Extends s t := by
  have := (requireSession_next h).2
  cases this
  exact hu

/-- What no instruction does: write operand registers or image memory, take a host's move, forget an event. -/
theorem exec_extends (i : Instr) (s t : State) (h : exec i s = .next t) : Extends s t := by
  cases i
  case init typ bgr =>
    cases h
    refine (extends_accept (.init typ bgr) s).trans ?_
    unfold initCommand
    split
    · exact extends_raiseError _ _
    · split
      · exact (extends_deinit _).trans (extends_post _ _)
      · exact ((extends_deinit _).trans (extends_drawAcq _)).trans
          (extends_settle _ (extends_initSequence _ _ _) fun u => (extends_setDriver _ u).trans (extends_post _ _))
  case deinit => cases h; exact ((extends_accept _ s).trans (extends_deinit _)).trans (extends_post _ _)
  case width => cases h; exact (extends_accept _ s).trans (extends_post _ _)
  case height => cases h; exact (extends_accept _ s).trans (extends_post _ _)
  case type => cases h; exact (extends_accept _ s).trans (extends_post _ _)
  case setBacklight st =>
    simp only [exec, execSetBacklight] at h
    split at h <;> cases h
    · exact (extends_accept _ s).trans (extends_raiseError _ _)
    · refine (extends_accept (.setBacklight st) s).trans (extends_settle _ ?_ (extends_post _))
      unfold setBacklightStep
      refine extends_andThen ?_ fun u => extends_writePin _ _ u
      split
      · exact .refl _
      · exact extends_andThen (extends_configureOutput _ _ _ _) fun u => extends_setReady u
  case getBacklight => cases h; exact (extends_accept _ s).trans (extends_post _ _)
  case display roi =>
    simp only [exec, execDisplay] at h
    refine (extends_accept (.display roi) s).trans ?_
    split at h
    · cases h; exact extends_raiseError _ _
    · split at h
      · cases h; exact extends_raiseError _ _
      · split at h
        · exact extends_requireSession
            (((extends_geometryStep _ _ _ _).trans (extends_pump _ _ _ _ _ _ _)).trans (extends_post _ _)) h
        · cases h; exact extends_raiseError _ _
  case clear =>
    simp only [exec, execClear] at h
    refine (extends_accept .clear s).trans ?_
    split at h
    · cases h; exact extends_raiseError _ _
    · exact extends_requireSession
        (((extends_geometryStep _ _ _ _).trans (extends_clearStream _)).trans (extends_post _ _)) h
  case configureOutput p d l => cases h; exact extends_entered (extends_configureOutput p d l s)
  case write p l => cases h; exact extends_writePin p l s
  case read p => cases h; exact ⟨rfl, rfl, rfl, rfl, rfl, rfl, postsNothing rfl rfl, [], by simp⟩
  case release p => cases h; exact extends_releasePin p s
  case spiOpen req => cases h; exact extends_entered (extends_spiOpen req s)
  case sendByte b => exact extends_requireSession (extends_emit _ s) h
  case sendBytes buf len => exact extends_requireSession (extends_emit _ s) h
  case spiClose => cases h; exact extends_spiClose s
  case cmd op => exact extends_requireSession (extends_cmdFrame op s) h
  case param b => exact extends_requireSession (extends_paramFrame b s) h
  case cmdWithParams op ps => exact extends_requireSession (extends_cmdWithParams op ps s) h
  case data buf len => exact extends_requireSession (extends_dataFrame buf len s) h
  case sleep ms => cases h; exact extends_emit _ s
  case initSequence v bgr => cases h; exact extends_settle _ (extends_initSequence v bgr s) fun u => .refl u
  case geometry r w hh => cases h; exact extends_geometryStep r w hh s
  case gs2rgb565 p => cases h; exact ⟨rfl, rfl, rfl, rfl, rfl, rfl, postsNothing rfl rfl, [], by simp⟩
  case pump fmt r lp rp tp bp => exact extends_requireSession (extends_pump fmt r lp rp tp bp s) h
  case clearStream => exact extends_requireSession (extends_clearStream s) h
  case rollback => cases h; exact extends_rollback s
  case dataOrParameterByte b => exact extends_requireSession (extends_paramFrame b s) h
  all_goals exact extends_requireSession (extends_cmdFrame _ s) h

end Sys2Proof.Machine
end

