-- ==== Sys2Proof/Laws/Memory.lean ====
section
/-! SUPPORT. Image memory (20_memory.md R50): a write is read back, leaves every other byte alone and keeps the
canonical form, and a canonical memory is determined by what it reads as. -/

namespace Sys2Proof.Machine

/-- A memory in canonical form from `lo` on has every listed address at least `lo`, so reads as unlisted below. -/
theorem Memory.lookup_below {lo : Nat} {m : Memory} (h : wfFrom lo m = true) {a : Nat} (ha : a < lo) :
    m.lookup a = unlisted := by
  induction m generalizing lo with
  | nil => rfl
  | cons c m ih =>
    simp only [wfFrom, Bool.and_eq_true, decide_eq_true_eq] at h
    obtain ⟨⟨⟨hlo, -⟩, -⟩, hm⟩ := h
    have hne : c.1 ≠ a := by omega
    simp only [lookup, if_neg hne]
    exact ih hm (by omega)

theorem Memory.wfFrom_mono {lo lo' : Nat} {m : Memory} (h : wfFrom lo' m = true) (hl : lo ≤ lo') :
    wfFrom lo m = true := by
  cases m with
  | nil => rfl
  | cons c m =>
    simp only [wfFrom, Bool.and_eq_true, decide_eq_true_eq] at h ⊢
    exact ⟨⟨⟨by omega, h.1.1.2⟩, h.1.2⟩, h.2⟩

theorem Memory.wfFrom_consCell {lo a : Nat} {b : Byte} {m : Memory} (ha : lo ≤ a) (hb : a < 2 ^ 32)
    (h : wfFrom (a + 1) m = true) : wfFrom lo (consCell a b m) = true := by
  unfold consCell
  split
  · exact wfFrom_mono h (by omega)
  · next hne =>
    simp only [wfFrom, Bool.and_eq_true, decide_eq_true_eq, bne_iff_ne]
    exact ⟨⟨⟨ha, hb⟩, hne⟩, h⟩

/-- Every write below 2^32 keeps the canonical form. -/
theorem Memory.wfFrom_write {lo a : Nat} {b : Byte} {m : Memory} (ha : lo ≤ a) (hb : a < 2 ^ 32)
    (h : wfFrom lo m = true) : wfFrom lo (write m a b) = true := by
  induction m generalizing lo with
  | nil => exact wfFrom_consCell ha hb rfl
  | cons c m ih =>
    have hc := h
    simp only [wfFrom, Bool.and_eq_true, decide_eq_true_eq] at h
    obtain ⟨⟨⟨hlo, hlt⟩, hne⟩, hm⟩ := h
    unfold write
    split
    · next hac =>
      refine wfFrom_consCell ha hb ?_
      simp only [wfFrom, Bool.and_eq_true, decide_eq_true_eq]
      exact ⟨⟨⟨by omega, hlt⟩, hne⟩, hm⟩
    · split
      · next hac heq => exact wfFrom_consCell ha hb (heq ▸ hm)
      · next hac hneq =>
        simp only [wfFrom, Bool.and_eq_true, decide_eq_true_eq]
        exact ⟨⟨⟨hlo, hlt⟩, hne⟩, ih (by omega) hm⟩

theorem Memory.wf_write {m : Memory} (h : m.wf = true) {a : Nat} (ha : a < 2 ^ 32) (b : Byte) :
    (write m a b).wf = true :=
  wfFrom_write (Nat.zero_le a) ha h

theorem Memory.lookup_consCell_self {lo a : Nat} {b : Byte} {m : Memory} (h : wfFrom lo m = true) (ha : a < lo) :
    (consCell a b m).lookup a = b := by
  unfold consCell
  split
  · next hb => rw [lookup_below h ha, hb]
  · simp [lookup]

theorem Memory.lookup_consCell_other {a b : Nat} {v : Byte} {m : Memory} (h : b ≠ a) :
    (consCell a v m).lookup b = m.lookup b := by
  unfold consCell
  split
  · rfl
  · simp [lookup, Ne.symm h]

theorem Memory.lookup_write {lo a b : Nat} {v : Byte} {m : Memory} (h : wfFrom lo m = true) :
    (write m a v).lookup b = if b = a then v else m.lookup b := by
  induction m generalizing lo with
  | nil =>
    by_cases hb : b = a
    · subst hb; simpa [write] using lookup_consCell_self (lo := b + 1) (m := []) rfl (by omega)
    · simp [write, lookup_consCell_other hb, hb]
  | cons c m ih =>
    have hc := h
    simp only [wfFrom, Bool.and_eq_true, decide_eq_true_eq] at h
    obtain ⟨⟨⟨hlo, hlt⟩, hne⟩, hm⟩ := h
    unfold write
    by_cases hb : b = a
    · subst hb
      simp only [if_true]
      split
      · next hac =>
        refine lookup_consCell_self (lo := c.1) ?_ hac
        simp only [wfFrom, Bool.and_eq_true, decide_eq_true_eq]
        exact ⟨⟨⟨Nat.le_refl _, hlt⟩, hne⟩, hm⟩
      · split
        · next heq => exact lookup_consCell_self (lo := c.1 + 1) hm (by omega)
        · next hneq =>
          simp only [lookup, if_neg hneq]
          simpa using ih hm
    · simp only [if_neg hb]
      split
      · rw [lookup_consCell_other hb]
      · split
        · next heq =>
          rw [lookup_consCell_other hb]
          simp [lookup, heq, Ne.symm hb]
        · simp only [lookup]
          split
          · rfl
          · simpa [hb] using ih hm

/-- Equal canonical memories are equal lists. -/
theorem Memory.eq_of_lookup {lo lo' : Nat} {m k : Memory} (hm : wfFrom lo m = true) (hk : wfFrom lo' k = true)
    (h : ∀ a, m.lookup a = k.lookup a) : m = k := by
  induction m generalizing k lo lo' with
  | nil =>
    cases k with
    | nil => rfl
    | cons d k =>
      simp only [wfFrom, Bool.and_eq_true, decide_eq_true_eq, bne_iff_ne] at hk
      have := h d.1
      simp only [lookup, if_true] at this
      exact absurd this.symm hk.1.2
  | cons c m ih =>
    simp only [wfFrom, Bool.and_eq_true, decide_eq_true_eq, bne_iff_ne] at hm
    cases k with
    | nil =>
      have := h c.1
      simp only [lookup, if_true] at this
      exact absurd this hm.1.2
    | cons d k =>
      simp only [wfFrom, Bool.and_eq_true, decide_eq_true_eq, bne_iff_ne] at hk
      have hcd : c.1 = d.1 := by
        rcases Nat.lt_trichotomy c.1 d.1 with hlt | heq | hgt
        · have := h c.1
          simp only [lookup, if_true, if_neg (by omega : d.1 ≠ c.1)] at this
          rw [lookup_below hk.2 (by omega)] at this
          exact absurd this hm.1.2
        · exact heq
        · have := h d.1
          simp only [lookup, if_true, if_neg (by omega : c.1 ≠ d.1)] at this
          rw [lookup_below hm.2 (by omega)] at this
          exact absurd this.symm hk.1.2
      have hv : c.2 = d.2 := by
        have := h c.1
        simpa [lookup, hcd] using this
      have hcd' : c = d := Prod.ext hcd hv
      subst hcd'
      congr 1
      refine ih hm.2 hk.2 fun a => ?_
      by_cases ha : c.1 = a
      · subst ha
        rw [lookup_below hm.2 (by omega), lookup_below hk.2 (by omega)]
      · have := h a
        simpa [lookup, ha] using this

@[simp] theorem Memory.wf_nil : Memory.wf [] = true := rfl

end Sys2Proof.Machine
end

