-- ==== Sys2Proof/Laws/PerInstr.lean ====
section
/-! SUPPORT. Per instruction: the word an instruction encodes to fits its row of spec/opcode_table.json (30_encoding.md
R71, R77, R79), and a level S step has no word. -/

namespace Sys2Proof.Laws.FitsRow

open Sys2Proof

/-- A word of either format in 16 bits. -/
def bits : CodeWord → BitVec 16
  | .host cw => cw
  | .wire sym => sym.setWidth 16

/-- The mask and match columns of an instruction's row; `none` for a row without bits (format STEP). -/
def row : Instr → Option (BitVec 16 × BitVec 16)
  | .init _ _ => some (0xF800#16, 0x1000#16)
  | .deinit => some (0xFFFF#16, 0x2000#16)
  | .width => some (0xFFFF#16, 0x3000#16)
  | .height => some (0xFFFF#16, 0x4000#16)
  | .type => some (0xFFFF#16, 0x5000#16)
  | .setBacklight _ => some (0xF000#16, 0x6000#16)
  | .getBacklight => some (0xFFFF#16, 0x7000#16)
  | .display _ => some (0xFFFE#16, 0x8000#16)
  | .clear => some (0xFFFF#16, 0x9000#16)
  | .swreset => some (0x01FF#16, 0x0001#16)
  | .slpout => some (0x01FF#16, 0x0011#16)
  | .noron => some (0x01FF#16, 0x0013#16)
  | .invoff => some (0x01FF#16, 0x0020#16)
  | .invon => some (0x01FF#16, 0x0021#16)
  | .dispon => some (0x01FF#16, 0x0029#16)
  | .caset => some (0x01FF#16, 0x002A#16)
  | .raset => some (0x01FF#16, 0x002B#16)
  | .ramwr => some (0x01FF#16, 0x002C#16)
  | .madctl => some (0x01FF#16, 0x0036#16)
  | .colmod => some (0x01FF#16, 0x003A#16)
  | .frmctr1 => some (0x01FF#16, 0x00B1#16)
  | .frmctr2 => some (0x01FF#16, 0x00B2#16)
  | .frmctr3 => some (0x01FF#16, 0x00B3#16)
  | .invctr => some (0x01FF#16, 0x00B4#16)
  | .pwctr1 => some (0x01FF#16, 0x00C0#16)
  | .pwctr2 => some (0x01FF#16, 0x00C1#16)
  | .pwctr3 => some (0x01FF#16, 0x00C2#16)
  | .pwctr4 => some (0x01FF#16, 0x00C3#16)
  | .pwctr5 => some (0x01FF#16, 0x00C4#16)
  | .vmctr1 => some (0x01FF#16, 0x00C5#16)
  | .gmctrp => some (0x01FF#16, 0x00E0#16)
  | .gmctrn => some (0x01FF#16, 0x00E1#16)
  | .dataOrParameterByte _ => some (0x0100#16, 0x0100#16)
  | .configureOutput _ _ _ | .write _ _ | .read _ | .release _ | .spiOpen _ | .sendByte _ | .sendBytes _ _ |
  .spiClose | .cmd _ | .param _ | .cmdWithParams _ _ | .data _ _ | .sleep _ | .initSequence _ _ |
  .geometry _ _ _ | .gs2rgb565 _ | .pump _ _ _ _ _ _ | .clearStream | .rollback => none

/-- The word has the row's fixed bits; without a row there is no word. -/
def Statement (i : Instr) : Prop :=
  match encode i, row i with
  | some w, some (mask, m) => bits w &&& mask = m
  | none, none => i.level = .step
  | some _, none => False
  | none, some _ => False

theorem init (typ : Option Byte) (bgr : Option Bool) : Statement (.init typ bgr) := by
  have key : ∀ (t : Byte) (g h k : Bool),
      ((0x1#4 ++ (0#1 ++ (bit g ++ (bit h ++ (bit k ++ t : BitVec 9) : BitVec 10) : BitVec 11) : BitVec 12) : BitVec 16) &&&
        0xF800#16 = 0x1000#16) := by decide
  exact key (typ.getD 0#8) typ.isSome bgr.isSome (bgr.getD false)

theorem deinit : Statement .deinit := rfl

theorem width : Statement .width := rfl

theorem height : Statement .height := rfl

theorem type : Statement .type := rfl

theorem setBacklight (st : BitVec 12) : Statement (.setBacklight st) := by
  show (0x6#4 ++ st : BitVec 16) &&& 0xF000#16 = 0x6000#16
  ext i hi
  simp only [BitVec.getElem_and, BitVec.getElem_append]
  rcases Nat.lt_or_ge i 12 with h | h
  · have hm : ∀ j : Fin 12, (0xF000#16).getLsbD j.1 = false := by decide
    have hr : ∀ j : Fin 12, (0x6000#16).getLsbD j.1 = false := by decide
    have h1 := hm ⟨i, h⟩
    have h2 := hr ⟨i, h⟩
    simp only [BitVec.getLsbD_eq_getElem hi] at h1 h2
    rw [h1, h2, Bool.and_false]
  · have hr : ∀ j : Fin 4, ((0x6#4).getLsbD j.1 && (0xF000#16).getLsbD (j.1 + 12)) = (0x6000#16).getLsbD (j.1 + 12) := by
      decide
    have h2 := hr ⟨i - 12, by omega⟩
    simp only [show i - 12 + 12 = i by omega, BitVec.getLsbD_eq_getElem hi,
      BitVec.getLsbD_eq_getElem (show i - 12 < 4 by omega)] at h2
    simpa [show ¬ i < 12 by omega] using h2

theorem getBacklight : Statement .getBacklight := rfl

theorem display (roi : Bool) : Statement (.display roi) := by cases roi <;> rfl

theorem clear : Statement .clear := rfl

theorem configureOutput (p : Pin) (d : Drive) (l : Level) : Statement (.configureOutput p d l) := rfl

theorem write (p : Pin) (l : Level) : Statement (.write p l) := rfl

theorem read (p : Pin) : Statement (.read p) := rfl

theorem release (p : Pin) : Statement (.release p) := rfl

theorem spiOpen (req : ClockReq) : Statement (.spiOpen req) := rfl

theorem sendByte (b : Byte) : Statement (.sendByte b) := rfl

theorem sendBytes (buf : List Byte) (len : Nat) : Statement (.sendBytes buf len) := rfl

theorem spiClose : Statement .spiClose := rfl

theorem cmd (op : Byte) : Statement (.cmd op) := rfl

theorem param (b : Byte) : Statement (.param b) := rfl

theorem cmdWithParams (op : Byte) (ps : List Byte) : Statement (.cmdWithParams op ps) := rfl

theorem data (buf : List Byte) (len : Nat) : Statement (.data buf len) := rfl

theorem sleep (ms : Nat) : Statement (.sleep ms) := rfl

theorem initSequence (v : Variant) (bgr : Bool) : Statement (.initSequence v bgr) := rfl

theorem geometry (r : Rect) (w : Nat) (h : Nat) : Statement (.geometry r w h) := rfl

theorem gs2rgb565 (p : Byte) : Statement (.gs2rgb565 p) := rfl

theorem pump (fmt : Fmt) (r : Rect) (lp : Nat) (rp : Nat) (tp : Nat) (bp : Nat) : Statement (.pump fmt r lp rp tp bp) := rfl

theorem clearStream : Statement .clearStream := rfl

theorem rollback : Statement .rollback := rfl

theorem swreset : Statement .swreset := rfl

theorem slpout : Statement .slpout := rfl

theorem noron : Statement .noron := rfl

theorem invoff : Statement .invoff := rfl

theorem invon : Statement .invon := rfl

theorem dispon : Statement .dispon := rfl

theorem caset : Statement .caset := rfl

theorem raset : Statement .raset := rfl

theorem ramwr : Statement .ramwr := rfl

theorem madctl : Statement .madctl := rfl

theorem colmod : Statement .colmod := rfl

theorem frmctr1 : Statement .frmctr1 := rfl

theorem frmctr2 : Statement .frmctr2 := rfl

theorem frmctr3 : Statement .frmctr3 := rfl

theorem invctr : Statement .invctr := rfl

theorem pwctr1 : Statement .pwctr1 := rfl

theorem pwctr2 : Statement .pwctr2 := rfl

theorem pwctr3 : Statement .pwctr3 := rfl

theorem pwctr4 : Statement .pwctr4 := rfl

theorem pwctr5 : Statement .pwctr5 := rfl

theorem vmctr1 : Statement .vmctr1 := rfl

theorem gmctrp : Statement .gmctrp := rfl

theorem gmctrn : Statement .gmctrn := rfl

theorem dataOrParameterByte (b : Byte) : Statement (.dataOrParameterByte b) := by
  have key : ∀ c : Byte, bits (.wire (1#1 ++ c : BitVec 9)) &&& 0x0100#16 = 0x0100#16 := by decide
  exact key b

end Sys2Proof.Laws.FitsRow
end

