-- ==== Sys2Proof/Laws/Step.lean ====
section
/-! SUPPORT. What one step can do: once for any state, once for a state between commands (10_state.md R26, R27;
70_reset_and_hazards.md R256). -/

namespace Sys2Proof.Machine

/-- A sequencer step is nothing, the end of a list, or the step `seq_pc` names. -/
theorem sequencerStep_extends {s t : State} (h : sequencerStep s = .next t) : Extends s t := by
  unfold sequencerStep at h
  split at h
  · cases h; exact .refl s
  · split at h
    · cases h; exact ⟨rfl, rfl, rfl, rfl, rfl, rfl, postsNothing rfl rfl, [], by simp⟩
    · rename_i st hst
      clear hst
      have k : Extends s { s with seqPc := s.seqPc + 1 } := ⟨rfl, rfl, rfl, rfl, rfl, rfl, postsNothing rfl rfl, [], by simp⟩
      refine k.trans ?_
      cases st <;> simp only [runSeqStep] at h
      case instr i => exact exec_extends i _ t h
      case drawAcq => cases h; exact extends_drawAcq _
      case setDriver v => cases h; exact extends_setDriver v _
      case clearDriver => cases h; exact extends_clearDriver _
      case setReady => cases h; exact extends_setReady _
      case convertPixel j a => cases h; exact extends_convertPixel j a _
      case sendLineByte k => exact exec_extends _ _ t h
      case sendImageByte a => exact exec_extends _ _ t h
      case raise e => cases h; exact extends_enterError e _
      case post r => cases h; exact extends_post r _

/-- The state a host's move is taken from: the move is gone from the inbox. -/
theorem extends_runCommand {w : Half} {s t : State} (h : runCommand w s = .next t) :
    Extends { s with cmd := w } t := by
  unfold runCommand at h
  split at h
  · exact exec_extends _ _ t h
  · cases h; exact extends_raiseError _ _

/-- What one step can do in any state. -/
theorem step_cases {s t : State} (h : step s = .next t) :
    (∃ u, Extends u t ∧ u.mem = s.mem ∧ u.line = s.line ∧ u.trace = s.trace ∧ u.results = s.results ∧
      u.result = s.result) ∨
    (∃ a b rest, s.busy = false ∧ s.inbox = .writeImage a b :: rest ∧
      t = { s with inbox := rest, mem := Memory.write s.mem a.toNat b }) ∨
    (∃ rest, s.inbox = .reset :: rest ∧ t = resetBlock { s with inbox := rest }) := by
  unfold step hostStep at h
  split at h
  · exact .inl ⟨_, sequencerStep_extends h, rfl, rfl, rfl, rfl, rfl⟩
  · exact .inl ⟨_, sequencerStep_extends h, rfl, rfl, rfl, rfl, rfl⟩
  · split at h
    · exact .inl ⟨_, sequencerStep_extends h, rfl, rfl, rfl, rfl, rfl⟩
    · cases h; exact .inl ⟨_, .refl _, rfl, rfl, rfl, rfl, rfl⟩
  · split at h
    · cases h; exact .inl ⟨_, .refl _, rfl, rfl, rfl, rfl, rfl⟩
    · exact .inl ⟨_, extends_runCommand h, rfl, rfl, rfl, rfl, rfl⟩
  · split at h
    · cases h; exact .inl ⟨_, .refl _, rfl, rfl, rfl, rfl, rfl⟩
    · cases h
      unfold beginCommand
      split
      · exact .inl ⟨_, .refl _, rfl, rfl, rfl, rfl, rfl⟩
      · exact .inl ⟨_, extends_raiseError _ _, rfl, rfl, rfl, rfl, rfl⟩
  · split at h
    · exact .inl ⟨_, sequencerStep_extends h, rfl, rfl, rfl, rfl, rfl⟩
    · cases h; exact .inl ⟨_, .refl _, rfl, rfl, rfl, rfl, rfl⟩
  · split at h
    · exact .inl ⟨_, sequencerStep_extends h, rfl, rfl, rfl, rfl, rfl⟩
    · cases h; exact .inl ⟨_, .refl _, rfl, rfl, rfl, rfl, rfl⟩
  · cases h; exact .inl ⟨_, .refl _, rfl, rfl, rfl, rfl, rfl⟩
  · cases h; exact .inl ⟨_, .refl _, rfl, rfl, rfl, rfl, rfl⟩
  · next a b rest hin =>
    split at h
    · exact .inl ⟨_, sequencerStep_extends h, rfl, rfl, rfl, rfl, rfl⟩
    · next hb => cases h; exact .inr (.inl ⟨a, b, rest, by simpa using hb, hin, rfl⟩)
  · next rest hin => cases h; exact .inr (.inr ⟨rest, hin, rfl⟩)

/-- What one step can do between commands, where the host issues every command whole: a host's move that touches no
DriverState, a whole command, or a reset. -/
theorem step_idle_cases {s : State} (hi : Idle s) (hw : WholeCommands s) :
    (∃ rest regs mem rd, step s = .next { s with inbox := rest, regs := regs, mem := mem, readData := rd } ∧
      rest <:+ s.inbox) ∨
    (∃ w rest, s.inbox = .writeCmd w :: rest ∧ step s = runCommand w { s with inbox := rest }) ∨
    (∃ rest, s.inbox = .reset :: rest ∧ step s = .next (resetBlock { s with inbox := rest })) := by
  obtain ⟨hp, hprog, hpc⟩ := hi
  have hb : s.busy = false := by simp [State.busy, hp, Phase.command]
  have hs : ∀ u : State, u.phase = .idle → sequencerStep u = .next u := by
    intro u hu
    simp [sequencerStep, hu]
  unfold step hostStep
  rcases hin : s.inbox with _ | ⟨m, rest⟩
  · exact .inl ⟨[], s.regs, s.mem, s.readData, by simp [hs s hp, ← hin], List.nil_suffix⟩
  · cases m
    case writeCmd w => exact .inr (.inl ⟨w, rest, rfl, by simp [hb]⟩)
    case startCmd w => exact absurd (by simp [hin]) (hw w)
    case wait => exact .inl ⟨rest, s.regs, s.mem, s.readData, hs _ hp, List.suffix_cons _ _⟩
    case waitIdle => exact .inl ⟨rest, s.regs, s.mem, s.readData, by simp [hb], List.suffix_cons _ _⟩
    case writeReg v => exact .inl ⟨rest, s.regs.write v, s.mem, s.readData, by simp [hb], List.suffix_cons _ _⟩
    case readReg r => exact .inl ⟨rest, s.regs, s.mem, s.regs.read r, by simp [hb], List.suffix_cons _ _⟩
    case readResult => exact .inl ⟨rest, s.regs, s.mem, s.result.setWidth 32, rfl, List.suffix_cons _ _⟩
    case readStatus => exact .inl ⟨rest, s.regs, s.mem, s.status.setWidth 32, rfl, List.suffix_cons _ _⟩
    case writeImage a b =>
      exact .inl ⟨rest, s.regs, Memory.write s.mem a.toNat b, s.readData, by simp [hb], List.suffix_cons _ _⟩
    case reset => exact .inr (.inr ⟨rest, rfl, rfl⟩)

/-- Every word a host can write decodes to a host command or is an illegal command. -/
theorem decodeHost_level {w : Half} {c : Instr} (h : decodeHost w = .instr c) : c.level = .host := by
  unfold decodeHost at h
  simp only [decodeInit, decodeNoArg] at h
  repeat' split at h
  all_goals first | (cases h; rfl) | cases h

/-- A command taken whole ends, between commands again. -/
theorem runCommand_ends {s : State} (w : Half) (h : DriverInv s) :
    ∃ t, runCommand w s = .next t ∧ CommandEnds s t := by
  have h' : DriverInv { s with cmd := w } := driverInv_congr h rfl rfl rfl rfl rfl rfl
  unfold runCommand
  split
  · next c hc => exact command_ends (decodeHost_level hc) h'
  · refine ⟨_, rfl, driverInv_congr h rfl rfl rfl rfl rfl rfl, ⟨rfl, rfl, rfl⟩, legalResult_raise _ _, [], ?_,
      wellFramed_nil⟩
    simp [raiseError, ErrKind.rollsBack, post]

end Sys2Proof.Machine
end

