-- ==== Sys2Proof/Laws/SmallSteps.lean ====
section
/-! SUPPORT. One event at a time (10_state.md R27): every entry of a command's step list, a recovery's entries too, emits at
most one event, and until the command ends it leaves the phase, `RESULT` and the list of result words alone. -/

namespace Sys2Proof.Machine

/-- An entry that emits at most one event. -/
def SeqStep.small : SeqStep → Bool
  | .instr (.configureOutput _ _ _) | .instr (.write _ _) | .instr (.release _) | .instr (.spiOpen _)
  | .instr (.sendByte _) | .instr .spiClose | .instr (.sleep _) | .instr (.geometry _ _ _) => true
  | .instr _ => false
  | .drawAcq | .setDriver _ | .clearDriver | .setReady | .convertPixel _ _ | .sendLineByte _ | .sendImageByte _
  | .raise _ | .post _ => true

/-- A list of such entries. -/
def AllSmall (L : List SeqStep) : Prop := ∀ st ∈ L, st.small = true

theorem allSmall_nil : AllSmall [] := fun _ h => absurd h List.not_mem_nil

theorem AllSmall.append {L M : List SeqStep} (h : AllSmall L) (k : AllSmall M) : AllSmall (L ++ M) := fun st hst =>
  (List.mem_append.1 hst).elim (h st) (k st)

theorem AllSmall.cons {st : SeqStep} {L : List SeqStep} (h : st.small = true) (k : AllSmall L) : AllSmall (st :: L) :=
  fun st' hst => (List.mem_cons.1 hst).elim (fun e => e ▸ h) (k st')

theorem allSmall_flatten {Ls : List (List SeqStep)} (h : ∀ L ∈ Ls, AllSmall L) : AllSmall Ls.flatten := fun st hst =>
  let ⟨L, hL, hst⟩ := List.mem_flatten.1 hst
  h L hL st hst

theorem allSmall_map {α : Type} {f : α → SeqStep} (h : ∀ a, (f a).small = true) (xs : List α) : AllSmall (xs.map f) :=
  fun _ hst => let ⟨a, _, e⟩ := List.mem_map.1 hst; e ▸ h a

theorem allSmall_frame (l : Level) {body : List SeqStep} (h : AllSmall body) : AllSmall (frameSteps l body) :=
  .append (.cons rfl (.cons rfl h)) (.cons rfl allSmall_nil)

theorem allSmall_cmd (op : Byte) : AllSmall (cmdSteps op) := allSmall_frame _ (.cons rfl allSmall_nil)

theorem allSmall_cmdWithParams (op : Byte) (ps : List Byte) : AllSmall (cmdWithParamsSteps op ps) := by
  refine (allSmall_cmd op).append ?_
  rw [List.flatMap_def]
  refine allSmall_flatten fun L hL => ?_
  obtain ⟨b, -, rfl⟩ := List.mem_map.1 hL
  exact allSmall_frame _ (.cons rfl allSmall_nil)

theorem allSmall_zero (n : Nat) : AllSmall (zeroSteps n) := allSmall_frame _ (allSmall_map (fun _ => rfl) _)

theorem allSmall_zeroRows (k n : Nat) : AllSmall (List.replicate k (zeroSteps n)).flatten :=
  allSmall_flatten fun _ hL => (List.eq_of_mem_replicate hL) ▸ allSmall_zero n

theorem allSmall_pad (pad : Nat) : AllSmall (padSteps pad) := by
  unfold padSteps
  split
  · exact allSmall_nil
  · exact allSmall_zero _

theorem allSmall_teardown (s : State) : AllSmall (teardownSteps s) := by
  refine .cons rfl (.cons rfl (.cons rfl (.cons rfl (AllSmall.append (L := ite _ _ _) ?_ (.cons rfl allSmall_nil)))))
  split
  · exact .cons rfl allSmall_nil
  · exact allSmall_nil

theorem allSmall_deinit (s : State) : AllSmall (deinitSteps s) := by
  unfold deinitSteps
  cases s.variant
  · exact allSmall_nil
  · exact allSmall_teardown s

theorem allSmall_init (v : Variant) (bgr : Bool) : AllSmall (initSteps v bgr) := by
  have one : ∀ {st : SeqStep}, st.small = true → AllSmall [st] := fun h => .cons h allSmall_nil
  unfold initSteps prologueSteps variantSteps epilogueSteps
  cases v <;> dsimp only <;>
  repeat' first
    | with_reducible exact allSmall_cmd _
    | with_reducible exact allSmall_cmdWithParams _ _
    | with_reducible apply AllSmall.append
    | exact .cons rfl (.cons rfl (.cons rfl (.cons rfl allSmall_nil)))
    | exact .cons rfl (.cons rfl (.cons rfl allSmall_nil))
    | exact .cons rfl (.cons rfl allSmall_nil)
    | exact one rfl

theorem allSmall_windowReset (v : Option Variant) : AllSmall (windowResetSteps v) := by
  unfold windowResetSteps
  split
  · exact (allSmall_cmdWithParams _ _).append (allSmall_cmdWithParams _ _)
  · exact allSmall_nil

theorem allSmall_row (x : OperandRegs) (fmt : Fmt) (r : Rect) (i : Nat) : AllSmall (rowSteps x fmt r i) := by
  cases fmt
  · exact (allSmall_map (fun _ => rfl) _).append (allSmall_frame _ (allSmall_map (fun _ => rfl) _))
  · exact allSmall_frame _ (allSmall_map (fun _ => rfl) _)

theorem allSmall_pump (s : State) (fmt : Fmt) (g : Work) : AllSmall (pumpSteps s fmt g) := by
  refine (((((allSmall_windowReset _).append (allSmall_cmd _)).append (allSmall_zeroRows _ _)).append
    (allSmall_flatten fun L hL => ?_)).append (allSmall_zeroRows _ _))
  obtain ⟨i, -, rfl⟩ := List.mem_map.1 hL
  exact ((allSmall_pad _).append (allSmall_row _ _ _ _)).append (allSmall_pad _)

theorem allSmall_clear (s : State) : AllSmall (clearSteps s) :=
  ((allSmall_windowReset _).append (allSmall_cmd _)).append (allSmall_zeroRows _ _)

/-- Every command's step list. -/
theorem allSmall_commandSteps (c : Instr) (s : State) : AllSmall (commandSteps c s) := by
  have one : ∀ {st : SeqStep}, st.small = true → AllSmall [st] := fun h => .cons h allSmall_nil
  cases c
  case init typ bgr =>
    simp only [commandSteps, initCommandSteps]
    split
    · exact one rfl
    · refine (allSmall_deinit s).append ?_
      split
      · exact one rfl
      · exact ((one rfl).append (allSmall_init _ _)).append (.cons rfl (one rfl))
  case deinit => exact (allSmall_deinit s).append (one rfl)
  case setBacklight st =>
    simp only [commandSteps, setBacklightSteps]
    split
    · exact one rfl
    · split
      · exact .cons rfl (one rfl)
      · exact .cons rfl (.cons rfl (.cons rfl (one rfl)))
  case display roi =>
    simp only [commandSteps, displaySteps]
    split
    · exact one rfl
    · split
      · exact one rfl
      · split
        · exact .cons rfl ((allSmall_pump s _ _).append (one rfl))
        · exact one rfl
  case clear =>
    simp only [commandSteps, clearCommandSteps]
    split
    · exact one rfl
    · exact .cons rfl ((allSmall_clear s).append (one rfl))
  all_goals first | exact one rfl | exact allSmall_nil

/-! ### What one small step does -/

/-- `t` is `s` after one small step. -/
def OneEvent (s t : State) : Prop :=
  AllSmall t.program ∧ t.inbox = s.inbox ∧ (∃ es, es.length ≤ 1 ∧ t.trace = s.trace ++ es) ∧
    (t.phase = .idle ∨ (t.phase = s.phase ∧ t.result = s.result ∧ t.results = s.results))

theorem oneEvent_silent {s t : State} (hp : AllSmall t.program) (hi : t.inbox = s.inbox) (ht : t.trace = s.trace)
    (he : t.phase = .idle ∨ (t.phase = s.phase ∧ t.result = s.result ∧ t.results = s.results)) : OneEvent s t :=
  ⟨hp, hi, ⟨[], by simp, by simpa using ht⟩, he⟩

theorem oneEvent_emits {s t : State} (e : Event) (hp : AllSmall t.program) (hi : t.inbox = s.inbox)
    (ht : t.trace = s.trace ++ [e])
    (he : t.phase = .idle ∨ (t.phase = s.phase ∧ t.result = s.result ∧ t.results = s.results)) : OneEvent s t :=
  ⟨hp, hi, ⟨[e], by simp, ht⟩, he⟩

theorem oneEvent_sendByte {b : Byte} {s t : State} (hs : AllSmall s.program) (h : exec (.sendByte b) s = .next t) :
    OneEvent s t := by
  have := (requireSession_next h).2
  cases this
  exact oneEvent_emits (.spiByte b) hs rfl rfl (.inr ⟨rfl, rfl, rfl⟩)

theorem oneEvent_enterError (e : ErrKind) {s u : State} (hi : u.inbox = s.inbox)
    (hu : ∃ es, es.length ≤ 1 ∧ u.trace = s.trace ++ es)
    (he : u.phase = s.phase ∧ u.result = s.result ∧ u.results = s.results) : OneEvent s (enterError e u) := by
  unfold enterError
  split
  · exact ⟨(allSmall_teardown u).append (.cons rfl allSmall_nil), hi, hu, .inr he⟩
  · next h =>
    rw [raiseError, if_neg h]
    exact ⟨allSmall_nil, hi, hu, .inl rfl⟩

theorem runSeqStep_oneEvent {st : SeqStep} {s t : State} (hst : st.small = true) (hs : AllSmall s.program)
    (h : runSeqStep st s = .next t) : OneEvent s t := by
  have quiet : s.phase = .idle ∨ (s.phase = s.phase ∧ s.result = s.result ∧ s.results = s.results) :=
    .inr ⟨rfl, rfl, rfl⟩
  cases st
  case instr i =>
    cases i <;> first | exact absurd hst Bool.false_ne_true | skip
    case configureOutput p d l =>
      cases h
      rw [configureOutput_eq]
      split
      · exact oneEvent_enterError _ rfl ⟨[], by simp, by simp⟩ ⟨rfl, rfl, rfl⟩
      · exact oneEvent_emits _ hs rfl rfl quiet
    case spiOpen req =>
      cases h
      rw [spiOpen_eq]
      split
      · exact oneEvent_enterError _ rfl ⟨[.spiOpen req], by simp, rfl⟩ ⟨rfl, rfl, rfl⟩
      · exact oneEvent_emits _ hs rfl rfl quiet
    case write p l => cases h; exact oneEvent_emits _ hs rfl rfl quiet
    case release p => cases h; exact oneEvent_emits _ hs rfl rfl quiet
    case sendByte b => exact oneEvent_sendByte hs h
    case spiClose =>
      cases h
      unfold spiClose
      split
      · exact oneEvent_emits _ hs rfl rfl quiet
      · exact oneEvent_silent hs rfl rfl quiet
    case sleep ms => cases h; exact oneEvent_emits _ hs rfl rfl quiet
    case geometry r w hh => cases h; exact oneEvent_silent hs rfl rfl quiet
  case sendLineByte k => exact oneEvent_sendByte hs h
  case sendImageByte a => exact oneEvent_sendByte hs h
  case raise e => cases h; exact oneEvent_enterError e rfl ⟨[], by simp, by simp⟩ ⟨rfl, rfl, rfl⟩
  case post r => cases h; exact oneEvent_silent allSmall_nil rfl rfl (.inl rfl)
  all_goals cases h; exact oneEvent_silent hs rfl rfl quiet

/-- The sequencer's step inside a list of small entries. -/
theorem step_oneEvent {s t : State} (hi : s.inbox = []) (hs : AllSmall s.program) (h : step s = .next t) :
    OneEvent s t := by
  have hq : step s = sequencerStep s := by unfold step hostStep; rw [hi]
  rw [hq, sequencerStep] at h
  split at h
  · cases h; exact oneEvent_silent hs rfl rfl (.inr ⟨rfl, rfl, rfl⟩)
  · split at h
    · cases h; exact oneEvent_silent allSmall_nil rfl rfl (.inl rfl)
    · next st hst =>
      have hmem : st ∈ s.program := List.mem_of_getElem? hst
      exact runSeqStep_oneEvent (s := { s with seqPc := s.seqPc + 1 }) (hs st hmem) hs h

/-- Every wire history on the way is one the machine stands at (R27). -/
theorem run_reachesEveryHistory {n : Nat} {s t : State} (hi : s.inbox = []) (hs : AllSmall s.program)
    (hr : Host.Core.run core n s = .next t) :
    s.trace <+: t.trace ∧ ∀ h : List Event, s.trace <+: h → h <+: t.trace →
      ∃ k u, k ≤ n ∧ Host.Core.run core k s = .next u ∧ u.trace = h := by
  induction n generalizing s with
  | zero =>
    obtain rfl : s = t := Host.Outcome.next.inj hr
    exact ⟨List.prefix_rfl, fun h h1 h2 => ⟨0, s, Nat.le_refl 0, rfl, h1.eq_of_length_le h2.length_le⟩⟩
  | succ n ih =>
    simp only [Host.Core.run] at hr
    split at hr
    · rename_i s1 hs1
      obtain ⟨h1, h2, ⟨es, h3, h4⟩, -⟩ := step_oneEvent hi hs hs1
      obtain ⟨k1, k2⟩ := ih (h2.trans hi) h1 hr
      have hp : s.trace <+: s1.trace := h4 ▸ List.prefix_append _ _
      refine ⟨hp.trans k1, fun h a b => ?_⟩
      by_cases hl : h.length ≤ s.trace.length
      · exact ⟨0, s, Nat.zero_le _, rfl, a.eq_of_length_le hl⟩
      · have hlen : s1.trace.length ≤ h.length := by rw [h4, List.length_append]; omega
        obtain ⟨k, u, c1, c2, c3⟩ := k2 h (List.prefix_of_prefix_length_le k1 b hlen) b
        refine ⟨k + 1, u, Nat.succ_le_succ c1, ?_, c3⟩
        simp only [Host.Core.run, hs1, c2]
    · cases hr
    · cases hr

end Sys2Proof.Machine
end

