-- ==== Sys2Proof/Laws/Stream.lean ====
section
/-! SUPPORT. The pixel pump (45_pixel_pump.md): the closed form of each part of a stream and of the whole. -/

namespace Sys2Proof.Machine

/-- The shape every part of a stream leaves: frames appended, the line buffer replaced. -/
def streamed (l : Level) (es : List Event) (ln : List Byte) (s : State) : State :=
  { s with pads := padsAfterFrame l s.pads, trace := s.trace ++ es, line := ln }

@[simp] theorem streamed_width (l : Level) (es : List Event) (ln : List Byte) (s : State) :
    (streamed l es ln s).width = s.width := rfl

@[simp] theorem streamed_line (l : Level) (es : List Event) (ln : List Byte) (s : State) :
    (streamed l es ln s).line = ln := rfl

@[simp] theorem streamed_mem (l : Level) (es : List Event) (ln : List Byte) (s : State) :
    (streamed l es ln s).mem = s.mem := rfl

@[simp] theorem streamed_regs (l : Level) (es : List Event) (ln : List Byte) (s : State) :
    (streamed l es ln s).regs = s.regs := rfl

theorem framed_streamed (l l' : Level) (es es' : List Event) (ln : List Byte) (s : State) :
    framed l' es' (streamed l es ln s) = streamed l' (es ++ es') ln s := by
  simp [framed, streamed, padsAfterFrame]

/-- The DC level after n more data frames. -/
def levelAfter (n : Nat) (l : Level) : Level := if n = 0 then l else .high

theorem padFrame_streamed (pad : Nat) (l : Level) (es : List Event) (ln : List Byte) (s : State) :
    padFrame pad (streamed l es ln s) = streamed (levelAfter pad l) (es ++ padTrace pad) ln s := by
  unfold padFrame padTrace levelAfter
  split <;> simp [zeroFrame_eq, framed_streamed]

theorem repeatOp_zeroRow_streamed (n : Nat) (l : Level) (es : List Event) (ln : List Byte) (s : State) :
    repeatOp n zeroRow (streamed l es ln s) = streamed (levelAfter n l)
      (es ++ (List.replicate n (zFrame (2 * s.width.toNat))).flatten) ln s := by
  induction n generalizing l es with
  | zero => simp [repeatOp, levelAfter]
  | succ n ih =>
    rw [repeatOp, zeroRow, zeroFrame_eq, framed_streamed, ih]
    simp [levelAfter, List.replicate_succ]

/-- What holds at each turn of a loop holds after it. -/
theorem forFrom_induct {P : Nat → State → Prop} (f : Nat → State → State) (n lo : Nat) (s : State) (h0 : P lo s)
    (hs : ∀ k t, lo ≤ k → k < lo + n → P k t → P (k + 1) (f k t)) : P (lo + n) (forFrom lo n f s) := by
  induction n generalizing lo s with
  | zero => exact h0
  | succ n ih =>
    have := ih (lo + 1) (f lo s) (hs lo s (Nat.le_refl _) (by omega) h0)
      fun k t h1 h2 => hs k t (by omega) (by omega)
    rwa [show lo + (n + 1) = lo + 1 + n by omega]

/-- The converted pixel in numbers (R172). -/
theorem gs2rgb565_toNat : ∀ p : Byte,
    (gs2rgb565 p).toNat = p.toNat / 8 * 2048 + p.toNat / 4 * 32 + p.toNat / 8 := by decide

theorem hiByte_eq (q : Half) : hiByte q = BitVec.ofNat 8 (q.toNat / 256) := by
  apply BitVec.eq_of_toNat_eq
  simp [hiByte, Nat.shiftRight_eq_div_pow]

theorem loByte_eq (q : Half) : loByte q = BitVec.ofNat 8 (q.toNat % 256) := by
  apply BitVec.eq_of_toNat_eq
  simp [loByte]

theorem pixelBytes_gs8 (m : Memory) (a : Nat) :
    pixelBytes m .gs8 a = [hiByte (gs2rgb565 (m.read a)), loByte (gs2rgb565 (m.read a))] := by
  simp [pixelBytes, hiByte_eq, loByte_eq, gs2rgb565_toNat]

theorem pixelBytes_length (m : Memory) (fmt : Fmt) (a : Nat) : (pixelBytes m fmt a).length = 2 := by
  cases fmt <;> rfl

/-- The bytes of the first n pixels of a row. -/
def firstPixels (m : Memory) (x : OperandRegs) (fmt : Fmt) (r : Rect) (i n : Nat) : List Byte :=
  (List.range n).flatMap fun j => pixelBytes m fmt (pixelAddr x fmt (r.x + j) (r.y + i))

theorem firstPixels_length (m : Memory) (x : OperandRegs) (fmt : Fmt) (r : Rect) (i n : Nat) :
    (firstPixels m x fmt r i n).length = 2 * n := by
  induction n with
  | zero => rfl
  | succ n ih =>
    simp only [firstPixels, List.range_succ, List.flatMap_append, List.length_append] at ih ⊢
    simp [ih, pixelBytes_length]; omega

theorem rowBytes_length (m : Memory) (x : OperandRegs) (fmt : Fmt) (r : Rect) (i : Nat) :
    (rowBytes m x fmt r i).length = 2 * r.w := firstPixels_length m x fmt r i r.w

/-- Two neighbouring bytes of a list set. -/
theorem set_pair (xs ys : List Byte) (a b : Byte) (h : 2 ≤ ys.length) :
    ((xs ++ ys).set xs.length a).set (xs.length + 1) b = xs ++ [a, b] ++ ys.drop 2 := by
  match ys, h with
  | y :: z :: zs, _ => simp

theorem convertRow_streamed (r : Rect) (i : Nat) (l : Level) (es : List Event) (ln : List Byte) (s : State)
    (h : 2 * r.w ≤ ln.length) : convertRow r i (streamed l es ln s) =
      streamed l es (rowBytes s.mem s.regs .gs8 r i ++ ln.drop (2 * r.w)) s := by
  have := forFrom_induct
    (P := fun k t => t = streamed l es (firstPixels s.mem s.regs .gs8 r i k ++ ln.drop (2 * k)) s)
    (fun j s => convertPixel j (pixelAddr s.regs .gs8 (r.x + j) (r.y + i)) s) r.w 0 (streamed l es ln s)
    (by simp [firstPixels])
    (by
      rintro k t - hk rfl
      have hlen := firstPixels_length s.mem s.regs .gs8 r i k
      have := set_pair (firstPixels s.mem s.regs .gs8 r i k) (ln.drop (2 * k))
        (hiByte (gs2rgb565 (s.mem.read (pixelAddr s.regs .gs8 (r.x + k) (r.y + i)))))
        (loByte (gs2rgb565 (s.mem.read (pixelAddr s.regs .gs8 (r.x + k) (r.y + i)))))
        (by simp; omega)
      rw [hlen, List.drop_drop, show 2 * k + 2 = 2 * (k + 1) by omega] at this
      simp only [convertPixel, streamed_mem, streamed_line, streamed_regs, imgRead8, this]
      simp [streamed, firstPixels, List.range_succ, pixelBytes_gs8])
  simpa [firstPixels, rowBytes, convertRow] using this

/-- A list of 2n bytes taken two at a time. -/
theorem map_range_double (g : Nat → Byte) (n : Nat) :
    (List.range (2 * n)).map g = (List.range n).flatMap fun j => [g (2 * j), g (2 * j + 1)] := by
  induction n with
  | zero => rfl
  | succ n ih =>
    rw [show 2 * (n + 1) = 2 * n + 1 + 1 by omega, List.range_succ, List.range_succ, List.range_succ]
    simp [ih]

theorem rgbRow_bytes (m : Memory) (x : OperandRegs) (r : Rect) (i : Nat) :
    ((List.range (2 * r.w)).map fun k => m.read (pixelAddr x .rgb565 r.x (r.y + i) + k)) =
      rowBytes m x .rgb565 r i := by
  rw [map_range_double, rowBytes]
  congr 1
  funext j
  have : pixelAddr x .rgb565 (r.x + j) (r.y + i) = pixelAddr x .rgb565 r.x (r.y + i) + 2 * j := by
    simp only [pixelAddr, bpp]; omega
  simp [pixelBytes, this, Nat.add_assoc]

/-- The line buffer after one row. -/
def lineAfterRow (s : State) (fmt : Fmt) (r : Rect) (i : Nat) (ln : List Byte) : List Byte :=
  match fmt with
  | .gs8 => rowBytes s.mem s.regs .gs8 r i ++ ln.drop (2 * r.w)
  | .rgb565 => ln

theorem sendRow_streamed (fmt : Fmt) (r : Rect) (i : Nat) (l : Level) (es : List Event) (ln : List Byte) (s : State)
    (h : 2 * r.w ≤ ln.length) : sendRow fmt r i (streamed l es ln s) =
      streamed .high (es ++ dFrame (rowBytes s.mem s.regs fmt r i)) (lineAfterRow s fmt r i ln) s := by
  cases fmt with
  | gs8 =>
    rw [sendRow, convertRow_streamed r i l es ln s h, sendLine, dataFrame_eq, framed_streamed]
    simp [lineAfterRow, rowBytes_length]
  | rgb565 =>
    rw [sendRow, sendRgbRow, dataFrame_eq, framed_streamed]
    simp only [streamed_mem, streamed_regs, imgRead8, rgbRow_bytes, lineAfterRow]
    rw [List.take_of_length_le (by simp [rowBytes_length])]

theorem pumpRow_streamed (fmt : Fmt) (r : Rect) (lp rp i : Nat) (l : Level) (es : List Event) (ln : List Byte)
    (s : State) (h : 2 * r.w ≤ ln.length) : pumpRow fmt r lp rp i (streamed l es ln s) =
      streamed .high (es ++ (padTrace lp ++ dFrame (rowBytes s.mem s.regs fmt r i) ++ padTrace rp))
        (lineAfterRow s fmt r i ln) s := by
  rw [pumpRow, padFrame_streamed, sendRow_streamed fmt r i _ _ ln s h, padFrame_streamed]
  simp [levelAfter]

/-- The line buffer after the first n rows. -/
def lineAfterRows (s : State) (fmt : Fmt) (r : Rect) : Nat → List Byte → List Byte
  | 0, ln => ln
  | n + 1, ln => lineAfterRow s fmt r n (lineAfterRows s fmt r n ln)

theorem lineAfterRow_length (s : State) (fmt : Fmt) (r : Rect) (i : Nat) (ln : List Byte) (h : 2 * r.w ≤ ln.length) :
    (lineAfterRow s fmt r i ln).length = ln.length := by
  cases fmt
  · simp [lineAfterRow, rowBytes_length]; omega
  · rfl

theorem lineAfterRows_length (s : State) (fmt : Fmt) (r : Rect) (n : Nat) (ln : List Byte) (h : 2 * r.w ≤ ln.length) :
    (lineAfterRows s fmt r n ln).length = ln.length := by
  induction n with
  | zero => rfl
  | succ n ih => rw [lineAfterRows, lineAfterRow_length _ _ _ _ _ (by omega), ih]

theorem lineAfterRows_gs8 (s : State) (r : Rect) (n : Nat) (ln : List Byte) :
    lineAfterRows s .gs8 r (n + 1) ln = rowBytes s.mem s.regs .gs8 r n ++ ln.drop (2 * r.w) := by
  induction n with
  | zero => rfl
  | succ n ih =>
    rw [lineAfterRows, ih]
    simp [lineAfterRow, rowBytes_length]

theorem lineAfterRows_rgb565 (s : State) (r : Rect) (n : Nat) (ln : List Byte) :
    lineAfterRows s .rgb565 r n ln = ln := by
  induction n with
  | zero => rfl
  | succ n ih => rw [lineAfterRows, ih]; rfl

theorem lineAfterRows_eq (s : State) (fmt : Fmt) (r : Rect) (h : 2 * r.w ≤ s.line.length) :
    lineAfterRows s fmt r r.h s.line = lineAfter s fmt r := by
  unfold lineAfter
  cases fmt with
  | gs8 =>
    obtain ⟨x, y, w, hh⟩ := r
    cases hh with
    | zero => simp [lineAfterRows]
    | succ n => simp [lineAfterRows_gs8 s _ n s.line]
  | rgb565 => simp [lineAfterRows_rgb565]

/-- The middle rows. -/
theorem rows_streamed (fmt : Fmt) (r : Rect) (lp rp : Nat) (l : Level) (es : List Event) (s : State)
    (h : 2 * r.w ≤ s.line.length) : forFrom 0 r.h (pumpRow fmt r lp rp) (streamed l es s.line s) =
      streamed (levelAfter r.h l) (es ++ (List.range r.h).flatMap fun i =>
        padTrace lp ++ dFrame (rowBytes s.mem s.regs fmt r i) ++ padTrace rp) (lineAfter s fmt r) s := by
  have := forFrom_induct
    (P := fun k t => t = streamed (levelAfter k l) (es ++ (List.range k).flatMap fun i =>
      padTrace lp ++ dFrame (rowBytes s.mem s.regs fmt r i) ++ padTrace rp) (lineAfterRows s fmt r k s.line) s)
    (pumpRow fmt r lp rp) r.h 0 (streamed l es s.line s) (by simp [levelAfter, lineAfterRows])
    (by
      rintro k t - hk rfl
      rw [pumpRow_streamed _ _ _ _ _ _ _ _ _ (by rwa [lineAfterRows_length _ _ _ _ _ h])]
      simp [levelAfter, lineAfterRows, List.range_succ])
  simpa [lineAfterRows_eq s fmt r h] using this

/-- The window reset and the memory-write command (R174, R175). -/
theorem streamStart (s : State) (v : Variant) (hv : s.variant = some v) :
    cmdFrame 0x2C#8 (windowReset s) = streamed .low (windowTrace v ++ cFrame 0x2C#8) s.line s := by
  unfold windowReset
  rw [hv]
  cases v
  · simp [cmdFrame_eq, windowTrace, framed, streamed]
  · simp only [cmdWithParams_eq, cmdFrame_eq, framed_framed, windowTrace]
    simp [framed, streamed, casetWindow, rasetWindow]

/-- The whole stream of a pump (R176). -/
theorem pump_eq (s : State) (v : Variant) (fmt : Fmt) (g : Work) (hv : s.variant = some v) (hw : s.width = panelW v)
    (h : 2 * g.rect.w ≤ s.line.length) :
    pump fmt g.rect g.lPad g.rPad g.tPad g.bPad s =
      streamed (levelAfter (g.tPad + g.rect.h + g.bPad) .low) (pumpTrace v s.mem s.regs fmt g)
        (lineAfter s fmt g.rect) s := by
  unfold pump
  simp only
  rw [streamStart s v hv, repeatOp_zeroRow_streamed, rows_streamed _ _ _ _ _ _ _ h, repeatOp_zeroRow_streamed]
  have hl : levelAfter g.bPad (levelAfter g.rect.h (levelAfter g.tPad .low)) =
      levelAfter (g.tPad + g.rect.h + g.bPad) .low := by
    unfold levelAfter
    by_cases h1 : g.tPad = 0 <;> by_cases h2 : g.rect.h = 0 <;> by_cases h3 : g.bPad = 0 <;> simp [h1, h2, h3]
  rw [hl]
  simp [pumpTrace, hw]

/-- The whole stream of a clear (R184). -/
theorem clearStream_eq (s : State) (v : Variant) (hv : s.variant = some v) (hw : s.width = panelW v)
    (hh : s.height = panelH v) : clearStream s = streamed .high (clearTrace v) s.line s := by
  unfold clearStream
  rw [streamStart s v hv, repeatOp_zeroRow_streamed, hw, hh]
  have : levelAfter (panelH v).toNat .low = .high := by cases v <;> rfl
  rw [this]
  simp [clearTrace]

end Sys2Proof.Machine
end

