-- ==== Sys2Proof/Laws/Stepped.lean ====
section
/-! SUPPORT. Step lists (10_state.md R26, R27): running a list step by step does what the shared operation it stands for
does at once. One lemma per list, composed by `Runs.append`. -/

namespace Sys2Proof.Machine

/-- `s` inside command `c`, at step `k` of the list `prog`, with no host move to come. -/
def atStep (c : Instr) (prog : List SeqStep) (k : Nat) (s : State) : State :=
  { s with phase := .exec c, program := prog, seqPc := k, inbox := [] }

/-- The steps `L`, wherever they stand in a list, take `s` to `t`. -/
def Runs (c : Instr) (L : List SeqStep) (s t : State) : Prop :=
  ∀ A B, Host.Core.run core L.length (atStep c (A ++ L ++ B) A.length s) =
    .next (atStep c (A ++ L ++ B) (A.length + L.length) t)

/-- The steps `L` end the command in `t`. -/
def Ends (c : Instr) (L : List SeqStep) (s t : State) : Prop :=
  ∀ A B, ∃ n, Host.Core.run core n (atStep c (A ++ L ++ B) A.length s) = .next t

theorem run_add {m n : Nat} {s t : State} (h : Host.Core.run core m s = .next t) :
    Host.Core.run core (m + n) s = Host.Core.run core n t := by
  induction m generalizing s with
  | zero => cases h; rw [Nat.zero_add]
  | succ m ih =>
    rw [Nat.add_right_comm]
    simp only [Host.Core.run] at h ⊢
    split at h
    · exact ih h
    · cases h
    · cases h

theorem Runs.nil (c : Instr) (s : State) : Runs c [] s s := fun _ _ => rfl

theorem Runs.append {c : Instr} {L M : List SeqStep} {s t u : State} (h : Runs c L s t) (k : Runs c M t u) :
    Runs c (L ++ M) s u := by
  intro A B
  have h1 := h A (M ++ B)
  have k1 := k (A ++ L) B
  simp only [List.append_assoc, List.length_append] at h1 k1 ⊢
  rw [run_add h1, k1, Nat.add_assoc]

theorem Runs.ends {c : Instr} {L M : List SeqStep} {s t u : State} (h : Runs c L s t) (k : Ends c M t u) :
    Ends c (L ++ M) s u := by
  intro A B
  have h1 := h A (M ++ B)
  obtain ⟨n, k1⟩ := k (A ++ L) B
  simp only [List.append_assoc, List.length_append] at h1 k1 ⊢
  exact ⟨L.length + n, by rw [run_add h1, k1]⟩

theorem Ends.append {c : Instr} {L M : List SeqStep} {s t : State} (h : Ends c L s t) : Ends c (L ++ M) s t := by
  intro A B
  have := h A (M ++ B)
  simpa only [List.append_assoc] using this

/-- The sequencer at a step of its list (R26). -/
theorem step_atStep (c : Instr) (A B : List SeqStep) (st : SeqStep) (s : State) :
    step (atStep c (A ++ [st] ++ B) A.length s) = runSeqStep st (atStep c (A ++ [st] ++ B) (A.length + 1) s) := by
  simp [step, hostStep, sequencerStep, atStep]

/-- A step that leaves the sequencer's own registers alone. -/
theorem runs_one {c : Instr} {st : SeqStep} {s t : State}
    (h : ∀ prog k, runSeqStep st (atStep c prog k s) = .next (atStep c prog k t)) : Runs c [st] s t := by
  intro A B
  have hs : core.step (atStep c (A ++ [st] ++ B) A.length s) =
      .next (atStep c (A ++ [st] ++ B) (A.length + 1) t) := (step_atStep c A B st s).trans (h _ _)
  simp only [List.length_singleton, Host.Core.run, hs]

theorem Runs.cons {c : Instr} {st : SeqStep} {L : List SeqStep} {s t u : State}
    (h : ∀ prog k, runSeqStep st (atStep c prog k s) = .next (atStep c prog k t)) (k : Runs c L t u) :
    Runs c (st :: L) s u := (runs_one h).append k

/-- A step that ends the command. -/
theorem ends_one {c : Instr} {st : SeqStep} {s t : State}
    (h : ∀ prog k, runSeqStep st (atStep c prog k s) = .next t) : Ends c [st] s t := by
  intro A B
  refine ⟨1, ?_⟩
  have hs : core.step (atStep c (A ++ [st] ++ B) A.length s) = .next t := (step_atStep c A B st s).trans (h _ _)
  simp only [Host.Core.run, hs]

theorem ends_post (c : Instr) (r : Result) (s : State) : Ends c [.post r] s (post r { s with inbox := [] }) :=
  ends_one fun _ _ => rfl

theorem raiseError_atStep (c : Instr) (prog : List SeqStep) (k : Nat) (e : ErrKind) (s : State) :
    raiseError e (atStep c prog k s) = raiseError e { s with inbox := [] } := by
  cases e <;> simp [raiseError, ErrKind.rollsBack, post, atStep, rollback_eq]

/-! ### Single steps -/

theorem runs_write (c : Instr) (p : Pin) (l : Level) (s : State) : Runs c [.instr (.write p l)] s (writePin p l s) :=
  runs_one fun _ _ => rfl

theorem runs_release (c : Instr) (p : Pin) (s : State) : Runs c [.instr (.release p)] s (releasePin p s) :=
  runs_one fun _ _ => rfl

theorem runs_sleep (c : Instr) (ms : Nat) (s : State) : Runs c [.instr (.sleep ms)] s (sleepMs ms s) :=
  runs_one fun _ _ => rfl

theorem runs_geometry (c : Instr) (r : Rect) (w h : Nat) (s : State) :
    Runs c [.instr (.geometry r w h)] s (geometryStep r w h s) := runs_one fun _ _ => rfl

theorem runs_spiClose (c : Instr) (s : State) : Runs c [.instr .spiClose] s (spiClose s) := by
  refine runs_one fun prog k => ?_
  cases h : s.spi <;> simp [runSeqStep, exec, execSpiClose, spiClose, atStep, h, emit]

theorem runs_sendByte (c : Instr) (b : Byte) {s : State} (h : s.spi.isSome) :
    Runs c [.instr (.sendByte b)] s (sendByte b s) := by
  refine runs_one fun prog k => ?_
  obtain ⟨r, hr⟩ := Option.isSome_iff_exists.1 h
  simp [runSeqStep, exec, execSendByte, requireSession, atStep, hr, sendByte, emit]

theorem runs_clearDriver (c : Instr) (s : State) : Runs c [.clearDriver] s (clearDriver s) := runs_one fun _ _ => rfl

/-- The teardown path, step by step (R192, R215). -/
theorem runs_teardown (c : Instr) (s : State) : Runs c (teardownSteps s) s (rollback s) := by
  have h := (runs_release c .rst s).append ((runs_release c .dc _).append ((runs_release c .cs _).append
    (runs_spiClose c _)))
  unfold teardownSteps rollback
  refine (h.append (M := if s.backlightReady then [.instr (.release .led)] else []) ?_).append (runs_clearDriver c _)
  have hb : (spiClose (releasePin .cs (releasePin .dc (releasePin .rst s)))).backlightReady = s.backlightReady := by
    unfold spiClose
    split <;> rfl
  unfold releaseLedIfReady
  rw [hb]
  split
  · exact runs_release c .led _
  · exact Runs.nil c _

/-- An error at a step: the steps it puts in place of the list come to what the error entry does at once (R220). -/
theorem run_enterError (c : Instr) (prog : List SeqStep) (k : Nat) (e : ErrKind) (s : State) :
    ∃ n, Host.Core.run core n (enterError e (atStep c prog k s)) = .next (raiseError e { s with inbox := [] }) := by
  by_cases he : e.rollsBack
  · obtain ⟨n, h⟩ := (runs_teardown c s).ends (ends_post c e.result _) [] []
    refine ⟨n, ?_⟩
    have hl : enterError e (atStep c prog k s) = atStep c ([] ++ (teardownSteps s ++ [.post e.result]) ++ []) 0 s := by
      rw [enterError, if_pos he, List.append_nil]
      rfl
    rw [hl]
    refine h.trans (congrArg Host.Outcome.next ?_)
    rw [raiseError, if_pos he, rollback_eq, rollback_eq]
  · refine ⟨0, congrArg Host.Outcome.next ?_⟩
    rw [enterError, if_neg he]
    exact raiseError_atStep c prog k e s

/-- A step that enters an error ends the command as the error entry does. -/
theorem ends_entered {c : Instr} {st : SeqStep} {e : ErrKind} {s u : State}
    (h : ∀ prog k, runSeqStep st (atStep c prog k s) = .next (enterError e (atStep c prog k u))) :
    Ends c [st] s (raiseError e { u with inbox := [] }) := by
  intro A B
  obtain ⟨n, hn⟩ := run_enterError c (A ++ [st] ++ B) (A.length + 1) e u
  have hs : core.step (atStep c (A ++ [st] ++ B) A.length s) = _ := (step_atStep c A B st s).trans (h _ _)
  exact ⟨n + 1, by simp only [Host.Core.run, hs, hn]⟩

theorem ends_raise (c : Instr) (e : ErrKind) (s : State) : Ends c [.raise e] s (raiseError e { s with inbox := [] }) :=
  ends_entered fun _ _ => rfl

/-- `configure_output`, in a command whose draw lets it through. -/
theorem runs_configureOutput {c : Instr} {p : Pin} (d : Drive) (l : Level) {s : State}
    (h : State.drawInForce { s with phase := .exec c } ≠ .gpioFail p) :
    Runs c [.instr (.configureOutput p d l)] s
      { s with pads := s.pads.set p ⟨driveMode d, l⟩, trace := s.trace ++ [.pinCfg p d l] } := by
  refine runs_one fun prog k => ?_
  have : (atStep c prog k s).drawInForce ≠ .gpioFail p := h
  simp only [runSeqStep, exec, execConfigureOutput, configureOutput_eq, this, if_false]
  rfl

/-- `configure_output` of the pad that cannot be acquired. -/
theorem ends_configureOutput {c : Instr} {p : Pin} (d : Drive) (l : Level) {s : State}
    (h : State.drawInForce { s with phase := .exec c } = .gpioFail p) :
    Ends c [.instr (.configureOutput p d l)] s (raiseError .hardwareUnavailable { s with inbox := [] }) := by
  refine ends_entered fun prog k => ?_
  have : (atStep c prog k s).drawInForce = .gpioFail p := h
  simp only [runSeqStep, exec, execConfigureOutput, configureOutput_eq, this, if_true, StepOut.entered]

theorem runs_spiOpen {c : Instr} (req : ClockReq) {s : State}
    (h : State.drawInForce { s with phase := .exec c } ≠ .spiFail) :
    Runs c [.instr (.spiOpen req)] s { s with spi := some req, trace := s.trace ++ [.spiOpen req] } := by
  refine runs_one fun prog k => ?_
  have : (atStep c prog k s).drawInForce ≠ .spiFail := h
  simp only [runSeqStep, exec, execSpiOpen, spiOpen_eq, this, if_false]
  rfl

theorem ends_spiOpen {c : Instr} (req : ClockReq) {s : State}
    (h : State.drawInForce { s with phase := .exec c } = .spiFail) :
    Ends c [.instr (.spiOpen req)] s
      (raiseError .spiUnavailable { s with trace := s.trace ++ [.spiOpen req], inbox := [] }) := by
  refine ends_entered (u := { s with trace := s.trace ++ [.spiOpen req] }) fun prog k => ?_
  have : (atStep c prog k s).drawInForce = .spiFail := h
  simp only [runSeqStep, exec, execSpiOpen, spiOpen_eq, this, if_true, StepOut.entered]
  rfl

/-! ### Frames -/

theorem runs_bytes (c : Instr) (bs : List Byte) {s : State} (h : s.spi.isSome) :
    Runs c (bs.map fun b => .instr (.sendByte b)) s (emit (bs.map .spiByte) s) := by
  induction bs generalizing s with
  | nil => simpa [emit] using Runs.nil c s
  | cons b bs ih =>
    have := (runs_sendByte c b h).append (ih (s := sendByte b s) h)
    simpa [sendByte, emit] using this

/-- A frame around any body. -/
theorem runs_frame {c : Instr} {l : Level} {body : List SeqStep} {s u : State}
    (h : Runs c body (writePin .dc l (writePin .cs .low s)) u) :
    Runs c (frameSteps l body) s (writePin .cs .high u) :=
  ((runs_write c .cs .low s).append (runs_write c .dc l _)).append (h.append (runs_write c .cs .high u))

/-- Setting the pins of a frame keeps the session. -/
theorem frameStart_spi (l : Level) {s : State} (h : s.spi.isSome) :
    (writePin .dc l (writePin .cs .low s)).spi.isSome := h

theorem runs_cmd (c : Instr) (op : Byte) {s : State} (h : s.spi.isSome) : Runs c (cmdSteps op) s (cmdFrame op s) :=
  runs_frame (runs_sendByte c op (frameStart_spi .low h))

theorem runs_data (c : Instr) (bs : List Byte) {s : State} (h : s.spi.isSome) :
    Runs c (dataSteps bs) s (dataFrame bs bs.length s) := by
  have := runs_frame (runs_bytes c bs (frameStart_spi .high h))
  unfold dataSteps dataFrame sendBytes
  rwa [List.take_length]

theorem runs_zero (c : Instr) (n : Nat) {s : State} (h : s.spi.isSome) : Runs c (zeroSteps n) s (zeroFrame n s) := by
  have := runs_data c (List.replicate n 0#8) h
  rwa [List.length_replicate] at this

theorem runs_params (c : Instr) (ps : List Byte) {s : State} (h : s.spi.isSome) :
    Runs c (ps.flatMap fun b => frameSteps .high [.instr (.sendByte b)]) s (paramFrames ps s) := by
  induction ps generalizing s with
  | nil => exact Runs.nil c s
  | cons b bs ih =>
    have hb : Runs c (frameSteps .high [.instr (.sendByte b)]) s (paramFrame b s) :=
      runs_frame (runs_sendByte c b (frameStart_spi .high h))
    have h' : (paramFrame b s).spi.isSome := by rw [paramFrame_eq]; exact h
    exact hb.append (ih h')

theorem runs_cmdWithParams (c : Instr) (op : Byte) (ps : List Byte) {s : State} (h : s.spi.isSome) :
    Runs c (cmdWithParamsSteps op ps) s (cmdWithParams op ps s) := by
  have h' : (cmdFrame op s).spi.isSome := by rw [cmdFrame_eq]; exact h
  exact (runs_cmd c op h).append (runs_params c ps h')

/-- `Runs.append`, the last part first. -/
theorem Runs.snoc {c : Instr} {L M : List SeqStep} {s t u : State} (k : Runs c M t u) (h : Runs c L s t) :
    Runs c (L ++ M) s u := h.append k

@[simp] theorem cmdFrame_spi (op : Byte) (s : State) : (cmdFrame op s).spi = s.spi := by
  rw [cmdFrame_eq]; rfl

@[simp] theorem cmdWithParams_spi (op : Byte) (ps : List Byte) (s : State) : (cmdWithParams op ps s).spi = s.spi := by
  rw [cmdWithParams_eq]; rfl

@[simp] theorem writePin_spi (p : Pin) (l : Level) (s : State) : (writePin p l s).spi = s.spi := rfl

@[simp] theorem sleepMs_spi (ms : Nat) (s : State) : (sleepMs ms s).spi = s.spi := rfl

/-! ### The initialisation sequence -/

theorem runs_prologue (c : Instr) {s : State} (h : s.spi.isSome) :
    Runs c prologueSteps s (initPower (initFrameRate (initReset s))) := by
  unfold prologueSteps initPower initFrameRate initReset
  have three : ∀ t : State, Runs c [.instr (.write .rst .low), .instr (.sleep tReset), .instr (.write .rst .high)] t
      (writePin .rst .high (sleepMs tReset (writePin .rst .low t))) := fun t =>
    (runs_write c .rst .low t).append ((runs_sleep c tReset _).append (runs_write c .rst .high _))
  dsimp only
  repeat' with_reducible first
    | exact runs_cmd c _ (by simpa using h)
    | refine Runs.snoc (runs_cmdWithParams c _ _ (by simpa using h)) ?_
    | refine Runs.snoc (runs_cmd c _ (by simpa using h)) ?_
    | refine Runs.snoc (runs_sleep c _ _) ?_
    | refine Runs.snoc (three _) ?_

theorem runs_variant (c : Instr) (v : Variant) (bgr : Bool) {s : State} (h : s.spi.isSome) :
    Runs c (variantSteps v bgr) s (initVariant v bgr s) := by
  unfold variantSteps initVariant
  cases v <;> dsimp only <;>
  repeat' with_reducible first
    | exact runs_cmd c _ (by simpa using h)
    | exact runs_cmdWithParams c _ _ (by simpa using h)
    | refine Runs.snoc (runs_cmdWithParams c _ _ (by simpa using h)) ?_
    | refine Runs.snoc (runs_cmd c _ (by simpa using h)) ?_

theorem runs_epilogue (c : Instr) {s : State} (h : s.spi.isSome) : Runs c epilogueSteps s (initEpilogue s) := by
  unfold epilogueSteps initEpilogue
  dsimp only
  repeat' with_reducible first
    | exact runs_cmdWithParams c _ _ (by simpa using h)
    | refine Runs.snoc (runs_cmdWithParams c _ _ (by simpa using h)) ?_
    | refine Runs.snoc (runs_cmd c _ (by simpa using h)) ?_
    | refine Runs.snoc (runs_sleep c _ _) ?_

theorem initVariant_spi (v : Variant) (bgr : Bool) (s : State) : (initVariant v bgr s).spi = s.spi := by
  cases v <;> simp [initVariant]

/-- Everything between the link and the backlight pin. -/
theorem runs_initBody (c : Instr) (v : Variant) (bgr : Bool) {s : State} (h : s.spi.isSome) :
    Runs c (prologueSteps ++ variantSteps v bgr ++ epilogueSteps) s (initBody v bgr s) := by
  have h1 : (initPower (initFrameRate (initReset s))).spi.isSome := by
    simpa [initPower, initFrameRate, initReset] using h
  have h2 : (initVariant v bgr (initPower (initFrameRate (initReset s)))).spi.isSome := by rwa [initVariant_spi]
  exact ((runs_prologue c h).append (runs_variant c v bgr h1)).append (runs_epilogue c h2)

/-- How a list that can fail ends: as `settle` says, the host's moves aside. -/
def SettlesTo (c : Instr) (L : List SeqStep) (s : State) : StepOut → Prop
  | .done t => Runs c L s t
  | .raised e t => Ends c L s (raiseError e { t with inbox := [] })

theorem SettlesTo.append {c : Instr} {L M : List SeqStep} {s : State} {r : StepOut} {f : State → StepOut}
    (h : SettlesTo c L s r) (k : ∀ t, r = .done t → SettlesTo c M t (f t)) : SettlesTo c (L ++ M) s (r.andThen f) := by
  cases r with
  | raised e t => exact Ends.append h
  | done t =>
    have h : Runs c L s t := h
    have k := k t rfl
    rw [StepOut.done_andThen]
    generalize f t = q at k
    cases q with
    | done u => exact h.append k
    | raised e u => exact h.ends k

theorem settlesTo_configureOutput (c : Instr) (p : Pin) (d : Drive) (l : Level) {s : State} (hp : s.phase = .exec c) :
    SettlesTo c [.instr (.configureOutput p d l)] s (configureOutput p d l s) := by
  have he : ({ s with phase := .exec c } : State) = s := by rw [← hp]
  rw [configureOutput_eq]
  split
  · next h => exact ends_configureOutput d l (by rw [he]; exact h)
  · next h => exact runs_configureOutput d l (by rw [he]; exact h)

theorem settlesTo_spiOpen (c : Instr) (req : ClockReq) {s : State} (hp : s.phase = .exec c) :
    SettlesTo c [.instr (.spiOpen req)] s (spiOpen req s) := by
  have he : ({ s with phase := .exec c } : State) = s := by rw [← hp]
  rw [spiOpen_eq]
  split
  · next h => exact ends_spiOpen req (by rw [he]; exact h)
  · next h => exact runs_spiOpen req (by rw [he]; exact h)

/-- A step that succeeds keeps the phase. -/
theorem configureOutput_done {p : Pin} {d : Drive} {l : Level} {s t : State} (h : configureOutput p d l s = .done t) :
    t.phase = s.phase ∧ t.spi = s.spi := by
  rw [configureOutput_eq] at h
  split at h <;> cases h
  exact ⟨rfl, rfl⟩

theorem spiOpen_done {req : ClockReq} {s t : State} (h : spiOpen req s = .done t) :
    t.phase = s.phase ∧ t.spi = some req := by
  rw [spiOpen_eq] at h
  split at h <;> cases h
  exact ⟨rfl, rfl⟩

theorem andThen_done {r : StepOut} {f : State → StepOut} {t : State} (h : r.andThen f = .done t) :
    ∃ u, r = .done u ∧ f u = .done t := by
  cases r with
  | done u => exact ⟨u, rfl, h⟩
  | raised e u => cases h

theorem runs_setReady (c : Instr) (s : State) : Runs c [.setReady] s (setReady s) := runs_one fun _ _ => rfl

/-- The sequence, step by step, in every outcome. -/
theorem settlesTo_initSequence (c : Instr) (v : Variant) (bgr : Bool) {s : State} (hp : s.phase = .exec c) :
    SettlesTo c (initSteps v bgr) s (initSequence v bgr s) := by
  have h1 := (settlesTo_configureOutput c .cs .od .high hp).append fun t ht =>
    settlesTo_configureOutput c .rst .pp .high ((configureOutput_done ht).1.trans hp)
  have p1 : ∀ t, (configureOutput .cs .od .high s).andThen (configureOutput .rst .pp .high) = .done t →
      t.phase = .exec c := by
    intro t ht
    obtain ⟨u, hu, hv⟩ := andThen_done ht
    exact (configureOutput_done hv).1.trans ((configureOutput_done hu).1.trans hp)
  have h2 := h1.append fun t ht => settlesTo_configureOutput c .dc .pp .high (p1 t ht)
  have p2 : ∀ t, initPins s = .done t → t.phase = .exec c := by
    intro t ht
    obtain ⟨u, hu, hv⟩ := andThen_done ht
    exact (configureOutput_done hv).1.trans (p1 u hu)
  have h3 := h2.append fun t ht => settlesTo_spiOpen c (clockReq v) (p2 t ht)
  have p3 : ∀ t, (initPins s).andThen (spiOpen (clockReq v)) = .done t → t.phase = .exec c ∧ t.spi.isSome := by
    intro t ht
    obtain ⟨u, hu, hv⟩ := andThen_done ht
    exact ⟨(spiOpen_done hv).1.trans (p2 u hu), by rw [(spiOpen_done hv).2]; rfl⟩
  have h4 := h3.append (f := fun s => configureOutput .led .od .low (initBody v bgr s))
    (M := (prologueSteps ++ variantSteps v bgr ++ epilogueSteps) ++ [.instr (.configureOutput .led .od .low)])
    fun t ht => by
      have hph : (initBody v bgr t).phase = .exec c := by rw [initBody_eq]; exact (p3 t ht).1
      have k := settlesTo_configureOutput c .led .od .low hph
      have hb := runs_initBody c v bgr (p3 t ht).2
      generalize configureOutput .led .od .low (initBody v bgr t) = q at k
      cases q with
      | done u => exact hb.append k
      | raised e u => exact hb.ends k
  have h5 := h4.append (f := fun s => .done (setReady s)) (M := [.setReady]) fun t _ => runs_setReady c t
  have hl : initSteps v bgr = [.instr (.configureOutput .cs .od .high)] ++ [.instr (.configureOutput .rst .pp .high)] ++
      [.instr (.configureOutput .dc .pp .high)] ++ [.instr (.spiOpen (clockReq v))] ++
      ((prologueSteps ++ variantSteps v bgr ++ epilogueSteps) ++ [.instr (.configureOutput .led .od .low)]) ++
      [.setReady] := by
    simp [initSteps]
  rw [hl]
  exact h5

/-- `Deinit()` (R192). -/
theorem runs_deinit (c : Instr) (s : State) : Runs c (deinitSteps s) s (deinit s) := by
  unfold deinitSteps deinit
  cases s.variant
  · exact Runs.nil c s
  · exact runs_teardown c s

/-! ### Streams -/

/-- What a stream reads of the state, and keeps. -/
def Streaming (w : Nat) (x : OperandRegs) (m : Memory) (n : Nat) (s : State) : Prop :=
  s.spi.isSome ∧ s.width.toNat = w ∧ s.regs = x ∧ s.mem = m ∧ s.line.length = n

theorem streaming_framed {w : Nat} {x : OperandRegs} {m : Memory} {n : Nat} {s : State} (h : Streaming w x m n s)
    (l : Level) (es : List Event) : Streaming w x m n (framed l es s) := h

theorem streaming_padFrame {w : Nat} {x : OperandRegs} {m : Memory} {n : Nat} {s : State} (h : Streaming w x m n s)
    (pad : Nat) : Streaming w x m n (padFrame pad s) := by
  unfold padFrame
  split
  · exact h
  · rw [zeroFrame_eq]; exact h

theorem streaming_convertPixel {w : Nat} {x : OperandRegs} {m : Memory} {n : Nat} {s : State}
    (h : Streaming w x m n s) (j a : Nat) : Streaming w x m n (convertPixel j a s) := by
  obtain ⟨h1, h2, h3, h4, h5⟩ := h
  exact ⟨h1, h2, h3, h4, by simpa [convertPixel] using h5⟩

theorem runs_pad (c : Instr) (pad : Nat) {s : State} (h : s.spi.isSome) :
    Runs c (padSteps pad) s (padFrame pad s) := by
  unfold padSteps padFrame
  split
  · exact Runs.nil c s
  · exact runs_zero c _ h

/-- A list repeated, for an operation repeated. -/
theorem runs_repeat {c : Instr} {P : State → Prop} {L : List SeqStep} {f : State → State}
    (h : ∀ s, P s → Runs c L s (f s) ∧ P (f s)) (n : Nat) {s : State} (hs : P s) :
    Runs c (List.replicate n L).flatten s (repeatOp n f s) ∧ P (repeatOp n f s) := by
  induction n generalizing s with
  | zero => exact ⟨Runs.nil c s, hs⟩
  | succ n ih =>
    obtain ⟨h1, h2⟩ := h s hs
    obtain ⟨k1, k2⟩ := ih h2
    exact ⟨h1.append k1, k2⟩

/-- A list for each index, for a loop. -/
theorem runs_for {c : Instr} {P : State → Prop} {g : Nat → List SeqStep} {f : Nat → State → State}
    (h : ∀ i s, P s → Runs c (g i) s (f i s) ∧ P (f i s)) (n lo : Nat) {s : State} (hs : P s) :
    Runs c ((List.range' lo n).map g).flatten s (forFrom lo n f s) ∧ P (forFrom lo n f s) := by
  induction n generalizing lo s with
  | zero => exact ⟨Runs.nil c s, hs⟩
  | succ n ih =>
    obtain ⟨h1, h2⟩ := h lo s hs
    obtain ⟨k1, k2⟩ := ih (lo + 1) h2
    exact ⟨h1.append k1, k2⟩

theorem flatten_singletons {α β : Type} (g : α → β) (xs : List α) : (xs.map fun a => [g a]).flatten = xs.map g := by
  induction xs with
  | nil => rfl
  | cons x xs ih => rw [List.map_cons, List.flatten_cons, ih]; rfl

theorem runs_convertRow (c : Instr) {w : Nat} {x : OperandRegs} {m : Memory} {n : Nat} (r : Rect) (i : Nat) {s : State}
    (h : Streaming w x m n s) :
    Runs c (convertSteps x r i) s (convertRow r i s) ∧ Streaming w x m n (convertRow r i s) := by
  have := runs_for (c := c) (P := Streaming w x m n)
    (g := fun j => [.convertPixel j (pixelAddr x .gs8 (r.x + j) (r.y + i))])
    (f := fun j s => convertPixel j (pixelAddr s.regs .gs8 (r.x + j) (r.y + i)) s)
    (fun j s hs => by
      rw [hs.2.2.1]
      exact ⟨runs_one fun _ _ => rfl, streaming_convertPixel hs j _⟩) r.w 0 h
  rwa [← List.range_eq_range', flatten_singletons] at this

/-- A byte step per index, where every step sends what a list of bytes has there. -/
theorem runs_byteSteps {c : Instr} {ks : List Nat} {st : Nat → SeqStep} {b : Nat → Byte} {s : State}
    (h : ∀ k (t : State) prog q, t.line = s.line → t.mem = s.mem → t.spi = s.spi →
      runSeqStep (st k) (atStep c prog q t) = .next (atStep c prog q (sendByte (b k) t))) :
    Runs c (ks.map st) s (emit (ks.map fun k => .spiByte (b k)) s) := by
  have gen : ∀ (ks : List Nat) (t : State), t.line = s.line → t.mem = s.mem → t.spi = s.spi →
      Runs c (ks.map st) t (emit (ks.map fun k => .spiByte (b k)) t) := by
    intro ks
    induction ks with
    | nil => intro t _ _ _; simpa [emit] using Runs.nil c t
    | cons k ks ih =>
      intro t h1 h2 h3
      have := Runs.cons (fun prog q => h k t prog q h1 h2 h3) (ih (sendByte (b k) t) h1 h2 h3)
      simpa [sendByte, emit] using this
  exact gen ks s rfl rfl rfl

theorem map_getD_range (ln : List Byte) (n : Nat) (h : n ≤ ln.length) :
    (List.range n).map (fun k => ln.getD k 0#8) = ln.take n := by
  apply List.ext_getElem
  · simp [h]
  · intro i hi hj
    simp at hi
    simp [List.getElem?_eq_getElem (show i < ln.length by omega)]

theorem runs_row (c : Instr) {w : Nat} {x : OperandRegs} {m : Memory} {n : Nat} (fmt : Fmt) (r : Rect) (i : Nat)
    {s : State} (h : Streaming w x m n s) (hn : 2 * r.w ≤ n) :
    Runs c (rowSteps x fmt r i) s (sendRow fmt r i s) ∧ Streaming w x m n (sendRow fmt r i s) := by
  have sends : ∀ (b : Byte) (t : State) prog q, t.spi.isSome →
      exec (.sendByte b) (atStep c prog q t) = .next (atStep c prog q (sendByte b t)) := by
    intro b t prog q ht
    obtain ⟨rq, hr⟩ := Option.isSome_iff_exists.1 ht
    simp [exec, execSendByte, requireSession, atStep, hr, sendByte, emit]
  cases fmt with
  | gs8 =>
    obtain ⟨h1, h2⟩ := runs_convertRow c r i h
    have hf : Runs c (frameSteps .high ((List.range (2 * r.w)).map .sendLineByte)) (convertRow r i s)
        (sendLine r (convertRow r i s)) := by
      unfold sendLine dataFrame sendBytes
      refine runs_frame ?_
      have := runs_byteSteps (c := c) (ks := List.range (2 * r.w)) (st := SeqStep.sendLineByte)
        (b := fun k => (convertRow r i s).line.getD k 0#8)
        (s := writePin .dc .high (writePin .cs .low (convertRow r i s)))
        (fun k t prog q e1 _ e3 => by
          have := sends (t.line.getD k 0#8) t prog q (by rw [e3]; exact h2.1)
          rw [e1] at this
          simp only [runSeqStep]
          rw [show (atStep c prog q t).line = t.line from rfl, e1]
          exact this)
      rw [← map_getD_range _ _ (by rw [h2.2.2.2.2]; exact hn), List.map_map]
      exact this
    refine ⟨h1.append hf, ?_⟩
    have : sendRow .gs8 r i s = framed .high (dFrame ((convertRow r i s).line.take (2 * r.w))) (convertRow r i s) := by
      simp only [sendRow, sendLine, dataFrame_eq]
    rw [this]
    exact h2
  | rgb565 =>
    have hx := h.2.2.1
    have hm := h.2.2.2.1
    refine ⟨?_, ?_⟩
    · unfold sendRow sendRgbRow dataFrame sendBytes
      refine runs_frame ?_
      rw [List.take_of_length_le (by simp), List.map_map]
      have := runs_byteSteps (c := c) (ks := List.range (2 * r.w))
        (st := fun k => SeqStep.sendImageByte (pixelAddr x .rgb565 r.x (r.y + i) + k))
        (b := fun k => imgRead8 s.mem (pixelAddr s.regs .rgb565 r.x (r.y + i) + k))
        (s := writePin .dc .high (writePin .cs .low s))
        (fun k t prog q _ e2 e3 => by
          have := sends (imgRead8 t.mem (pixelAddr x .rgb565 r.x (r.y + i) + k)) t prog q (by rw [e3]; exact h.1)
          rw [e2] at this
          simp only [runSeqStep]
          rw [show (atStep c prog q t).mem = t.mem from rfl, e2, hx]
          exact this)
      exact this
    · simp only [sendRow, sendRgbRow, dataFrame_eq]
      exact h

theorem runs_windowReset (c : Instr) {s : State} (h : s.spi.isSome) :
    Runs c (windowResetSteps s.variant) s (windowReset s) := by
  unfold windowReset windowResetSteps
  cases hv : s.variant with
  | none => exact Runs.nil c s
  | some v =>
    cases v with
    | shield18 => exact Runs.nil c s
    | shield096 => exact (runs_cmdWithParams c _ _ h).append (runs_cmdWithParams c _ _ (by simpa using h))

theorem streaming_start {w : Nat} {x : OperandRegs} {m : Memory} {n : Nat} {s : State} (h : Streaming w x m n s) :
    Streaming w x m n (cmdFrame 0x2C#8 (windowReset s)) := by
  rw [cmdFrame_eq]
  refine streaming_framed ?_ _ _
  unfold windowReset
  split
  · rw [cmdWithParams_eq, cmdWithParams_eq]; exact h
  · exact h

theorem runs_start (c : Instr) {s : State} (h : s.spi.isSome) :
    Runs c (windowResetSteps s.variant ++ cmdSteps 0x2C#8) s (cmdFrame 0x2C#8 (windowReset s)) := by
  refine (runs_windowReset c h).append (runs_cmd c _ ?_)
  unfold windowReset
  split
  · simpa using h
  · exact h

/-- The rows of zeros before and after the image, and of a clear. -/
theorem runs_zeroRows (c : Instr) {w : Nat} {x : OperandRegs} {m : Memory} {n : Nat} (k : Nat) {s : State}
    (h : Streaming w x m n s) :
    Runs c (List.replicate k (zeroSteps (2 * w))).flatten s (repeatOp k zeroRow s) ∧
      Streaming w x m n (repeatOp k zeroRow s) := by
  refine runs_repeat (fun t ht => ⟨?_, ?_⟩) k h
  · rw [zeroRow, ht.2.1]; exact runs_zero c _ ht.1
  · rw [zeroRow, zeroFrame_eq]; exact ht

/-- `Pump`, step by step (R176). -/
theorem runs_pump (c : Instr) (fmt : Fmt) (g : Work) {s : State} (h : s.spi.isSome)
    (hn : 2 * g.rect.w ≤ s.line.length) :
    Runs c (pumpSteps s fmt g) s (pump fmt g.rect g.lPad g.rPad g.tPad g.bPad s) := by
  have h0 : Streaming s.width.toNat s.regs s.mem s.line.length s := ⟨h, rfl, rfl, rfl, rfl⟩
  obtain ⟨k1, k2⟩ := runs_zeroRows c g.tPad (streaming_start h0)
  obtain ⟨k3, k4⟩ := runs_for (c := c) (P := Streaming s.width.toNat s.regs s.mem s.line.length)
    (g := fun i => padSteps g.lPad ++ rowSteps s.regs fmt g.rect i ++ padSteps g.rPad)
    (f := pumpRow fmt g.rect g.lPad g.rPad)
    (fun i t ht => by
      have a := streaming_padFrame ht g.lPad
      obtain ⟨b1, b2⟩ := runs_row c fmt g.rect i a hn
      exact ⟨((runs_pad c _ ht.1).append b1).append (runs_pad c _ b2.1), streaming_padFrame b2 _⟩)
    g.rect.h 0 k2
  obtain ⟨k5, -⟩ := runs_zeroRows c g.bPad k4
  rw [← List.range_eq_range'] at k3
  exact (((runs_start c h).append k1).append k3).append k5

/-- `ClearStream`, step by step (R184). -/
theorem runs_clear (c : Instr) {s : State} (h : s.spi.isSome) : Runs c (clearSteps s) s (clearStream s) := by
  have h0 : Streaming s.width.toNat s.regs s.mem s.line.length s := ⟨h, rfl, rfl, rfl, rfl⟩
  exact (runs_start c h).append (runs_zeroRows c s.height.toNat (streaming_start h0)).1

end Sys2Proof.Machine
end

