-- ==== Sys2Proof/Tests/Slice0.lean ====
section
/-! SUPPORT. The model's own tests: ill-formed terms refused, words written out from 30_encoding.md decoded, one step of
each operation against spec/95_test_vectors.md or a hand calculation from the rules, and for every statement with
hypotheses a witness that meets them. -/

namespace Sys2Proof.Tests

open Sys2Proof Sys2Proof.Machine

/-! ### Helpers -/

/-- A field of the next state, if there is one. -/
def after {α : Type} (o : Host.Outcome State Fault Refusal) (f : State → α) : Option α :=
  match o with
  | .next s => some (f s)
  | .fault _ => none
  | .refused _ => none

/-- An initialised, idle block: `S18` or `S096` of 95_test_vectors.md, with an empty trace. -/
def ready (v : Variant) : State :=
  { State.reset with
    variant := some v, width := panelW v, height := panelH v, spi := some (clockReq v), backlightReady := true,
    pads := ⟨⟨.outPP, .high⟩, ⟨.outPP, .low⟩, ⟨.outOD, .high⟩, ⟨.outOD, .low⟩⟩ }

/-- A block of a 4 x 2 panel, so that a stream is small. -/
def tiny : State := { ready .shield18 with width := 4#8, height := 2#8 }

/-- Inside an `INIT` from `S0`, with the draw `a`. -/
def initing (a : Acq) : State := { State.reset with phase := .exec (.init none none), acq := a }

/-- Image registers for a w x h mutable image at address 0. -/
def image (w h : Half) (fmt : Byte) : OperandRegs := ⟨0#32, w, h, fmt, 1#1, 0#16, 0#16, 0#16, 0#16⟩

/-! ### Ill-formed terms -/

theorem test_wf_configure_drive : (Instr.configureOutput .cs .pp .high).wellFormed = false := by decide
theorem test_wf_configure_level : (Instr.configureOutput .rst .pp .low).wellFormed = false := by decide
theorem test_wf_configure_led : (Instr.configureOutput .led .od .high).wellFormed = true := by decide
theorem test_wf_read : (Instr.read .cs).wellFormed = false := by decide
theorem test_wf_open_hz : (Instr.spiOpen (.hz 9000000)).wellFormed = false := by decide
theorem test_wf_open_div : (Instr.spiOpen (.div 4)).wellFormed = false := by decide
theorem test_wf_sendBytes_short : (Instr.sendBytes [0#8] 2).wellFormed = false := by decide
theorem test_wf_sendBytes_long (buf : List Byte) : (Instr.sendBytes buf 321).wellFormed = false := by
  simp [Instr.wellFormed]
theorem test_wf_cmd : (Instr.cmd 0x02#8).wellFormed = false := by decide
theorem test_wf_cmdWithParams_op : (Instr.cmdWithParams 0x00#8 []).wellFormed = false := by decide
theorem test_wf_cmdWithParams_params : (Instr.cmdWithParams 0xE0#8 (List.replicate 17 0#8)).wellFormed = false := by
  simp [Instr.wellFormed]
theorem test_wf_data_short : (Instr.data [] 1).wellFormed = false := by decide
theorem test_wf_data_long (buf : List Byte) : (Instr.data buf 321).wellFormed = false := by
  simp [Instr.wellFormed]
theorem test_wf_sleep : (Instr.sleep 11).wellFormed = false := by decide
theorem test_wf_geometry_rect : (Instr.geometry ⟨65536, 0, 1, 1⟩ 128 160).wellFormed = false := by decide
theorem test_wf_geometry_panel : (Instr.geometry ⟨0, 0, 1, 1⟩ 160 128).wellFormed = false := by decide
theorem test_wf_pump_rect : (Instr.pump .gs8 ⟨0, 65536, 128, 160⟩ 0 0 0 0).wellFormed = false := by decide
theorem test_wf_pump_panel : (Instr.pump .gs8 ⟨0, 0, 127, 160⟩ 0 0 0 0).wellFormed = false := by decide

/-! ### Decoding: words written out from R70 to R73, R77 and R79 (T30) -/

theorem test_decode_init : decode (.host 0b0001_0111_00000010#16) = .instr (.init (some 2#8) (some true)) := by decide
theorem test_decode_init_defaults : decode (.host 0b0001_0000_00000000#16) = .instr (.init none none) := by decide
theorem test_decode_init_bgr : decode (.host 0b0001_0010_00000000#16) = .instr (.init none (some false)) := by decide
theorem test_decode_deinit : decode (.host 0b0010_000000000000#16) = .instr .deinit := by decide
theorem test_decode_width : decode (.host 0b0011_000000000000#16) = .instr .width := by decide
theorem test_decode_height : decode (.host 0b0100_000000000000#16) = .instr .height := by decide
theorem test_decode_type : decode (.host 0b0101_000000000000#16) = .instr .type := by decide
theorem test_decode_setBacklight :
    decode (.host 0b0110_100000000101#16) = .instr (.setBacklight 0b100000000101#12) := by decide
theorem test_decode_getBacklight : decode (.host 0b0111_000000000000#16) = .instr .getBacklight := by decide
theorem test_decode_display : decode (.host 0b1000_000000000001#16) = .instr (.display true) := by decide
theorem test_decode_clear : decode (.host 0b1001_000000000000#16) = .instr .clear := by decide
theorem test_decode_swreset : decode (.wire 0b0_00000001#9) = .instr .swreset := by decide
theorem test_decode_slpout : decode (.wire 0b0_00010001#9) = .instr .slpout := by decide
theorem test_decode_noron : decode (.wire 0b0_00010011#9) = .instr .noron := by decide
theorem test_decode_invoff : decode (.wire 0b0_00100000#9) = .instr .invoff := by decide
theorem test_decode_invon : decode (.wire 0b0_00100001#9) = .instr .invon := by decide
theorem test_decode_dispon : decode (.wire 0b0_00101001#9) = .instr .dispon := by decide
theorem test_decode_caset : decode (.wire 0b0_00101010#9) = .instr .caset := by decide
theorem test_decode_raset : decode (.wire 0b0_00101011#9) = .instr .raset := by decide
theorem test_decode_ramwr : decode (.wire 0b0_00101100#9) = .instr .ramwr := by decide
theorem test_decode_madctl : decode (.wire 0b0_00110110#9) = .instr .madctl := by decide
theorem test_decode_colmod : decode (.wire 0b0_00111010#9) = .instr .colmod := by decide
theorem test_decode_frmctr1 : decode (.wire 0b0_10110001#9) = .instr .frmctr1 := by decide
theorem test_decode_frmctr2 : decode (.wire 0b0_10110010#9) = .instr .frmctr2 := by decide
theorem test_decode_frmctr3 : decode (.wire 0b0_10110011#9) = .instr .frmctr3 := by decide
theorem test_decode_invctr : decode (.wire 0b0_10110100#9) = .instr .invctr := by decide
theorem test_decode_pwctr1 : decode (.wire 0b0_11000000#9) = .instr .pwctr1 := by decide
theorem test_decode_pwctr2 : decode (.wire 0b0_11000001#9) = .instr .pwctr2 := by decide
theorem test_decode_pwctr3 : decode (.wire 0b0_11000010#9) = .instr .pwctr3 := by decide
theorem test_decode_pwctr4 : decode (.wire 0b0_11000011#9) = .instr .pwctr4 := by decide
theorem test_decode_pwctr5 : decode (.wire 0b0_11000100#9) = .instr .pwctr5 := by decide
theorem test_decode_vmctr1 : decode (.wire 0b0_11000101#9) = .instr .vmctr1 := by decide
theorem test_decode_gmctrp : decode (.wire 0b0_11100000#9) = .instr .gmctrp := by decide
theorem test_decode_gmctrn : decode (.wire 0b0_11100001#9) = .instr .gmctrn := by decide
theorem test_decode_data : decode (.wire 0b1_10000100#9) = .instr (.dataOrParameterByte 0x84#8) := by decide

/-- The illegal host words of T30, and a DC-low symbol outside R79. -/
theorem test_decode_rejects :
    decode (.host 0x0000#16) = .reject .reservedOpcode ∧ decode (.host 0xA000#16) = .reject .reservedOpcode ∧
    decode (.host 0xFFFF#16) = .reject .reservedOpcode ∧ decode (.host 0x1800#16) = .reject .mustBeZero ∧
    decode (.host 0x1C01#16) = .reject .mustBeZero ∧ decode (.host 0x1100#16) = .reject .bgrNotGiven ∧
    decode (.host 0x1003#16) = .reject .typeNotGiven ∧ decode (.host 0x2001#16) = .reject .mustBeZero ∧
    decode (.host 0x4800#16) = .reject .mustBeZero ∧ decode (.host 0x7001#16) = .reject .mustBeZero ∧
    decode (.host 0x8002#16) = .reject .mustBeZero ∧ decode (.host 0x9001#16) = .reject .mustBeZero ∧
    decode (.wire 0x002#9) = .reject .notACommandByte := by decide

/-- Words of both formats as the opcode table numbers them. -/
theorem test_table_words :
    decodeTableWord 16 0x9000 = some .clear ∧ decodeTableWord 16 0x02C = some .ramwr ∧
    decodeTableWord 16 0x1FF = some (.dataOrParameterByte 0xFF#8) ∧ decodeTableWord 16 0x002 = none ∧
    decodeTableWord 16 0x2001 = none ∧ decodeTableWord 16 0x10000 = none := by decide

theorem test_encode_init : encode (.init (some 1#8) (some true)) = some (.host 0x1701#16) := by decide
theorem test_encode_display : encode (.display true) = some (.host 0x8001#16) := by decide
theorem test_encode_step : encode (.write .cs .low) = none := by decide

/-! ### Level H, one step (T1, T13, T16, T22, T46, T60) -/

theorem test_init_fails_at_rst :
    let o := exec (.init (some 1#8) none) { State.reset with acqQueue := [.gpioFail .rst] }
    after o (·.trace) =
      some [.pinCfg .cs .od .high, .pinRelease .rst, .pinRelease .dc, .pinRelease .cs] ∧
    after o (·.result) = some 0x8002#16 := by decide

set_option maxRecDepth 20000 in
theorem test_init_events :
    let o := exec (.init (some 1#8) none) { State.reset with acqQueue := [.ok] }
    after o (fun s => s.trace.take 10) =
      some [.pinCfg .cs .od .high, .pinCfg .rst .pp .high, .pinCfg .dc .pp .high, .spiOpen (.hz 15151515),
        .pinWrite .cs .low, .pinWrite .dc .low, .spiByte 0x01#8, .pinWrite .cs .high, .pinWrite .rst .low, .delay 120] ∧
    after o (fun s => (s.trace.length, s.result, s.variant)) = some (352, 0x0000#16, some .shield18) := by decide

theorem test_deinit : after (exec .deinit (ready .shield096)) (fun s => (s.trace, s.spi, s.variant, s.width)) =
    some ([.pinRelease .rst, .pinRelease .dc, .pinRelease .cs, .spiClose, .pinRelease .led], none, none, 0#8) := by
  decide

theorem test_width : after (exec .width (ready .shield096)) (·.result) = some 0x40A0#16 := by decide
theorem test_width_uninitialised : after (exec .width State.reset) (·.result) = some 0x0000#16 := by decide
theorem test_height : after (exec .height (ready .shield096)) (·.result) = some 0x4050#16 := by decide
theorem test_type : after (exec .type (ready .shield096)) (·.result) = some 0x4002#16 := by decide
theorem test_setBacklight_off : after (exec (.setBacklight 0#12) (ready .shield18)) (fun s => (s.trace, s.pads.led)) =
    some ([.pinWrite .led .high], ⟨.outOD, .high⟩) := by decide
theorem test_setBacklight_on : after (exec (.setBacklight 0x800#12) (ready .shield18)) (·.trace) =
    some [.pinWrite .led .low] := by decide
theorem test_getBacklight : after (exec .getBacklight (ready .shield18)) (·.result) = some 0x4001#16 := by decide

/-- R161, R162, R176, R178 by hand: a 2 x 1 gs8 image on the tiny panel, pads 1, 1, 0 and 1; T10: 0x80 is 8410. -/
theorem test_display : after (exec (.display false)
      { tiny with regs := image 2#16 1#16 1#8, mem := [(0, 0x80#8), (1, 0xFF#8)] })
      (fun s => (s.trace, s.line.take 4)) =
    some (cFrame 0x2C#8 ++ dFrame [0#8, 0#8] ++ dFrame [0x84#8, 0x10#8, 0xFF#8, 0xFF#8] ++ dFrame [0#8, 0#8] ++
      dFrame [0#8, 0#8, 0#8, 0#8, 0#8, 0#8, 0#8, 0#8], [0x84#8, 0x10#8, 0xFF#8, 0xFF#8]) := by decide

theorem test_display_bad_roi : after (exec (.display true)
      { tiny with regs := { image 2#16 1#16 1#8 with roiX := 2#16, roiW := 1#16 } }) (fun s => (s.result, s.trace)) =
    some (0x8005#16, []) := by decide

theorem test_clear : after (exec .clear tiny) (fun s => (s.trace, s.result)) =
    some (cFrame 0x2C#8 ++ dFrame (List.replicate 8 0#8) ++ dFrame (List.replicate 8 0#8), 0x0000#16) := by decide

/-! ### Level S, one step (T40, T41, T42, T44, T45) -/

theorem test_configureOutput : after (exec (.configureOutput .cs .od .high) State.reset) (fun s => (s.trace, s.pads.cs)) =
    some ([.pinCfg .cs .od .high], ⟨.outOD, .high⟩) := by decide
theorem test_configureOutput_fails :
    after (exec (.configureOutput .led .od .low) (initing (.gpioFail .led))) (fun s => (s.trace, s.seqPc, s.program)) =
    some ([], 0, [.instr (.release .rst), .instr (.release .dc), .instr (.release .cs), .instr .spiClose, .clearDriver,
      .post (.err 2)]) := by decide
theorem test_write : after (exec (.write .cs .low) (ready .shield18)) (fun s => (s.trace, s.pads.cs)) =
    some ([.pinWrite .cs .low], ⟨.outOD, .low⟩) := by decide
theorem test_read : after (exec (.read .led) { ready .shield18 with pads := { (ready .shield18).pads with
    led := ⟨.outOD, .high⟩ } }) (·.value) = some 1#16 := by decide
theorem test_release : after (exec (.release .rst) (ready .shield18)) (fun s => (s.trace, s.pads.rst)) =
    some ([.pinRelease .rst], ⟨.hiZ, .high⟩) := by decide
theorem test_spiOpen : after (exec (.spiOpen (.div 8)) State.reset) (fun s => (s.trace, s.spi)) =
    some ([.spiOpen (.div 8)], some (.div 8)) := by decide
theorem test_spiOpen_fails : after (exec (.spiOpen (.div 8)) (initing .spiFail)) (fun s => (s.trace, s.seqPc, s.program)) =
    some ([.spiOpen (.div 8)], 0, [.instr (.release .rst), .instr (.release .dc), .instr (.release .cs),
      .instr .spiClose, .clearDriver, .post (.err 1)]) := by decide
theorem test_sendByte : after (exec (.sendByte 0x5A#8) (ready .shield18)) (·.trace) = some [.spiByte 0x5A#8] := by
  decide
theorem test_sendByte_no_session : exec (.sendByte 0x5A#8) State.reset = .fault .sendWithoutSession := by rfl
theorem test_sendBytes : after (exec (.sendBytes [1#8, 2#8, 3#8] 2) (ready .shield18)) (·.trace) =
    some [.spiByte 1#8, .spiByte 2#8] := by decide
theorem test_spiClose : after (exec .spiClose (ready .shield18)) (fun s => (s.trace, s.spi)) =
    some ([.spiClose], none) := by decide
theorem test_spiClose_absent : after (exec .spiClose State.reset) (·.trace) = some [] := by decide
theorem test_cmd : after (exec (.cmd 0x29#8) (ready .shield18)) (fun s => (s.trace, s.pads.dc)) =
    some ([.pinWrite .cs .low, .pinWrite .dc .low, .spiByte 0x29#8, .pinWrite .cs .high], ⟨.outPP, .low⟩) := by decide
theorem test_param : after (exec (.param 0x0E#8) (ready .shield18)) (fun s => (s.trace, s.pads.dc)) =
    some ([.pinWrite .cs .low, .pinWrite .dc .high, .spiByte 0x0E#8, .pinWrite .cs .high], ⟨.outPP, .high⟩) := by decide
theorem test_cmdWithParams : after (exec (.cmdWithParams 0xB4#8 [0x07#8]) (ready .shield18)) (·.trace) =
    some [.pinWrite .cs .low, .pinWrite .dc .low, .spiByte 0xB4#8, .pinWrite .cs .high,
      .pinWrite .cs .low, .pinWrite .dc .high, .spiByte 0x07#8, .pinWrite .cs .high] := by decide
theorem test_data_empty : after (exec (.data [9#8] 0) (ready .shield18)) (·.trace) =
    some [.pinWrite .cs .low, .pinWrite .dc .high, .pinWrite .cs .high] := by decide
theorem test_sleep : after (exec (.sleep 120) State.reset) (·.trace) = some [.delay 120] := by decide

/-- R149: an unconnected DC pad stops the sequence after CS and RST. -/
theorem test_initSequence_fails_at_dc : after (exec (.initSequence .shield096 true) (initing (.gpioFail .dc)))
    (fun s => (s.trace, s.result)) =
    some ([.pinCfg .cs .od .high, .pinCfg .rst .pp .high, .pinRelease .rst, .pinRelease .dc, .pinRelease .cs],
      0x8002#16) := by decide

set_option maxRecDepth 20000 in
/-- R151: the 352 events end with the backlight pin; MADCTL carries A8. -/
theorem test_initSequence : after (exec (.initSequence .shield096 true) State.reset)
    (fun s => (s.trace.length, s.trace.getLast?, s.trace.contains (.spiByte 0xA8#8), s.backlightReady)) =
    some (352, some (.pinCfg .led .od .low), true, true) := by decide

/-- T44: a 131-wide rectangle is cropped by 1 on the left and 2 on the right; a height of 81 pads by 39 and 40. -/
theorem test_geometry : after (exec (.geometry ⟨5, 7, 131, 81⟩ 128 160) State.reset) (·.work) =
    some ⟨⟨6, 7, 128, 81⟩, 0, 0, 39, 40⟩ := by decide

theorem test_gs2rgb565 : after (exec (.gs2rgb565 128#8) State.reset) (·.value) = some 0x8410#16 := by decide

/-- R180: the bytes of rgb565 pixels in address order. -/
theorem test_pump_rgb565 : after (exec (.pump .rgb565 ⟨1, 0, 2, 1⟩ 0 1 0 0)
      { tiny with regs := image 3#16 1#16 2#8, mem := [(2, 0xF8#8), (4, 0x12#8), (5, 0x34#8)] }) (·.trace) =
    some (cFrame 0x2C#8 ++ dFrame [0xF8#8, 0x00#8, 0x12#8, 0x34#8] ++ dFrame [0#8, 0#8]) := by decide

/-- R174: the two-byte window reset of Shield_0_96 comes first; R178: high byte first. -/
theorem test_pump_gs8 : after (exec (.pump .gs8 ⟨0, 0, 1, 1⟩ 0 0 0 0)
      { tiny with variant := some .shield096, regs := image 1#16 1#16 1#8, mem := [(0, 4#8)] }) (·.trace) =
    some (cFrame 0x2A#8 ++ dFrame [0#8] ++ dFrame [1#8] ++ cFrame 0x2B#8 ++ dFrame [0#8] ++ dFrame [0x1A#8] ++
      cFrame 0x2C#8 ++ dFrame [0x00#8, 0x20#8]) := by decide

theorem test_clearStream : after (exec .clearStream tiny) (·.trace) =
    some (cFrame 0x2C#8 ++ dFrame (List.replicate 8 0#8) ++ dFrame (List.replicate 8 0#8)) := by decide

theorem test_rollback : after (exec .rollback { State.reset with spi := some (.div 8) }) (fun s => (s.trace, s.spi)) =
    some ([.pinRelease .rst, .pinRelease .dc, .pinRelease .cs, .spiClose], none) := by decide

/-! ### Level W, one step: the symbol's own frame (R78, R110, R111) -/

/-- What a command symbol sends. -/
def sent (i : Instr) : Option (List Event) := after (exec i (ready .shield18)) (·.trace)

theorem test_swreset : sent .swreset = some (cFrame 0x01#8) := by decide
theorem test_slpout : sent .slpout = some (cFrame 0x11#8) := by decide
theorem test_noron : sent .noron = some (cFrame 0x13#8) := by decide
theorem test_invoff : sent .invoff = some (cFrame 0x20#8) := by decide
theorem test_invon : sent .invon = some (cFrame 0x21#8) := by decide
theorem test_dispon : sent .dispon = some (cFrame 0x29#8) := by decide
theorem test_caset : sent .caset = some (cFrame 0x2A#8) := by decide
theorem test_raset : sent .raset = some (cFrame 0x2B#8) := by decide
theorem test_ramwr : sent .ramwr = some (cFrame 0x2C#8) := by decide
theorem test_madctl : sent .madctl = some (cFrame 0x36#8) := by decide
theorem test_colmod : sent .colmod = some (cFrame 0x3A#8) := by decide
theorem test_frmctr1 : sent .frmctr1 = some (cFrame 0xB1#8) := by decide
theorem test_frmctr2 : sent .frmctr2 = some (cFrame 0xB2#8) := by decide
theorem test_frmctr3 : sent .frmctr3 = some (cFrame 0xB3#8) := by decide
theorem test_invctr : sent .invctr = some (cFrame 0xB4#8) := by decide
theorem test_pwctr1 : sent .pwctr1 = some (cFrame 0xC0#8) := by decide
theorem test_pwctr2 : sent .pwctr2 = some (cFrame 0xC1#8) := by decide
theorem test_pwctr3 : sent .pwctr3 = some (cFrame 0xC2#8) := by decide
theorem test_pwctr4 : sent .pwctr4 = some (cFrame 0xC3#8) := by decide
theorem test_pwctr5 : sent .pwctr5 = some (cFrame 0xC4#8) := by decide
theorem test_vmctr1 : sent .vmctr1 = some (cFrame 0xC5#8) := by decide
theorem test_gmctrp : sent .gmctrp = some (cFrame 0xE0#8) := by decide
theorem test_gmctrn : sent .gmctrn = some (cFrame 0xE1#8) := by decide
theorem test_dataOrParameterByte : sent (.dataOrParameterByte 0x84#8) = some (dFrame [0x84#8]) := by decide

/-! ### The step and the placed word -/

theorem test_step_illegal : after (step { State.reset with inbox := [.writeCmd 0xA000#16] }) (·.result) =
    some 0x8004#16 := by decide
theorem test_step_placed_host : after (step (State.reset.withFetchWord 16 0x3000)) (fun s => (s.result, s.cmd)) =
    some (0x0000#16, 0x3000#16) := by decide
theorem test_step_placed_wire : after (step (State.reset.withFetchWord 16 0x02C)) (fun s => (s.trace, s.seqPc)) =
    some (cFrame 0x2C#8, 1) := by decide
theorem test_step_status_busy : after (step { initing .ok with inbox := [.readStatus] }) (·.readData) = some 1#32 := by
  decide
theorem test_step_image_write : after (step { State.reset with inbox := [.writeImage 7#32 0x55#8], mem := [(9, 1#8)] })
    (·.mem) = some [(7, 0x55#8), (9, 1#8)] := by decide
theorem test_step_image_clear : after (step { State.reset with inbox := [.writeImage 7#32 0#8], mem := [(7, 1#8)] })
    (·.mem) = some [] := by decide
/-- Two pads released, the third not yet: a wire history inside a rollback (R27, R215). -/
theorem test_run_inside_rollback : after (Host.Core.run core 3 { initing .spiFail with
    program := [.instr (.spiOpen (.div 8))] }) (fun s => (s.trace, s.busy)) =
    some ([.spiOpen (.div 8), .pinRelease .rst, .pinRelease .dc], true) := by decide
/-- An illegal word, then `WIDTH` in `S18`: both result words stand in the observation (R256). -/
theorem test_run_observation : after (Host.Core.run core 2 { ready .shield18 with
    inbox := [.writeCmd 0xA000#16, .writeCmd 0x3000#16] }) (·.observation) = some ([0x8004#16, 0x4080#16], []) := by decide
theorem test_reset_memory : State.reset.mem.wf = true := rfl

/-! ### Witnesses: for each statement with hypotheses, states and operands that meet all of them, clause by clause -/

theorem idle_reset : Idle State.reset := ⟨rfl, rfl, rfl⟩
theorem idle_ready (v : Variant) : Idle (ready v) := ⟨rfl, rfl, rfl⟩
theorem s0_reset : IsS0 State.reset := ⟨rfl, rfl, rfl, rfl, rfl, rfl, rfl, rfl, rfl⟩
theorem isInit_ready (v : Variant) : IsInit v (ready v) := ⟨rfl, rfl, rfl, rfl, rfl, rfl, rfl, rfl, rfl⟩
theorem driverInv_reset : DriverInv State.reset := .inl s0_reset
theorem driverInv_ready18 : DriverInv (ready .shield18) := .inr (.inl (isInit_ready _))
theorem driverInv_ready096 : DriverInv (ready .shield096) := .inr (.inr (isInit_ready _))
theorem streamReady_ready (v : Variant) : StreamReady v (ready v) := ⟨isInit_ready v, List.length_replicate⟩

theorem witness_DecodeOfEncodeIsTheInstruction :
    (Instr.init (some 255#8) (some false)).wellFormed = true ∧ (Instr.init none none).level ≠ .step ∧
    (Instr.setBacklight 0xFFF#12).wellFormed = true ∧ (Instr.setBacklight 0xFFF#12).level ≠ .step ∧
    (Instr.dataOrParameterByte 0#8).wellFormed = true ∧ (Instr.dataOrParameterByte 0#8).level ≠ .step := by decide

theorem witness_EveryDecodedWordIsTheEncoding :
    decode (.host 0x17FF#16) = .instr (.init (some 255#8) (some true)) ∧ decode (.wire 0x100#9) =
      .instr (.dataOrParameterByte 0#8) := by decide

theorem witness_CmdWriteRunsTheDecodedCommand :
    let s := { ready .shield18 with inbox := [.writeCmd 0x3000#16] }
    let t := { ready .shield18 with inbox := [.writeCmd 0x1100#16] }
    (s.inbox = .writeCmd 0x3000#16 :: [] ∧ Idle s ∧ decode (.host 0x3000#16) = .instr .width) ∧
    (t.inbox = .writeCmd 0x1100#16 :: [] ∧ Idle t ∧ decode (.host 0x1100#16) = .reject .bgrNotGiven) :=
  ⟨⟨rfl, ⟨rfl, rfl, rfl⟩, by decide⟩, rfl, ⟨rfl, rfl, rfl⟩, by decide⟩

/-- One list with every kind of entry, and the place past its end. -/
theorem witness_SequencerStepRunsTheStepAtSeqPc :
    let at_ (k : Nat) := { ready .shield18 with phase := .exec .clear, seqPc := k, program :=
      [.instr (.write .cs .low), .drawAcq, .setDriver .shield096, .clearDriver, .setReady, .convertPixel 159 0,
       .sendLineByte 319, .sendImageByte 4294967296, .raise .badRoi, .raise .spiUnavailable, .post (.int 160)] }
    ((∀ k, (at_ k).inbox = [] ∧ (at_ k).phase = .exec .clear) ∧ (at_ 11).program[11]? = none ∧
      (at_ 0).program[0]? = some (.instr (.write .cs .low)) ∧ (at_ 1).program[1]? = some .drawAcq ∧
      (at_ 2).program[2]? = some (.setDriver .shield096) ∧ (at_ 3).program[3]? = some .clearDriver ∧
      (at_ 4).program[4]? = some .setReady ∧ (at_ 5).program[5]? = some (.convertPixel 159 0) ∧
      (at_ 6).program[6]? = some (.sendLineByte 319) ∧ (at_ 7).program[7]? = some (.sendImageByte 4294967296) ∧
      ((at_ 8).program[8]? = some (.raise .badRoi) ∧ ErrKind.badRoi.rollsBack = false) ∧
      ((at_ 9).program[9]? = some (.raise .spiUnavailable) ∧ ErrKind.spiUnavailable.rollsBack = true) ∧
      (at_ 10).program[10]? = some (.post (.int 160))) ∧
    (State.reset.inbox = [] ∧ State.reset.phase = .idle) :=
  ⟨⟨fun _ => ⟨rfl, rfl⟩, rfl, rfl, rfl, rfl, rfl, rfl, rfl, rfl, rfl, ⟨rfl, rfl⟩, ⟨rfl, rfl⟩, rfl⟩, rfl, rfl⟩

theorem witness_PlacedWordRunsNext :
    (decodeTableWord 16 0x1000 = some (.init none none) ∧ (0x1000 : Nat) < 2 ^ 16) ∧
    (decodeTableWord 16 0x001 = some .swreset ∧ (0x001 : Nat) < 2 ^ 16 ∧ State.reset.spi = none) ∧
    (decodeTableWord 16 0x1FF = some (.dataOrParameterByte 255#8) ∧ (ready .shield18).spi ≠ none) := by decide

theorem witness_CmdWriteWhileBusyIsIgnored :
    (initing .ok).busy = true ∧
    ({ initing .ok with inbox := [.writeCmd 0x9000#16] } : State).inbox = .writeCmd 0x9000#16 :: [] ∧
    ({ initing .ok with inbox := [.startCmd 0x9000#16] } : State).inbox = .startCmd 0x9000#16 :: [] := by decide

theorem witness_HostRegisterMoves :
    ({ State.reset with inbox := [.readResult] } : State).inbox = .readResult :: [] ∧
    ({ initing .ok with inbox := [.readStatus] } : State).inbox = .readStatus :: [] ∧
    (let s := { State.reset with inbox := [.writeReg (.imgBase 0xFFFFFFFF#32)] }; s.phase = .idle ∧ s.inbox = .writeReg (.imgBase 0xFFFFFFFF#32) :: []) ∧
    (let s := { State.reset with inbox := [.readReg .roiH] }; s.phase = .idle ∧ s.inbox = .readReg .roiH :: []) ∧
    (let s := { State.reset with inbox := [.writeImage 0xFFFFFFFF#32 1#8] }; s.phase = .idle ∧ s.inbox = .writeImage 0xFFFFFFFF#32 1#8 :: []) := by decide

theorem witness_ResetMoveAbandonsTheCommand :
    ({ initing .ok with inbox := [.reset, .wait] } : State).inbox = .reset :: [.wait] := by decide

theorem witness_ConfigureOutputSetsThePad :
    State.reset.drawInForce ≠ .gpioFail .cs ∧ (initing (.gpioFail .led)).drawInForce ≠ .gpioFail .cs := by decide

theorem witness_LinkStepsOpenSendCloseSleep :
    State.reset.drawInForce ≠ .spiFail ∧ (ready .shield18).spi ≠ none ∧ (2 ≤ [1#8, 2#8].length) ∧
    (0 ≤ ([] : List Byte).length) ∧ State.reset.spi = none := by decide

theorem witness_SendingWithoutSessionFaults : State.reset.spi = none ∧ Instr.gmctrn.level = .wire := by decide

theorem witness_SingleFramesOnTheWire :
    (ready .shield096).spi ≠ none ∧ 0 ≤ ([] : List Byte).length ∧ 3 ≤ [1#8, 2#8, 3#8].length := by decide

theorem witness_CmdWithParamsTogglesCsPerByte : (ready .shield18).spi ≠ none := by decide

theorem witness_WireSymbolsGoOutAsOneFrame :
    (ready .shield18).spi ≠ none ∧ (Instr.swreset, 0x01#8) ∈ commandSymbols ∧ (Instr.gmctrn, 0xE1#8) ∈ commandSymbols :=
  by decide

theorem witness_InitSequenceEmitsItsTrace : (initing .ok).drawInForce = .ok ∧ State.reset.drawInForce = .ok := by decide

theorem witness_InitSequenceFailsAtItsPoint (a : Acq) :
    (initing a).phase = .exec (.init none none) ∧ IsS0 (initing a) ∧ (initing a).acq = a ∧
    (Acq.spiFail ≠ .ok ∧ Acq.gpioFail .cs ≠ .ok ∧ Acq.gpioFail .led ≠ .ok) :=
  ⟨rfl, ⟨rfl, rfl, rfl, rfl, rfl, rfl, rfl, rfl, rfl⟩, rfl, by decide⟩

theorem witness_FailedAcquisitionEndsTheInit :
    (initing (.gpioFail .led)).phase = .exec (.init none none) ∧ (initing (.gpioFail .led)).acq = .gpioFail .led ∧
    (initing (.gpioFail .led)).inbox = [] ∧
    (initing .spiFail).phase = .exec (.init none none) ∧ (initing .spiFail).acq = .spiFail ∧
    (initing .spiFail).inbox = [] := by decide

theorem witness_PumpStreamsTheFrame :
    StreamReady .shield18 (ready .shield18) ∧ (128 : Nat) + 0 + 0 = (panelW .shield18).toNat ∧
    (79 : Nat) + 1 + 80 = (panelH .shield18).toNat := ⟨streamReady_ready _, by decide, by decide⟩

theorem witness_ClearStreamIsTheEmptyPump : IsInit .shield096 (ready .shield096) := isInit_ready _

theorem witness_InitSucceeds :
    let s := { State.reset with acqQueue := [.ok] }
    let t := { ready .shield096 with acqQueue := [.ok, .spiFail] }
    (DriverInv s ∧ Idle s ∧ ((some 1#8 : Option Byte).getD 2#8).toNat = variantNumber .shield18 ∧ s.nextAcq = .ok) ∧
    (DriverInv t ∧ Idle t ∧ ((none : Option Byte).getD 2#8).toNat = variantNumber .shield096 ∧ t.nextAcq = .ok) :=
  ⟨⟨driverInv_reset, idle_reset, rfl, rfl⟩, driverInv_ready096, ⟨rfl, rfl, rfl⟩, rfl, rfl⟩

theorem witness_InitFailsAndRollsBack :
    let s := { State.reset with acqQueue := [.spiFail] }
    let t := { ready .shield18 with acqQueue := [.gpioFail .cs] }
    (DriverInv s ∧ Idle s ∧ ((some 2#8 : Option Byte).getD 2#8).toNat = variantNumber .shield096 ∧ s.nextAcq ≠ .ok) ∧
    (DriverInv t ∧ Idle t ∧ ((some 1#8 : Option Byte).getD 2#8).toNat = variantNumber .shield18 ∧ t.nextAcq ≠ .ok) :=
  ⟨⟨driverInv_reset, idle_reset, rfl, by decide⟩, driverInv_ready18, ⟨rfl, rfl, rfl⟩, rfl, by decide⟩

theorem witness_InitInvalidVariantChangesNothing : Idle (ready .shield18) ∧ 2 < (3#8).toNat ∧ 2 < (255#8).toNat :=
  ⟨⟨rfl, rfl, rfl⟩, by decide, by decide⟩

theorem witness_DeinitReleasesEverything :
    (Idle State.reset ∧ State.reset.variant = none) ∧
    (Idle (ready .shield096) ∧ (ready .shield096).variant ≠ none ∧ IsInit .shield096 (ready .shield096)) :=
  ⟨⟨idle_reset, rfl⟩, ⟨rfl, rfl, rfl⟩, by decide, isInit_ready _⟩

theorem witness_QueriesReturnTheDimensionsAndCode :
    (Idle State.reset ∧ State.reset.variant = none) ∧
    (Idle (ready .shield18) ∧ (ready .shield18).variant = some .shield18) := ⟨⟨idle_reset, rfl⟩, ⟨rfl, rfl, rfl⟩, rfl⟩

theorem witness_SetBacklightWritesTheInvertedLevel :
    let u := { ready .shield18 with backlightReady := false }
    (Idle State.reset ∧ State.reset.variant = none) ∧
    (Idle (ready .shield18) ∧ (ready .shield18).variant ≠ none ∧ (ready .shield18).backlightReady = true) ∧
    (Idle u ∧ u.variant ≠ none ∧ u.backlightReady = false) :=
  ⟨⟨idle_reset, rfl⟩, ⟨⟨rfl, rfl, rfl⟩, by decide, rfl⟩, ⟨rfl, rfl, rfl⟩, by decide, rfl⟩

theorem witness_GetBacklightReturnsTheInvertedLatch :
    (Idle State.reset ∧ State.reset.backlightReady = false) ∧
    (Idle (ready .shield18) ∧ (ready .shield18).backlightReady = true) := ⟨⟨idle_reset, rfl⟩, ⟨rfl, rfl, rfl⟩, rfl⟩

theorem witness_UninitializedHasNoSideEffect :
    Idle State.reset ∧ State.reset.variant = none ∧ State.reset.backlightReady = false := ⟨idle_reset, rfl, rfl⟩

/-- A format of 0 or 3, or an immutable image; then one column too many, and a sum beyond 16 bits. -/
theorem witness_DisplayRefusesFormatThenRoi :
    Idle (ready .shield18) ∧ (ready .shield18).variant ≠ none ∧
    ((image 1#16 1#16 0#8).imgFmt ≠ 1#8 ∧ (image 1#16 1#16 0#8).imgFmt ≠ 2#8) ∧
    ((image 1#16 1#16 3#8).imgFmt ≠ 1#8 ∧ (image 1#16 1#16 3#8).imgFmt ≠ 2#8) ∧
    ({ image 1#16 1#16 1#8 with imgMut := 0#1 } : OperandRegs).imgMut = 0#1 ∧
    (let x := { image 65535#16 1#16 2#8 with roiX := 65535#16, roiW := 1#16 }; ¬ ((x.imgFmt ≠ 1#8 ∧ x.imgFmt ≠ 2#8) ∨ x.imgMut = 0#1) ∧ x.imgW.toNat < x.roiX.toNat + x.roiW.toNat) :=
  ⟨⟨rfl, rfl, rfl⟩, by decide, by decide, by decide, by decide, by decide⟩

/-- A full image of the largest width, and a region of interest that ends at its last column and row. -/
theorem witness_DisplayStreamsTheImage :
    let s := { ready .shield18 with regs := image 65535#16 2#16 1#8 }
    let t := { ready .shield096 with
      regs := ⟨0#32, 4#16, 4#16, 2#8, 1#1, 3#16, 2#16, 1#16, 2#16⟩ }
    (StreamReady .shield18 s ∧ Idle s ∧ s.regs.imgMut = 1#1 ∧ s.regs.imgFmt = fmtCode .gs8 ∧
      (0 : Nat) + 65535 ≤ s.regs.imgW.toNat ∧ (0 : Nat) + 2 ≤ s.regs.imgH.toNat) ∧
    (StreamReady .shield096 t ∧ Idle t ∧ t.regs.imgMut = 1#1 ∧ t.regs.imgFmt = fmtCode .rgb565 ∧
      (⟨t.regs.roiX.toNat, t.regs.roiY.toNat, t.regs.roiW.toNat, t.regs.roiH.toNat⟩ : Rect) = ⟨3, 2, 1, 2⟩ ∧
      (3 : Nat) + 1 ≤ t.regs.imgW.toNat ∧ (2 : Nat) + 2 ≤ t.regs.imgH.toNat) :=
  ⟨⟨streamReady_ready _, ⟨rfl, rfl, rfl⟩, rfl, rfl, by decide, by decide⟩,
    streamReady_ready _, ⟨rfl, rfl, rfl⟩, rfl, rfl, rfl, by decide, by decide⟩

theorem witness_ClearStreamsBlack : IsInit .shield18 (ready .shield18) ∧ Idle (ready .shield18) :=
  ⟨isInit_ready _, ⟨rfl, rfl, rfl⟩⟩

/-- The last pixel of a cropped 200 x 200 image on the smaller panel. -/
theorem witness_DisplayReadsInsideTheImage :
    rectInside ⟨0, 0, 200, 200⟩ (image 200#16 200#16 2#8) = true ∧ 79 < (geometry ⟨0, 0, 200, 200⟩ 160 80).rect.h ∧
    159 < (geometry ⟨0, 0, 200, 200⟩ 160 80).rect.w := by decide

theorem witness_BacklightReadsBackWhatWasSet : IsInit .shield096 (ready .shield096) ∧ Idle (ready .shield096) :=
  ⟨isInit_ready _, ⟨rfl, rfl, rfl⟩⟩

theorem witness_ReinitialisationRepeatsTheTrace :
    let s := { State.reset with acqQueue := [.ok, .ok] }
    IsS0 s ∧ Idle s ∧ ((some 1#8 : Option Byte).getD 2#8).toNat = variantNumber .shield18 ∧
      s.acqQueue = .ok :: .ok :: [] :=
  ⟨s0_reset, idle_reset, rfl, rfl⟩

/-- A supported image, which streams, and one of an unsupported format. -/
theorem witness_DisplayIsIdempotent :
    let s := { ready .shield18 with regs := image 2#16 2#16 1#8 }
    (StreamReady .shield18 s ∧ Idle s ∧ ∃ t, exec (.display false) s = .next t) ∧
    (StreamReady .shield18 (ready .shield18) ∧ Idle (ready .shield18) ∧
      exec (.display false) (ready .shield18) = .next (posted 0x8003#16 (ready .shield18))) :=
  ⟨⟨streamReady_ready _, ⟨rfl, rfl, rfl⟩, _, rfl⟩, streamReady_ready _, ⟨rfl, rfl, rfl⟩, rfl⟩

/-- The state and the next state of the witness for the invariants: `WIDTH` written in `S18`. -/
def asked : State := { ready .shield18 with inbox := [.writeCmd 0x3000#16] }

theorem step_asked : step asked = .next { asked with
  inbox := [], cmd := 0x3000#16, result := 0x4080#16, results := [0x4080#16] } := rfl

theorem wholeCommands_asked : WholeCommands asked := by
  intro w h
  simp [asked] at h

theorem witness_StepKeepsTheDriverStates :
    DriverInv asked ∧ Idle asked ∧ WholeCommands asked ∧ ∃ t, step asked = .next t :=
  ⟨driverInv_ready18, ⟨rfl, rfl, rfl⟩, wholeCommands_asked, _, step_asked⟩

theorem witness_StepAlwaysCompletes : DriverInv asked ∧ Idle asked := ⟨driverInv_ready18, ⟨rfl, rfl, rfl⟩⟩

theorem witness_StepKeepsTheFraming :
    DriverInv asked ∧ Idle asked ∧ WholeCommands asked ∧ FramedTrace asked ∧ ∃ t, step asked = .next t :=
  ⟨driverInv_ready18, ⟨rfl, rfl, rfl⟩, wholeCommands_asked, rfl, _, step_asked⟩

theorem knownCommands_asked : KnownCommands asked := fun _ h => absurd h List.not_mem_nil

theorem witness_StepSendsOnlyKnownCommands :
    DriverInv asked ∧ Idle asked ∧ WholeCommands asked ∧ FramedTrace asked ∧ KnownCommands asked ∧
    ∃ t, step asked = .next t :=
  ⟨driverInv_ready18, ⟨rfl, rfl, rfl⟩, wholeCommands_asked, rfl, knownCommands_asked, _, step_asked⟩

theorem witness_StepKeepsTheResultLegal :
    DriverInv asked ∧ Idle asked ∧ WholeCommands asked ∧ LegalResult asked ∧ ∃ t, step asked = .next t :=
  ⟨driverInv_ready18, ⟨rfl, rfl, rfl⟩, wholeCommands_asked, .inl rfl, _, step_asked⟩

theorem witness_StepKeepsMemoryAndLineForm :
    asked.mem.wf = true ∧ asked.line.length = 320 ∧ ∃ t, step asked = .next t :=
  ⟨rfl, List.length_replicate, _, step_asked⟩

/-- A step with no image write to come, and one of a busy block whose host has one to come. -/
theorem witness_StepAppendsToTheTraceAndReadsTheImage :
    let b := { initing .ok with inbox := [.writeImage 0#32 1#8] }
    ((∃ t, step asked = .next t) ∧ (∀ a b, asked.inbox.head? ≠ some (.writeImage a b)) ∧
      asked.inbox.head? ≠ some .reset) ∧
    ((∃ t, step b = .next t) ∧ b.busy = true ∧ b.inbox.head? ≠ some .reset) :=
  ⟨⟨⟨_, step_asked⟩, fun _ _ h => (by cases h), by decide⟩, ⟨_, rfl⟩, by decide, by decide⟩

/-- `INIT` from `S0` when the SPI controller cannot be acquired; the wire history between two releases of its rollback. -/
theorem witness_SteppedCommandReachesTheAtomicResult :
    let s := { State.reset with acqQueue := [.spiFail] }
    let h := pinsTrace ++ [.spiOpen (.div 8), .pinRelease .rst]
    (DriverInv (ready .shield096) ∧ Idle (ready .shield096) ∧ (ready .shield096).line.length = 320) ∧
    (DriverInv s ∧ Idle s ∧ s.line.length = 320 ∧ s.trace <+: h ∧
      ∃ t, step { s with inbox := [.writeCmd 0x1000#16] } = .next t ∧ h <+: t.trace) :=
  ⟨⟨driverInv_ready096, ⟨rfl, rfl, rfl⟩, List.length_replicate⟩, driverInv_reset, ⟨rfl, rfl, rfl⟩, List.length_replicate,
    List.nil_prefix, _, rfl, [.pinRelease .dc, .pinRelease .cs], rfl⟩

/-- A `SET_BACKLIGHT` taken step by step: after its first step, busy; and two steps in. -/
theorem witness_SteppedCommandKeepsTheFraming :
    DriverInv (ready .shield096) ∧ Idle (ready .shield096) ∧ (ready .shield096).line.length = 320 ∧
    FramedTrace (ready .shield096) ∧ decode (.host 0x6000#16) = .instr (.setBacklight 0#12) ∧
    (∃ t, Host.Core.run core 1 { ready .shield096 with inbox := [.startCmd 0x6000#16] } = .next t ∧ t.busy = true) ∧
    ∃ t, Host.Core.run core 2 { ready .shield096 with inbox := [.startCmd 0x6000#16] } = .next t ∧
      t.trace = [.pinWrite .led .high] :=
  ⟨driverInv_ready096, ⟨rfl, rfl, rfl⟩, List.length_replicate, rfl, rfl, ⟨_, rfl, rfl⟩, _, rfl, rfl⟩

theorem witness_ImageReadAfterWrite :
    Memory.wf [(5, 1#8), (4294967295, 2#8)] = true ∧ (4294967295 : Nat) < 2 ^ 32 ∧ (0 : Nat) < 2 ^ 32 := by decide

/-- A kernel clock of 90 MHz with prescalers 2 to 16, and the request of Shield_1_8 (R5): 11.25 MHz. -/
theorem witness_BitClockNeverExceedsTheRequest :
    8 ∈ [2, 4, 8, 16] ∧ 90000000 ≤ 15151515 * 8 ∧ pickClock 90000000 [2, 4, 8, 16] 15151515 = 11250000 := by
  refine ⟨by decide, by decide, ?_⟩
  simp [pickClock, supportedClocks]

end Sys2Proof.Tests
end

section
/-! Reset, the host's registers, the sequencer's step, and what every step keeps (10_state.md R22 to R26, R31, R36). -/

namespace Sys2Proof.Machine

/-! ### Reset (R36) -/

theorem isS0_reset : IsS0 State.reset := ⟨rfl, rfl, rfl, rfl, rfl, rfl, rfl, rfl, rfl⟩

/-- Settles O6. -/
theorem resetStateIsAsSpecified : Obligations.ResetStateIsAsSpecified :=
  ⟨isS0_reset, rfl, rfl, rfl, rfl⟩

theorem wholeCommands_reset : WholeCommands State.reset := fun _ => List.not_mem_nil

theorem knownCommands_reset : KnownCommands State.reset := fun _ h => absurd h List.not_mem_nil

/-- Settles O49: the trace and the inbox are empty, so what speaks of their entries holds of none. -/
theorem resetMeetsTheInvariant : Obligations.ResetMeetsTheInvariant :=
  ⟨.inl isS0_reset, ⟨rfl, rfl, rfl⟩, wholeCommands_reset, rfl, knownCommands_reset, .inl rfl, Memory.wf_nil,
    List.length_replicate, rfl⟩

/-! ### The host's registers (R23, R24) -/

/-- Settles O12, register by register. -/
theorem operandRegisterReadAfterWrite : Obligations.OperandRegisterReadAfterWrite := by
  intro x v r
  cases v <;> cases r <;> rfl

theorem busy_eq_false {s : State} (h : s.phase = .idle) : s.busy = false := by
  rw [State.busy, h]
  rfl

theorem busy_eq_true {s : State} {c : Instr} (h : s.phase = .exec c) : s.busy = true := by
  rw [State.busy, h]
  rfl

/-- `STATUS`, as the host reads it (R23; log 12). -/
theorem status_setWidth (s : State) : s.status.setWidth 32 = if s.phase = .idle then 0#32 else 1#32 := by
  cases h : s.phase with
  | idle => rw [State.status, busy_eq_false h]; rfl
  | exec c => rw [State.status, busy_eq_true h]; rfl

/-- Settles O11: the first two moves are taken at any time, the others while the block is idle. -/
theorem hostRegisterMoves : Obligations.HostRegisterMoves := by
  refine fun s rest => ⟨fun hin => ?_, fun hin => ?_, fun v hp hin => ?_, fun r hp hin => ?_, fun a b hp hin => ?_⟩
  · simp [step, hostStep, hin]
  · simp [step, hostStep, hin, status_setWidth]
  · simp [step, hostStep, hin, busy_eq_false hp]
  · simp [step, hostStep, hin, busy_eq_false hp]
  · simp [step, hostStep, hin, busy_eq_false hp]

/-! ### The sequencer's step (R26) -/

/-- Without a host's move the step is the sequencer's. -/
theorem step_eq_sequencerStep {s : State} (h : s.inbox = []) : step s = sequencerStep s := by
  rw [step, hostStep, h]

theorem sequencerStep_idle {s : State} (h : s.phase = .idle) : sequencerStep s = .next s := by
  rw [sequencerStep, h]

theorem sequencerStep_exec_end {s : State} {c : Instr} (h : s.phase = .exec c) (hn : s.program[s.seqPc]? = none) :
    sequencerStep s = .next { s with phase := .idle, program := [], seqPc := 0 } := by
  simp only [sequencerStep, h, hn]

theorem sequencerStep_exec {s : State} {c : Instr} {st : SeqStep} (h : s.phase = .exec c)
    (hs : s.program[s.seqPc]? = some st) : sequencerStep s = runSeqStep st { s with seqPc := s.seqPc + 1 } := by
  simp only [sequencerStep, h, hs]

theorem runSeqStep_raise_of_rollsBack {e : ErrKind} (h : e.rollsBack = true) (s : State) :
    runSeqStep (.raise e) s = .next { s with program := teardownSteps s ++ [.post e.result], seqPc := 0 } := by
  simp only [runSeqStep, enterError, h, if_true]

theorem runSeqStep_raise_of_not_rollsBack {e : ErrKind} (h : e.rollsBack = false) (s : State) :
    runSeqStep (.raise e) s = .next (post e.result s) := by
  simp [runSeqStep, enterError, raiseError, h]

/-- Settles O8: the step is `runSeqStep` of the entry, whose meaning each kind of entry gives. -/
theorem sequencerStepRunsTheStepAtSeqPc : Obligations.SequencerStepRunsTheStepAtSeqPc := by
  intro s hin
  refine ⟨fun hp => (step_eq_sequencerStep hin).trans (sequencerStep_idle hp), ?_⟩
  intro c hp here u
  have run : ∀ {st}, here = some st → step s = runSeqStep st u := fun h =>
    (step_eq_sequencerStep hin).trans (sequencerStep_exec hp h)
  exact ⟨fun h => (step_eq_sequencerStep hin).trans (sequencerStep_exec_end hp h), fun _ h => run h, fun h => run h,
    fun _ h => run h, fun h => run h, fun h => run h, fun _ _ h => run h, fun _ h => run h, fun _ h => run h,
    fun _ h he => (run h).trans (runSeqStep_raise_of_not_rollsBack he u),
    fun _ h he => (run h).trans (runSeqStep_raise_of_rollsBack he u), fun _ h => run h⟩

/-! ### The placed word (log 1, 14) -/

/-- Every symbol decodes to a wire symbol or to nothing. -/
theorem decodeWire_level {sym : BitVec 9} {i : Instr} (h : decodeWire sym = .instr i) : i.level = .wire := by
  unfold decodeWire decodeCommandByte at h
  repeat' split at h
  all_goals cases h <;> rfl

/-- What the table decoder reads, a host word or a wire symbol. -/
theorem decodeTableWord_cases {w : Nat} {i : Instr} (h : decodeTableWord 16 w = some i) :
    (codeWordOf w = .host (BitVec.ofNat 16 w) ∧ decodeHost (BitVec.ofNat 16 w) = .instr i) ∨
      (∃ sym, codeWordOf w = .wire sym ∧ decodeWire sym = .instr i) := by
  have hd : decode (codeWordOf w) = .instr i := by
    unfold decodeTableWord at h
    split at h
    · cases h
    · split at h
      · next hd => cases h; exact hd
      · cases h
  unfold codeWordOf at hd ⊢
  split
  · next hw => rw [if_pos hw] at hd; exact .inr ⟨_, rfl, hd⟩
  · next hw => rw [if_neg hw] at hd; exact .inl ⟨rfl, hd⟩

theorem runCommand_instr {w : Half} {c : Instr} (h : decodeHost w = .instr c) (s : State) :
    runCommand w s = exec c { s with cmd := w } := by
  simp only [runCommand, h]

/-- A session, where there is one, stays as it is. -/
theorem spi_or_default {o : Option ClockReq} {r : ClockReq} : (if o.isSome then o else some r) ≠ none := by
  cases o <;> simp

/-- Settles O9: a host word is the next `CMD` write, a wire symbol the next entry of a step list. -/
theorem placedWordRunsNext : Obligations.PlacedWordRunsNext := by
  intro s w i _ hi
  rcases decodeTableWord_cases hi with ⟨hc, hd⟩ | ⟨sym, hc, hd⟩
  · refine .inl ⟨decodeHost_level hd, ?_⟩
    have hp : s.withFetchWord 16 w = { s with
        phase := .idle, program := [], seqPc := 0, inbox := .writeCmd (BitVec.ofNat 16 w) :: s.inbox } := by
      simp only [State.withFetchWord, placeWord, hc]
    rw [hp]
    exact runCommand_instr hd _
  · refine .inr ⟨decodeWire_level hd, ?_⟩
    simp only [State.withFetchWord, placeWord, hc, hi]
    refine ⟨_, rfl, spi_or_default, rfl, rfl, rfl, rfl, rfl, fun h => ?_⟩
    have hs : s.spi.isSome = true := Option.isSome_iff_ne_none.2 h
    exact ⟨if_pos hs, if_pos hs⟩

/-! ### What every step keeps (R22, R31, R50) -/

/-- Settles O55: a step leaves memory and the buffer's size alone, is the host's write of a byte, or is a reset. -/
theorem stepKeepsMemoryAndLineForm : Obligations.StepKeepsMemoryAndLineForm := by
  intro s t hm hl h
  rcases step_cases h with ⟨u, hx, hmem, hline, -⟩ | ⟨a, b, rest, -, -, rfl⟩ | ⟨rest, -, rfl⟩
  · obtain ⟨-, tmem, -, -, -, tline, -⟩ := hx
    exact ⟨by rw [tmem, hmem]; exact hm, by rw [tline, hline]; exact hl⟩
  · exact ⟨Memory.wf_write hm a.isLt b, hl⟩
  · exact ⟨hm, List.length_replicate⟩

/-- The moves that are left are still whole commands. -/
theorem WholeCommands.of_suffix {s t : State} (hw : WholeCommands s) (h : t.inbox <:+ s.inbox) : WholeCommands t :=
  fun w hm => hw w (h.subset hm)

/-- Settles O50: a step between commands is a host's move that touches no DriverState, a whole command, or a reset. -/
theorem stepKeepsTheDriverStates : Obligations.StepKeepsTheDriverStates := by
  intro s t hd hi hw h
  rcases step_idle_cases hi hw with ⟨rest, regs, mem, rd, hs, hsuf⟩ | ⟨w, rest, hin, hs⟩ | ⟨rest, hin, hs⟩
  · cases hs.symm.trans h
    exact ⟨driverInv_congr hd rfl rfl rfl rfl rfl rfl, hi, hw.of_suffix hsuf⟩
  · have hr : runCommand w { s with inbox := rest } = .next t := hs.symm.trans h
    obtain ⟨t', ht', hdt, hit, -⟩ := runCommand_ends w (s := { s with inbox := rest })
      (driverInv_congr hd rfl rfl rfl rfl rfl rfl)
    cases ht'.symm.trans hr
    obtain ⟨-, -, tinbox, -⟩ := extends_runCommand hr
    refine ⟨hdt, hit, hw.of_suffix ?_⟩
    rw [tinbox, hin]
    exact List.suffix_cons _ _
  · cases hs.symm.trans h
    refine ⟨.inl isS0_reset, ⟨rfl, rfl, rfl⟩, hw.of_suffix ?_⟩
    rw [hin]
    exact List.suffix_cons _ _

end Sys2Proof.Machine
end

section
/-! A command run step by step comes to the state of its atomic transition (10_state.md R26, R27). -/

namespace Sys2Proof.Machine

/-! ### The end of a step list, with no host move to come -/

theorem inbox_cleared {s : State} (h : s.inbox = []) : { s with inbox := [] } = s := by
  rw [← h]

theorem ends_post_of_inbox (c : Instr) (r : Result) {s : State} (h : s.inbox = []) :
    Ends c [.post r] s (post r s) := by
  have := ends_post c r s
  rwa [inbox_cleared h] at this

theorem ends_raise_of_inbox (c : Instr) (e : ErrKind) {s : State} (h : s.inbox = []) :
    Ends c [.raise e] s (raiseError e s) := by
  have := ends_raise c e s
  rwa [inbox_cleared h] at this

theorem Extends.inbox {s t : State} (h : Extends s t) : t.inbox = s.inbox := h.2.2.1

/-- A list that can fail, then a list that ends the command. -/
theorem SettlesTo.ends {c : Instr} {L M : List SeqStep} {s : State} {r : StepOut} {k : State → State}
    (h : SettlesTo c L s r) (hin : r.state.inbox = []) (hk : ∀ t, t.inbox = [] → Ends c M t (k t)) :
    Ends c (L ++ M) s (r.settle k) := by
  cases r with
  | done t => exact Runs.ends h (hk t hin)
  | raised e t =>
    have h : Ends c L s (raiseError e { t with inbox := [] }) := h
    have hin : t.inbox = [] := hin
    rw [inbox_cleared hin] at h
    exact h.append

/-! ### Each command's step list -/

/-- `INIT` (R191), whatever its code and its draw. -/
theorem ends_init (typ : Option Byte) (bgr : Option Bool) {s : State} (hp : s.phase = .exec (.init typ bgr))
    (hin : s.inbox = []) :
    Ends (.init typ bgr) (initCommandSteps typ bgr s) s (initCommand typ bgr s) := by
  have hd : (deinit s).inbox = [] := (extends_deinit s).inbox.trans hin
  unfold initCommandSteps initCommand
  split
  · exact ends_raise_of_inbox _ _ hin
  · refine (runs_deinit _ s).ends ?_
    cases variantOfCode (vcodeOf typ) with
    | none => exact ends_post_of_inbox _ _ hd
    | some v =>
      have hph : (drawAcq (deinit s)).phase = .exec (.init typ bgr) := by
        rw [drawAcq_phase, ← hp, deinit]
        split
        · rfl
        · rw [rollback_eq]
      have hq : (initSequence v (bgrOf v bgr) (drawAcq (deinit s))).state.inbox = [] :=
        (extends_initSequence _ _ _).inbox.trans hd
      have hrun := (settlesTo_initSequence _ v (bgrOf v bgr) hph).ends (M := [.setDriver v, .post .none])
        (k := fun s => post .none (setDriver v s)) hq fun t ht =>
          Runs.ends (runs_one fun _ _ => rfl) (ends_post_of_inbox _ _ ht)
      dsimp only
      rw [List.append_assoc]
      exact Runs.ends (runs_one fun _ _ => rfl) hrun

/-- The geometry unit cuts the width to the panel's (R163). -/
theorem geometry_w_le (r : Rect) (w h : Nat) : (geometry r w h).rect.w ≤ w := by
  unfold geometry axis
  dsimp only
  split <;> dsimp only <;> omega

theorem panelW_le (v : Variant) : (panelW v).toNat ≤ 160 := by
  cases v <;> decide

/-- A stream of `DISPLAY`: geometry, the pump, the result (R199). -/
theorem ends_display (c : Instr) (fmt : Fmt) (r : Rect) {s : State} {v : Variant} (h : IsInit v s)
    (hl : s.line.length = 320) (hin : s.inbox = []) :
    Ends c (.instr (.geometry r s.width.toNat s.height.toNat) ::
      pumpSteps s fmt (geometry r s.width.toNat s.height.toNat) ++ [.post .none]) s
      (post .none (displayStream fmt r s)) := by
  obtain ⟨-, hw, -, hspi, -⟩ := h
  have hs : s.spi.isSome := by rw [hspi]; rfl
  have hn : 2 * (geometry r s.width.toNat s.height.toNat).rect.w ≤ s.line.length := by
    have h1 := geometry_w_le r s.width.toNat s.height.toNat
    have h2 := panelW_le v
    rw [hw] at h1 ⊢
    omega
  have hrun := (runs_geometry c r s.width.toNat s.height.toNat s).append
    (runs_pump c fmt (geometry r s.width.toNat s.height.toNat)
      (s := geometryStep r s.width.toNat s.height.toNat s) hs hn)
  refine hrun.ends (ends_post_of_inbox c .none ?_)
  exact (extends_pump _ _ _ _ _ _ _).inbox.trans hin

/-- The stream of `CLEAR` (R200). -/
theorem ends_clear (c : Instr) (r : Rect) (w hh : Nat) {s : State} (hs : s.spi.isSome) (hin : s.inbox = []) :
    Ends c (.instr (.geometry r w hh) :: clearSteps s ++ [.post .none]) s
      (post .none (clearStream (geometryStep r w hh s))) := by
  have hrun := (runs_geometry c r w hh s).append (runs_clear c (s := geometryStep r w hh s) hs)
  refine hrun.ends (ends_post_of_inbox c .none ?_)
  exact (extends_clearStream _).inbox.trans hin

/-- Every host command's step list ends where the command taken whole does. -/
theorem ends_commandSteps {c : Instr} {s t : State} (hc : c.level = .host) (h : DriverInv s)
    (hl : s.line.length = 320) (hin : s.inbox = []) (ht : exec c s = .next t) :
    Ends c (commandSteps c s) (accept c s) t := by
  cases c <;> simp only [Instr.level, reduceCtorEq] at hc
  case init typ bgr => cases ht; exact ends_init typ bgr rfl hin
  case deinit =>
    cases ht
    exact (runs_deinit _ (accept .deinit s)).ends (ends_post_of_inbox _ _ ((extends_deinit _).inbox.trans hin))
  case width => cases ht; exact ends_post_of_inbox _ _ hin
  case height => cases ht; exact ends_post_of_inbox _ _ hin
  case type => cases ht; exact ends_post_of_inbox _ _ hin
  case getBacklight => cases ht; exact ends_post_of_inbox _ _ hin
  case setBacklight st =>
    rcases driverInv_cases h with h' | ⟨v, h'⟩
    · obtain ⟨hv, -⟩ := h'
      simp only [exec, execSetBacklight, accept_variant, hv] at ht
      cases ht
      simp only [commandSteps, setBacklightSteps, hv]
      exact ends_raise_of_inbox _ _ hin
    · obtain ⟨hv, -, -, -, hr, -⟩ := h'
      simp only [exec, execSetBacklight, accept_variant, hv, setBacklightStep, accept_backlightReady, hr, if_true,
        StepOut.done_andThen, StepOut.settle_done] at ht
      cases ht
      simp only [commandSteps, setBacklightSteps, hv, hr, if_true]
      exact (runs_write _ .led _ _).ends (ends_post_of_inbox _ _ hin)
  case display roi =>
    simp only [exec, execDisplay, accept_variant, accept_regs] at ht
    simp only [commandSteps, displaySteps]
    rcases driverInv_cases h with h' | ⟨v, h'⟩
    · simp only [h'.1] at ht ⊢
      cases ht
      exact ends_raise_of_inbox _ _ hin
    · obtain ⟨hv, -⟩ := id h'
      simp only [hv] at ht ⊢
      cases hf : displayFmt s.regs with
      | none => rw [hf] at ht; cases ht; exact ends_raise_of_inbox _ _ hin
      | some fmt =>
        simp only [hf] at ht ⊢
        cases hi : rectInside (displayRect s.regs roi) s.regs with
        | false =>
          simp only [hi, Bool.false_eq_true, if_false] at ht ⊢
          cases ht
          exact ends_raise_of_inbox _ _ hin
        | true =>
          simp only [hi, if_true] at ht ⊢
          cases (requireSession_next ht).2
          exact ends_display _ fmt _ (s := accept (.display roi) s) h' hl hin
  case clear =>
    simp only [exec, execClear, accept_variant] at ht
    simp only [commandSteps, clearCommandSteps]
    rcases driverInv_cases h with h' | ⟨v, h'⟩
    · simp only [h'.1] at ht ⊢
      cases ht
      exact ends_raise_of_inbox _ _ hin
    · obtain ⟨hv, -, -, hspi, -⟩ := h'
      simp only [hv] at ht ⊢
      cases (requireSession_next ht).2
      exact ends_clear _ _ _ _ (s := accept .clear s) (by rw [accept_spi, hspi]; rfl) hin

/-! ### A `CMD` write taken step by step -/

/-- The first step of a command that is to run step by step. -/
theorem step_startCmd {s : State} {w : Half} (h : s.phase = .idle) :
    step { s with inbox := [.startCmd w] } = .next (beginCommand w { s with inbox := [] }) := by
  have hb : ({ s with inbox := [.startCmd w] } : State).busy = false := busy_eq_false h
  simp [step, hostStep, hb]

/-- A command taken whole. -/
theorem step_writeCmd {s : State} {w : Half} (h : s.phase = .idle) :
    step { s with inbox := [.writeCmd w] } = runCommand w { s with inbox := [] } := by
  have hb : ({ s with inbox := [.writeCmd w] } : State).busy = false := busy_eq_false h
  simp [step, hostStep, hb]

/-- Which word is being run is no matter of a step list. -/
theorem commandSteps_cmd (c : Instr) (w : Half) (s : State) :
    commandSteps c { s with cmd := w } = commandSteps c s := by
  cases c <;> rfl

/-- A legal word's step list, at its start. -/
theorem beginCommand_instr {w : Half} {c : Instr} (h : decodeHost w = .instr c) {s : State} (hin : s.inbox = []) :
    beginCommand w s = atStep c (commandSteps c s) 0 { s with cmd := w } := by
  simp only [beginCommand, h, atStep, accept, hin]

theorem beginCommand_reject {w : Half} {r : Reject} (h : decodeHost w = .reject r) (s : State) :
    beginCommand w s = post (.err 4) { s with cmd := w } := by
  simp only [beginCommand, h]
  rfl

theorem runCommand_reject {w : Half} {r : Reject} (h : decodeHost w = .reject r) (s : State) :
    runCommand w s = .next (post (.err 4) { s with cmd := w }) := by
  simp only [runCommand, h]
  rfl

theorem run_succ {n : Nat} {s u : State} (h : step s = .next u) :
    Host.Core.run core (n + 1) s = Host.Core.run core n u := by
  have h' : core.step s = .next u := h
  simp only [Host.Core.run, h']

/-- What a command taken step by step does after its first step: it comes to the state of the command taken whole. -/
theorem run_beginCommand {s : State} (w : Half) (h : DriverInv s) (hl : s.line.length = 320) (hin : s.inbox = []) :
    ∃ n t, Host.Core.run core n (beginCommand w s) = .next t ∧ runCommand w s = .next t := by
  obtain ⟨t, ht, -⟩ := runCommand_ends w h
  cases hd : decodeHost w with
  | reject r => exact ⟨0, _, rfl, by rw [runCommand_reject hd, beginCommand_reject hd]⟩
  | instr c =>
    have hx : exec c { s with cmd := w } = .next t := by rw [← ht, runCommand_instr hd]
    have hE := ends_commandSteps (decodeHost_level hd) (s := { s with cmd := w })
      (driverInv_congr h rfl rfl rfl rfl rfl rfl) hl hin hx
    obtain ⟨n, hn⟩ := hE [] []
    refine ⟨n, t, ?_, ht⟩
    rw [List.nil_append, List.append_nil, commandSteps_cmd] at hn
    rw [beginCommand_instr hd hin]
    exact hn

theorem beginCommand_allSmall (w : Half) (s : State) : AllSmall (beginCommand w s).program := by
  cases hd : decodeHost w with
  | reject r => rw [beginCommand_reject hd]; exact allSmall_nil
  | instr c => simp only [beginCommand, hd]; exact allSmall_commandSteps c s

theorem beginCommand_trace (w : Half) (s : State) : (beginCommand w s).trace = s.trace := by
  cases hd : decodeHost w with
  | reject r => rw [beginCommand_reject hd]; rfl
  | instr c => simp only [beginCommand, hd]; rfl

theorem beginCommand_inbox (w : Half) (s : State) : (beginCommand w s).inbox = s.inbox := by
  cases hd : decodeHost w with
  | reject r => rw [beginCommand_reject hd]; rfl
  | instr c => simp only [beginCommand, hd]; rfl

/-- Settles O57: the first step puts the list in place and emits nothing, the list ends as the command does, and each of
its steps emits at most one event. -/
theorem steppedCommandReachesTheAtomicResult : Obligations.SteppedCommandReachesTheAtomicResult := by
  intro s cw hd hi hl first
  obtain ⟨hphase, -, -⟩ := hi
  have hd' : DriverInv { s with inbox := [] } := driverInv_congr hd rfl rfl rfl rfl rfl rfl
  obtain ⟨n, t, hrun, hwhole⟩ := run_beginCommand cw hd' hl rfl
  have hfirst : ∀ k, Host.Core.run core (k + 1) first =
      Host.Core.run core k (beginCommand cw { s with inbox := [] }) := fun k => run_succ (step_startCmd hphase)
  refine ⟨n + 1, t, (hfirst n).trans hrun, (step_writeCmd hphase).trans hwhole, fun h hsh hht => ?_⟩
  obtain ⟨-, hall⟩ := run_reachesEveryHistory (beginCommand_inbox _ _) (beginCommand_allSmall _ _) hrun
  rw [beginCommand_trace] at hall
  obtain ⟨k, u, hk, hu, hut⟩ := hall h hsh hht
  exact ⟨k + 1, u, Nat.succ_le_succ hk, (hfirst k).trans hu, hut⟩

end Sys2Proof.Machine
end

section
/-! The framing laws at every step inside a command (10_state.md R22, R26, R27; 42_frames.md R114): the place a step
list has come to on the wire, kept with whether CS is driven, and each command's list checked against it. -/

namespace Sys2Proof.Machine

/-! ### The place on the wire -/

/-- Where the wire history stands, and whether the CS pad drives its wire. -/
abbrev Place := Link × Bool

/-- Between two frames, CS driven. -/
abbrev betweenFrames : Place := (.between, true)

/-- The CS pad after an event (R90, R91, R93). -/
def csAfter (cs : Pad) : Event → Pad
  | .pinCfg p d l => if p = .cs then ⟨driveMode d, l⟩ else cs
  | .pinWrite p l => if p = .cs then ⟨cs.mode, l⟩ else cs
  | .pinRelease p => if p = .cs then ⟨.hiZ, cs.latch⟩ else cs
  | .spiOpen _ | .spiByte _ | .spiClose | .delay _ => cs

/-- Whether the CS pad drives its wire after an event; `none` where CS goes low other than as the start of a frame on
a driven pad. -/
def drivenAfter (on : Bool) : Event → Option Bool
  | .pinCfg .cs _ l => if l = .high then some true else none
  | .pinWrite .cs .low => if on then some true else none
  | .pinRelease .cs => some false
  | .pinCfg .rst _ _ | .pinCfg .dc _ _ | .pinCfg .led _ _ | .pinWrite .cs .high | .pinWrite .rst _ | .pinWrite .dc _
  | .pinWrite .led _ | .pinRelease .rst | .pinRelease .dc | .pinRelease .led | .spiOpen _ | .spiByte _ | .spiClose
  | .delay _ => some on

/-- The place after an event, where the event keeps the framing laws. -/
def Place.after (p : Place) (e : Event) : Option Place :=
  (p.1.next e).bind fun l => (drivenAfter p.2 e).map fun on => (l, on)

/-- The place after an entry of a step list, its event not failing; `none` for an entry that breaks the framing laws,
and for an operation that no command's list holds. An error is entered between frames. -/
def Place.step (p : Place) : SeqStep → Option Place
  | .instr (.configureOutput q d l) => p.after (.pinCfg q d l)
  | .instr (.write q l) => p.after (.pinWrite q l)
  | .instr (.release q) => p.after (.pinRelease q)
  | .instr (.spiOpen req) => p.after (.spiOpen req)
  | .instr .spiClose => p.after .spiClose
  | .instr (.sleep ms) => p.after (.delay ms)
  | .instr (.sendByte b) => p.after (.spiByte b)
  | .sendLineByte _ | .sendImageByte _ => p.after (.spiByte 0#8)
  | .instr (.geometry _ _ _) | .drawAcq | .setDriver _ | .clearDriver | .setReady | .convertPixel _ _ | .post _ =>
    some p
  | .raise _ => if p.1 = .between then some p else none
  | .instr _ => none

/-- The place a whole list leads to. -/
def Place.run (p : Place) (L : List SeqStep) : Option Place := L.foldlM Place.step p

theorem Place.run_append (p : Place) (L M : List SeqStep) :
    p.run (L ++ M) = (p.run L).bind fun q => q.run M := List.foldlM_append

theorem Place.run_cons (p : Place) (st : SeqStep) (L : List SeqStep) :
    p.run (st :: L) = (p.step st).bind fun q => q.run L := List.foldlM_cons

theorem Place.step_of_run_cons {p : Place} {st : SeqStep} {L : List SeqStep} (h : (p.run (st :: L)).isSome) :
    ∃ q, p.step st = some q ∧ (q.run L).isSome := by
  obtain ⟨r, hr⟩ := Option.isSome_iff_exists.1 h
  rw [Place.run_cons] at hr
  obtain ⟨q, hq, hqr⟩ := Option.bind_eq_some_iff.1 hr
  exact ⟨q, hq, Option.isSome_iff_exists.2 ⟨r, hqr⟩⟩

/-- The framing place of a byte does not depend on the byte. -/
theorem Place.after_spiByte (p : Place) (b c : Byte) : p.after (.spiByte b) = p.after (.spiByte c) := by
  obtain ⟨l, on⟩ := p
  rcases l with _ | _ | ⟨_ | _, _ | _ | n⟩ <;> rfl

/-! ### Step lists of whole frames -/

/-- A list that leads from between two frames to between two frames. -/
def WholeFrames (L : List SeqStep) : Prop := betweenFrames.run L = some betweenFrames

theorem wholeFrames_nil : WholeFrames [] := rfl

theorem WholeFrames.append {L M : List SeqStep} (h : WholeFrames L) (k : WholeFrames M) : WholeFrames (L ++ M) := by
  rw [WholeFrames, Place.run_append, h]
  exact k

theorem wholeFrames_flatten {Ls : List (List SeqStep)} (h : ∀ L ∈ Ls, WholeFrames L) : WholeFrames Ls.flatten := by
  induction Ls with
  | nil => exact wholeFrames_nil
  | cons L Ls ih =>
    exact (h L List.mem_cons_self).append (ih fun M hM => h M (List.mem_cons_of_mem L hM))

theorem wholeFrames_cmd (op : Byte) : WholeFrames (cmdSteps op) := rfl

/-- A data frame of any entries that send a byte each. -/
theorem wholeFrames_data {α : Type} {f : α → SeqStep}
    (hf : ∀ a (p : Place), p.step (f a) = p.after (.spiByte 0#8)) (xs : List α) :
    WholeFrames (frameSteps .high (xs.map f)) := by
  have bytes : ∀ n, Place.run (.inFrame .high n, true) (xs.map f ++ [.instr (.write .cs .high)]) =
      some betweenFrames := by
    induction xs with
    | nil => intro n; rfl
    | cons x xs ih => intro n; rw [List.map_cons, List.cons_append, Place.run_cons, hf]; exact ih (n + 1)
  exact bytes 0

theorem wholeFrames_zero (n : Nat) : WholeFrames (zeroSteps n) :=
  wholeFrames_data (f := fun b => .instr (.sendByte b)) (fun b p => p.after_spiByte b 0#8) _

theorem wholeFrames_zeroRows (k n : Nat) : WholeFrames (List.replicate k (zeroSteps n)).flatten :=
  wholeFrames_flatten fun _ hL => List.eq_of_mem_replicate hL ▸ wholeFrames_zero n

theorem wholeFrames_pad (pad : Nat) : WholeFrames (padSteps pad) := by
  unfold padSteps
  split
  · exact wholeFrames_nil
  · exact wholeFrames_zero _

theorem wholeFrames_convert (x : OperandRegs) (r : Rect) (i : Nat) : WholeFrames (convertSteps x r i) := by
  unfold convertSteps
  generalize List.range r.w = js
  induction js with
  | nil => exact wholeFrames_nil
  | cons j js ih => exact ih

theorem wholeFrames_row (x : OperandRegs) (fmt : Fmt) (r : Rect) (i : Nat) : WholeFrames (rowSteps x fmt r i) := by
  cases fmt with
  | gs8 => exact (wholeFrames_convert x r i).append (wholeFrames_data (fun _ _ => rfl) _)
  | rgb565 => exact wholeFrames_data (fun _ _ => rfl) _

theorem wholeFrames_windowReset (v : Option Variant) : WholeFrames (windowResetSteps v) := by
  rcases v with _ | _ | _ <;> rfl

theorem wholeFrames_pump (s : State) (fmt : Fmt) (g : Work) : WholeFrames (pumpSteps s fmt g) := by
  refine ((((wholeFrames_windowReset _).append (wholeFrames_cmd _)).append (wholeFrames_zeroRows _ _)).append
    (wholeFrames_flatten fun L hL => ?_)).append (wholeFrames_zeroRows _ _)
  obtain ⟨i, -, rfl⟩ := List.mem_map.1 hL
  exact ((wholeFrames_pad _).append (wholeFrames_row _ _ _ _)).append (wholeFrames_pad _)

theorem wholeFrames_clear (s : State) : WholeFrames (clearSteps s) :=
  ((wholeFrames_windowReset _).append (wholeFrames_cmd _)).append (wholeFrames_zeroRows _ _)

theorem wholeFrames_cmdWithParams (op : Byte) (ps : List Byte) : WholeFrames (cmdWithParamsSteps op ps) := by
  refine (wholeFrames_cmd op).append ?_
  rw [List.flatMap_def]
  refine wholeFrames_flatten fun L hL => ?_
  obtain ⟨b, -, rfl⟩ := List.mem_map.1 hL
  rfl

/-- Everything of `InitSequence` between the link and the backlight pin. -/
theorem wholeFrames_initBody (v : Variant) (bgr : Bool) :
    WholeFrames (prologueSteps ++ variantSteps v bgr ++ epilogueSteps) := by
  unfold prologueSteps variantSteps epilogueSteps
  cases v <;> dsimp only <;>
  repeat' first
    | with_reducible exact wholeFrames_cmd _
    | with_reducible exact wholeFrames_cmdWithParams _ _
    | with_reducible apply WholeFrames.append
    | rfl

/-- `InitSequence` starts with CS released and leaves it driven (R122). -/
theorem run_initSteps (v : Variant) (bgr : Bool) :
    Place.run (.between, false) (initSteps v bgr) = some betweenFrames := by
  have h : initSteps v bgr = [.instr (.configureOutput .cs .od .high), .instr (.configureOutput .rst .pp .high),
      .instr (.configureOutput .dc .pp .high), .instr (.spiOpen (clockReq v))] ++
      ((prologueSteps ++ variantSteps v bgr ++ epilogueSteps) ++
        [.instr (.configureOutput .led .od .low), .setReady]) := by
    simp [initSteps]
  have start : Place.run (.between, false) [.instr (.configureOutput .cs .od .high),
      .instr (.configureOutput .rst .pp .high), .instr (.configureOutput .dc .pp .high),
      .instr (.spiOpen (clockReq v))] = some betweenFrames := rfl
  rw [h, Place.run_append, start, Option.bind_some, Place.run_append, wholeFrames_initBody v bgr, Option.bind_some]
  rfl

/-- The teardown path, from between frames (R192, R215). -/
theorem run_teardownSteps (on : Bool) (s : State) :
    Place.run (.between, on) (teardownSteps s) = some (.between, false) := by
  unfold teardownSteps
  cases s.backlightReady <;> rfl

/-! ### A state at its place -/

/-- `s` stands at place `p` on the wire: CS is driven low exactly inside a frame. -/
def At (p : Place) (s : State) : Prop :=
  Link.run .between s.trace = some p.1 ∧ (p.2 = true ↔ s.pads.cs.mode ≠ .hiZ) ∧
    (p.1 ≠ .between ↔ s.pads.cs.mode ≠ .hiZ ∧ s.pads.cs.latch = .low)

theorem At.congr {p : Place} {s t : State} (h : At p s) (ht : t.trace = s.trace) (hc : t.pads.cs = s.pads.cs) :
    At p t := by
  rwa [At, ht, hc]

/-- `drivenAfter` says what mode the event leaves the pad in. -/
theorem drivenAfter_iff {on on' : Bool} {e : Event} {cs : Pad} (h : on = true ↔ cs.mode ≠ .hiZ)
    (he : drivenAfter on e = some on') : on' = true ↔ (csAfter cs e).mode ≠ .hiZ := by
  cases e with
  | pinCfg p d l => cases p <;> cases d <;> cases l <;> simp_all [drivenAfter, csAfter, driveMode]
  | pinWrite p l => cases p <;> cases l <;> simp_all [drivenAfter, csAfter]
  | pinRelease p => cases p <;> simp_all [drivenAfter, csAfter]
  | spiOpen _ | spiByte _ | spiClose | delay _ => cases he; exact h

/-- What an event that the framing laws allow does to the frame in flight and to CS: it starts a frame, ends one,
configures or releases a pad between frames, or leaves both alone. -/
theorem Link.next_cases {l l' : Link} {e : Event} (h : l.next e = some l') :
    (e = .pinWrite .cs .low ∧ l' ≠ .between) ∨ (e = .pinWrite .cs .high ∧ l' = .between) ∨
    ((∃ p, (∃ d v, e = .pinCfg p d v) ∨ e = .pinRelease p) ∧ l = .between ∧ l' = .between) ∨
    ((∀ cs, csAfter cs e = cs) ∧ (l' = .between ↔ l = .between)) := by
  unfold Link.next at h
  split at h <;> cases h <;> simp [csAfter]

/-- Inside a frame, and only there, CS is driven low: kept by an event that the framing laws allow. -/
theorem csLow_iff {l l' : Link} {on on' : Bool} {e : Event} {cs : Pad} (hon : on = true ↔ cs.mode ≠ .hiZ)
    (h : l ≠ .between ↔ cs.mode ≠ .hiZ ∧ cs.latch = .low) (hl : l.next e = some l')
    (he : drivenAfter on e = some on') :
    l' ≠ .between ↔ (csAfter cs e).mode ≠ .hiZ ∧ (csAfter cs e).latch = .low := by
  rcases Link.next_cases hl with ⟨rfl, hin⟩ | ⟨rfl, rfl⟩ | ⟨⟨q, hq⟩, rfl, rfl⟩ | ⟨hcs, hin⟩
  · have hm : cs.mode ≠ .hiZ := by
      cases on
      · cases he
      · exact hon.1 rfl
    simp [hin, csAfter, hm]
  · simp [csAfter]
  · rcases hq with ⟨d, v, rfl⟩ | rfl
    · cases q <;> cases v <;> simp_all [drivenAfter, csAfter]
    · cases q <;> simp_all [csAfter]
  · rw [hcs, ne_eq, hin]
    exact h

theorem At.event {p q : Place} {s t : State} {e : Event} (h : At p s) (ha : p.after e = some q)
    (ht : t.trace = s.trace ++ [e]) (hc : t.pads.cs = csAfter s.pads.cs e) : At q t := by
  obtain ⟨hrun, hon, hlow⟩ := h
  obtain ⟨l, hl, hmap⟩ := Option.bind_eq_some_iff.1 ha
  obtain ⟨on, hd, rfl⟩ := Option.map_eq_some_iff.1 hmap
  rw [At, ht, hc, Link.run_append, hrun]
  exact ⟨by simp [Link.run, hl], drivenAfter_iff hon hd, csLow_iff hon hlow hl hd⟩

/-! ### A step at its place -/

/-- The state stands at a place from which the rest of its step list keeps the framing laws. -/
def Placed (s : State) : Prop := ∃ p, At p s ∧ (p.run (s.program.drop s.seqPc)).isSome

theorem placed_silent {p : Place} {L : List SeqStep} {s t : State} (h : At p s) (hL : (p.run L).isSome)
    (ht : t.trace = s.trace) (hc : t.pads.cs = s.pads.cs) (hd : t.program.drop t.seqPc = L) : Placed t :=
  ⟨p, h.congr ht hc, hd ▸ hL⟩

theorem placed_event {p q : Place} {L : List SeqStep} {s t : State} {e : Event} (h : At p s) (ha : p.after e = some q)
    (hL : (q.run L).isSome) (ht : t.trace = s.trace ++ [e]) (hc : t.pads.cs = csAfter s.pads.cs e)
    (hd : t.program.drop t.seqPc = L) : Placed t :=
  ⟨q, h.event ha ht hc, hd ▸ hL⟩

/-- The attempts that can fail and the close stand between frames and stay there (R114). -/
theorem Place.after_between {p q : Place} {e : Event} (h : p.after e = some q)
    (he : (∃ r d l, e = .pinCfg r d l) ∨ (∃ req, e = .spiOpen req) ∨ e = .spiClose) :
    p.1 = .between ∧ q.1 = .between := by
  obtain ⟨l, hl, hmap⟩ := Option.bind_eq_some_iff.1 h
  obtain ⟨on, -, rfl⟩ := Option.map_eq_some_iff.1 hmap
  rcases he with ⟨r, d, v, rfl⟩ | ⟨req, rfl⟩ | rfl <;> unfold Link.next at hl <;> split at hl <;> simp_all

theorem Place.after_spiClose {p q : Place} (h : p.after .spiClose = some q) : q = p := by
  obtain ⟨hp, -⟩ := Place.after_between h (.inr (.inr rfl))
  obtain ⟨l, on⟩ := p
  cases hp
  exact (Option.some.inj h).symm

/-- An error entered between frames: its recovery is released pin by pin, and keeps the laws (R215, R220). -/
theorem placed_enterError {p : Place} {s : State} (h : At p s) (hb : p.1 = .between) (e : ErrKind) :
    Placed (enterError e s) := by
  obtain ⟨l, on⟩ := p
  cases hb
  unfold enterError
  split
  · refine placed_silent h (L := teardownSteps s ++ [.post e.result]) ?_ rfl rfl rfl
    rw [Place.run_append, run_teardownSteps]
    rfl
  · next he =>
    rw [raiseError, if_neg he]
    exact placed_silent h (L := []) rfl rfl rfl rfl

theorem placed_sendByte {p q : Place} {L : List SeqStep} {b : Byte} {s t : State} (h : At p s)
    (ha : p.after (.spiByte 0#8) = some q) (hL : (q.run L).isSome) (hd : s.program.drop s.seqPc = L)
    (hr : exec (.sendByte b) s = .next t) : Placed t := by
  cases (requireSession_next hr).2
  exact placed_event h (p.after_spiByte b 0#8 ▸ ha) hL rfl rfl hd

theorem writePin_cs (q : Pin) (l : Level) (s : State) :
    (writePin q l s).pads.cs = csAfter s.pads.cs (.pinWrite q l) := by
  cases q <;> rfl

theorem releasePin_cs (q : Pin) (s : State) : (releasePin q s).pads.cs = csAfter s.pads.cs (.pinRelease q) := by
  cases q <;> rfl

theorem pads_set_cs (q : Pin) (d : Drive) (l : Level) (ps : Pads) :
    (ps.set q ⟨driveMode d, l⟩).cs = csAfter ps.cs (.pinCfg q d l) := by
  cases q <;> rfl

/-- An entry of a step list that is checked from its place on. -/
theorem runSeqStep_placed {st : SeqStep} {L : List SeqStep} {p : Place} {s t : State} (h : At p s)
    (hcons : (p.run (st :: L)).isSome) (hd : s.program.drop s.seqPc = L) (hr : runSeqStep st s = .next t) :
    Placed t := by
  obtain ⟨q, hq, hL⟩ := Place.step_of_run_cons hcons
  cases st
  case instr i =>
    cases i <;> simp only [Place.step, reduceCtorEq] at hq
    case configureOutput r d l =>
      cases hr
      rw [configureOutput_eq]
      split
      · exact placed_enterError h (Place.after_between hq (.inl ⟨r, d, l, rfl⟩)).1 _
      · exact placed_event h hq hL rfl (pads_set_cs r d l s.pads) hd
    case spiOpen req =>
      cases hr
      rw [spiOpen_eq]
      split
      · exact placed_enterError (At.event (t := { s with trace := s.trace ++ [.spiOpen req] }) h hq rfl rfl)
          (Place.after_between hq (.inr (.inl ⟨req, rfl⟩))).2 _
      · exact placed_event h hq hL rfl rfl hd
    case write r l => cases hr; exact placed_event h hq hL rfl (writePin_cs r l s) hd
    case release r => cases hr; exact placed_event h hq hL rfl (releasePin_cs r s) hd
    case spiClose =>
      cases hr
      unfold spiClose
      split
      · exact placed_event h hq hL rfl rfl hd
      · exact placed_silent h (Place.after_spiClose hq ▸ hL) rfl rfl hd
    case sleep ms => cases hr; exact placed_event h hq hL rfl rfl hd
    case geometry r w hh => cases hr; cases hq; exact placed_silent h hL rfl rfl hd
    case sendByte b => exact placed_sendByte h ((p.after_spiByte 0#8 b).trans hq) hL hd hr
  case sendLineByte k => exact placed_sendByte h hq hL hd hr
  case sendImageByte a => exact placed_sendByte h hq hL hd hr
  case raise e =>
    cases hr
    rw [Place.step] at hq
    split at hq
    · next hb => exact placed_enterError h hb e
    · cases hq
  case post r => cases hr; exact placed_silent h (L := []) rfl rfl rfl rfl
  all_goals cases hr; cases hq; exact placed_silent h hL rfl rfl hd

/-- The sequencer's step keeps the place. -/
theorem step_placed {s t : State} (hin : s.inbox = []) (h : Placed s) (hs : step s = .next t) : Placed t := by
  obtain ⟨p, hat, hL⟩ := h
  rw [step_eq_sequencerStep hin] at hs
  cases hp : s.phase with
  | idle =>
    rw [sequencerStep_idle hp] at hs
    cases hs
    exact ⟨p, hat, hL⟩
  | exec c =>
    cases hst : s.program[s.seqPc]? with
    | none =>
      rw [sequencerStep_exec_end hp hst] at hs
      cases hs
      exact placed_silent hat (L := []) rfl rfl rfl rfl
    | some st =>
      rw [sequencerStep_exec hp hst] at hs
      obtain ⟨hlt, hget⟩ := List.getElem?_eq_some_iff.1 hst
      rw [List.drop_eq_getElem_cons hlt, hget] at hL
      exact runSeqStep_placed (s := { s with seqPc := s.seqPc + 1 }) hat hL rfl hs

/-! ### Each command's step list, from its place between commands -/

/-- `INIT` once its teardown has released CS (R191). -/
theorem run_initCommandSteps (typ : Option Byte) (bgr : Option Bool) {on : Bool} {s : State}
    (h : Place.run (.between, on) (deinitSteps s) = some (.between, false)) :
    (Place.run (.between, on) (initCommandSteps typ bgr s)).isSome := by
  unfold initCommandSteps
  split
  · rfl
  · rw [Place.run_append, h, Option.bind_some]
    split
    · rfl
    · next v _ =>
      rw [List.append_assoc, List.singleton_append, Place.run_cons, Place.step, Option.bind_some, Place.run_append,
        run_initSteps]
      rfl

/-- Every command's list, where the block is not initialised. -/
theorem run_commandSteps_of_isS0 {c : Instr} {s : State} (h : IsS0 s) :
    (Place.run (.between, false) (commandSteps c s)).isSome := by
  obtain ⟨hv, -⟩ := h
  have hd : deinitSteps s = [] := by simp only [deinitSteps, hv]
  cases c
  case init typ bgr => exact run_initCommandSteps typ bgr (by rw [hd]; rfl)
  case deinit => simp only [commandSteps, hd]; rfl
  case setBacklight st => simp only [commandSteps, setBacklightSteps, hv]; rfl
  case display roi => simp only [commandSteps, displaySteps, hv]; rfl
  case clear => simp only [commandSteps, clearCommandSteps, hv]; rfl
  all_goals rfl

/-- A stream between its geometry and its result. -/
theorem run_stream (r : Rect) (w h : Nat) (res : Result) {L : List SeqStep} (hL : WholeFrames L) :
    (betweenFrames.run (.instr (.geometry r w h) :: L ++ [.post res])).isSome := by
  rw [List.cons_append, Place.run_cons, Place.step, Option.bind_some, Place.run_append, hL]
  rfl

/-- Every command's list, where the block is initialised. -/
theorem run_commandSteps_of_isInit {c : Instr} {s : State} {v : Variant} (h : IsInit v s) :
    (betweenFrames.run (commandSteps c s)).isSome := by
  obtain ⟨hv, -, -, -, hr, -⟩ := h
  have hd : betweenFrames.run (deinitSteps s) = some (.between, false) := by
    simp only [deinitSteps, hv]
    exact run_teardownSteps true s
  cases c
  case init typ bgr => exact run_initCommandSteps typ bgr hd
  case deinit =>
    rw [commandSteps, Place.run_append, hd]
    rfl
  case setBacklight st => simp only [commandSteps, setBacklightSteps, hv, hr]; rfl
  case display roi =>
    simp only [commandSteps, displaySteps, hv]
    split
    · rfl
    · split
      · exact run_stream _ _ _ _ (wholeFrames_pump _ _ _)
      · rfl
  case clear =>
    simp only [commandSteps, clearCommandSteps, hv]
    exact run_stream _ _ _ _ (wholeFrames_clear _)
  all_goals rfl

/-- Between commands the state stands between frames, and every command's list starts well there. -/
theorem at_between {s : State} (h : DriverInv s) (hf : FramedTrace s) :
    ∃ on, At (.between, on) s ∧ ∀ c, (Place.run (.between, on) (commandSteps c s)).isSome := by
  rcases driverInv_cases h with h | ⟨v, h⟩
  · refine ⟨false, ⟨hf, ?_⟩, fun c => run_commandSteps_of_isS0 h⟩
    obtain ⟨-, -, -, -, -, -, -, hcs, -⟩ := h
    simp [hcs]
  · refine ⟨true, ⟨hf, ?_⟩, fun c => run_commandSteps_of_isInit h⟩
    obtain ⟨-, -, -, -, -, hcs, -⟩ := h
    simp [hcs]

/-! ### The whole run of a stepped command -/

/-- What each step keeps, the whole run keeps. -/
theorem run_keeps {P : State → Prop} (hP : ∀ s t, P s → step s = .next t → P t) {n : Nat} {s t : State}
    (h : P s) (hr : Host.Core.run core n s = .next t) : P t := by
  induction n generalizing s with
  | zero => cases hr; exact h
  | succ n ih =>
    simp only [Host.Core.run] at hr
    split at hr
    · next u hu => exact ih (hP s u h hu) hr
    · cases hr
    · cases hr

/-- A state inside the command that stands at its start in `b`, or after its end. -/
def Inside (b u : State) : Prop :=
  u.inbox = [] ∧ AllSmall u.program ∧ Placed u ∧
    (u.phase = .idle ∨ (u.phase = b.phase ∧ u.result = b.result ∧ u.results = b.results))

theorem step_inside {b s t : State} (h : Inside b s) (hs : step s = .next t) : Inside b t := by
  obtain ⟨hin, hsmall, hplaced, hph⟩ := h
  obtain ⟨tsmall, tin, -, tph⟩ := step_oneEvent hin hsmall hs
  refine ⟨tin.trans hin, tsmall, step_placed hin hplaced hs, ?_⟩
  rcases tph with tidle | ⟨t1, t2, t3⟩
  · exact .inl tidle
  · exact hph.imp t1.trans fun ⟨h1, h2, h3⟩ => ⟨t1.trans h1, t2.trans h2, t3.trans h3⟩

theorem beginCommand_inside (w : Half) {s : State} (h : DriverInv s) (hf : FramedTrace s) (hin : s.inbox = []) :
    Inside (beginCommand w s) (beginCommand w s) := by
  refine ⟨(beginCommand_inbox w s).trans hin, beginCommand_allSmall w s, ?_, .inr ⟨rfl, rfl, rfl⟩⟩
  obtain ⟨on, hat, hrun⟩ := at_between h hf
  cases hd : decodeHost w with
  | reject r => rw [beginCommand_reject hd]; exact placed_silent hat (L := []) rfl rfl rfl rfl
  | instr c => rw [beginCommand_instr hd hin]; exact placed_silent hat (hrun c) rfl rfl rfl

/-- Where a command that was begun is busy, it is the word's command, and nothing is posted. -/
theorem beginCommand_busy {w : Half} {s : State} {c : Instr} (h : (beginCommand w s).phase = .exec c) :
    decodeHost w = .instr c ∧ (beginCommand w s).result = s.result ∧ (beginCommand w s).results = s.results := by
  cases hd : decodeHost w with
  | reject r => rw [beginCommand_reject hd] at h; cases h
  | instr c' =>
    simp only [beginCommand, hd] at h ⊢
    cases h
    exact ⟨rfl, rfl, rfl⟩

theorem status_exec {s : State} {c : Instr} (h : s.phase = .exec c) : s.status = 1#16 := by
  rw [State.status, busy_eq_true h]
  rfl

/-- Settles O58: the first step begins the command inside its own framing laws, and every later step keeps them. -/
theorem steppedCommandKeepsTheFraming : Obligations.SteppedCommandKeepsTheFraming := by
  intro s t cw n hd hi _ hf hr
  obtain ⟨hphase, -, -⟩ := hi
  cases n with
  | zero =>
    cases hr
    obtain ⟨on, ⟨hrun, -, hlow⟩, -⟩ := at_between hd hf
    refine ⟨⟨_, hrun, hlow⟩, fun _ h => absurd h (by omega), fun hb => ?_⟩
    exact absurd ((busy_eq_false hphase).symm.trans hb) Bool.false_ne_true
  | succ n =>
    rw [run_succ (step_startCmd hphase)] at hr
    have hd' : DriverInv { s with inbox := [] } := driverInv_congr hd rfl rfl rfl rfl rfl rfl
    obtain ⟨-, -, ⟨p, ⟨hrun, -, hlow⟩, -⟩, hph⟩ :=
      run_keeps (fun _ _ => step_inside) (beginCommand_inside cw hd' hf rfl) hr
    refine ⟨⟨_, hrun, hlow⟩, fun c h hc => ?_, fun hb => ?_⟩
    · obtain rfl : n = 0 := by omega
      cases hr
      have hc : decodeHost cw = .instr c := hc
      rw [beginCommand_instr hc rfl]
      rfl
    · cases hp : t.phase with
      | idle => exact absurd ((busy_eq_false hp).symm.trans hb) Bool.false_ne_true
      | exec c =>
        rcases hph with hidle | ⟨h1, h2, h3⟩
        · exact absurd (hp.symm.trans hidle) (by simp)
        · obtain ⟨b1, b2, b3⟩ := beginCommand_busy (h1.symm.trans hp)
          exact ⟨c, b1, rfl, status_exec hp, h2.trans b2, h3.trans b3⟩

end Sys2Proof.Machine
end

section
/-! Image memory (20_memory.md): what a step does to it, where a `DISPLAY` reads it, what a read returns. -/

namespace Sys2Proof.Machine

/-! ### Who writes image memory, and what is never forgotten (R50, R33, R256) -/

/-- Settles O56: a step runs operations of the block, is the host's write of a byte while idle, or is a reset. -/
theorem stepAppendsToTheTraceAndReadsTheImage : Obligations.StepAppendsToTheTraceAndReadsTheImage := by
  intro s t h
  rcases step_cases h with
    ⟨u, hx, hmem, -, htrace, hresults, hresult⟩ | ⟨a, b, rest, hidle, hin, rfl⟩ | ⟨rest, hin, rfl⟩
  · obtain ⟨-, tmem, -, -, -, -, posted, appended⟩ := hx
    rw [hresults, hresult] at posted
    rw [htrace] at appended
    exact ⟨fun _ => tmem.trans hmem, fun _ => ⟨appended, posted⟩⟩
  · refine ⟨fun hno => ?_, fun _ => ⟨⟨[], (List.append_nil _).symm⟩, postsNothing rfl rfl⟩⟩
    rcases hno with hbusy | hno
    · exact absurd (hidle.symm.trans hbusy) Bool.false_ne_true
    · exact absurd (congrArg List.head? hin) (hno a b)
  · exact ⟨fun _ => rfl, fun hno => absurd (congrArg List.head? hin) hno⟩

/-! ### Where a `DISPLAY` reads (R51, R56, R163) -/

/-- The geometry unit cuts an axis to a part of it: it never starts earlier nor ends later. -/
theorem axis_within (start size panel : Nat) :
    (axis start size panel).1 + (axis start size panel).2.1 ≤ start + size := by
  unfold axis
  split
  · dsimp only
    omega
  · exact Nat.le_refl _

/-- The effective rectangle of a rectangle inside the image lies inside it too. -/
theorem rectInside_geometry {r : Rect} {x : OperandRegs} (w h : Nat) (hr : rectInside r x = true) :
    rectInside (geometry r w h).rect x = true := by
  simp only [rectInside, Bool.and_eq_true, decide_eq_true_eq] at hr ⊢
  obtain ⟨hx, hy⟩ := hr
  exact ⟨(axis_within r.x r.w w).trans hx, (axis_within r.y r.h h).trans hy⟩

/-- A pixel whose coordinates are the image's has its bytes between the image's base and its end. -/
theorem pixelAddr_inside (x : OperandRegs) (fmt : Fmt) {px py : Nat} (hx : px < x.imgW.toNat) (hy : py < x.imgH.toNat) :
    x.imgBase.toNat ≤ pixelAddr x fmt px py ∧
      pixelAddr x fmt px py + bpp fmt ≤ x.imgBase.toNat + bpp fmt * (x.imgW.toNat * x.imgH.toNat) := by
  have hindex : py * x.imgW.toNat + px + 1 ≤ x.imgW.toNat * x.imgH.toNat := by
    calc py * x.imgW.toNat + px + 1
      _ ≤ py * x.imgW.toNat + x.imgW.toNat := Nat.add_le_add_left hx _
      _ = (py + 1) * x.imgW.toNat := (Nat.succ_mul _ _).symm
      _ ≤ x.imgH.toNat * x.imgW.toNat := Nat.mul_le_mul_right _ hy
      _ = x.imgW.toNat * x.imgH.toNat := Nat.mul_comm _ _
  refine ⟨Nat.le_add_right _ _, ?_⟩
  rw [pixelAddr, Nat.add_assoc, ← Nat.mul_succ]
  exact Nat.add_le_add_left (Nat.mul_le_mul_left _ hindex) _

/-- Settles O45: a pixel of the effective rectangle is a pixel of the image. -/
theorem displayReadsInsideTheImage : Obligations.DisplayReadsInsideTheImage := by
  intro x fmt r w h i j hr g hi hj
  have hg : rectInside g.rect x = true := rectInside_geometry w h hr
  simp only [rectInside, Bool.and_eq_true, decide_eq_true_eq] at hg
  obtain ⟨hgx, hgy⟩ := hg
  exact pixelAddr_inside x fmt (by omega) (by omega)

/-! ### What a read returns (R50, R52, R53) -/

/-- The number two bytes stand for, the first being the high one. -/
theorem toNat_append_byte (hi lo : Byte) : (hi ++ lo : Half).toNat = hi.toNat * 256 + lo.toNat := by
  rw [BitVec.toNat_append, ← Nat.shiftLeft_add_eq_or_of_lt lo.isLt, Nat.shiftLeft_eq]

/-- Settles O30: the 8-bit read is the byte of memory, the 16-bit read the number its two bytes stand for. -/
theorem imageReadsAreBigEndian : Obligations.ImageReadsAreBigEndian :=
  fun _ _ => ⟨rfl, toNat_append_byte _ _⟩

/-- Settles O59: below 2^32 the cells change as written, and the free value beyond is no part of the memory. -/
theorem imageReadAfterWrite : Obligations.ImageReadAfterWrite := by
  intro m a b v hm ha
  unfold Memory.read
  split
  · exact Memory.lookup_write hm
  · next hb => rw [if_neg (by omega : b ≠ a)]

end Sys2Proof.Machine
end

section
/-! The two encodings (30_encoding.md R70 to R73, R76, R77, R79): a word is its fields, and what decodes is what encodes. -/

namespace Sys2Proof.Machine

/-! ### Fields of a word -/

theorem append_eq_append_iff {v w : Nat} {a c : BitVec v} {b d : BitVec w} : a ++ b = c ++ d ↔ a = c ∧ b = d := by
  refine ⟨fun h => ⟨?_, ?_⟩, fun ⟨h, k⟩ => by rw [h, k]⟩
  · simpa only [BitVec.extractLsb'_append_eq_left] using congrArg (BitVec.extractLsb' w v) h
  · simpa only [BitVec.extractLsb'_append_eq_right] using congrArg (BitVec.extractLsb' 0 w) h

theorem exists_eq_append {v w : Nat} (x : BitVec (v + w)) : ∃ (a : BitVec v) (b : BitVec w), x = a ++ b :=
  ⟨x.extractLsb' w v, x.extractLsb' 0 w,
    ((BitVec.extractLsb'_append_extractLsb'_eq_extractLsb' (Nat.zero_add w).symm).trans
      BitVec.extractLsb'_eq_self).symm⟩

theorem exists_eq_bit (x : BitVec 1) : ∃ b, x = bit b := ⟨x.getLsbD 0, by revert x; decide⟩

/-! ### The argument of `INIT` (R72) -/

/-- `INIT`'s argument by its fields: the bit that must be 0, `type_given`, `bgr_given`, `bgr`, `type`. -/
def initArg (zero typeGiven bgrGiven bgr : Bool) (typ : Byte) : BitVec 12 :=
  bit zero ++ (bit typeGiven ++ (bit bgrGiven ++ (bit bgr ++ typ)))

theorem exists_eq_initArg (arg : BitVec 12) : ∃ z g h k t, arg = initArg z g h k t := by
  obtain ⟨z, arg, rfl⟩ := exists_eq_append (v := 1) (w := 11) arg
  obtain ⟨g, arg, rfl⟩ := exists_eq_append (v := 1) (w := 10) arg
  obtain ⟨h, arg, rfl⟩ := exists_eq_append (v := 1) (w := 9) arg
  obtain ⟨k, t, rfl⟩ := exists_eq_append (v := 1) (w := 8) arg
  obtain ⟨z, rfl⟩ := exists_eq_bit z
  obtain ⟨g, rfl⟩ := exists_eq_bit g
  obtain ⟨h, rfl⟩ := exists_eq_bit h
  obtain ⟨k, rfl⟩ := exists_eq_bit k
  exact ⟨z, g, h, k, t, rfl⟩

/-- A bit of the argument is a bit of the field it lies in. -/
theorem getLsbD_initArg (z g h k : Bool) (t : Byte) (i : Nat) : (initArg z g h k t).getLsbD i =
    if i < 11 then if i < 10 then if i < 9 then if i < 8 then t.getLsbD i else (bit k).getLsbD (i - 8)
    else (bit h).getLsbD (i - 9) else (bit g).getLsbD (i - 10) else (bit z).getLsbD (i - 11) := by
  show BitVec.getLsbD (w := 1 + (1 + (1 + (1 + 8)))) (bit z ++ (bit g ++ (bit h ++ (bit k ++ t)))) i = _
  simp only [BitVec.getLsbD_append]

theorem ite_reject_eq_instr_iff {p : Prop} [Decidable p] {r : Reject} {d : Decoded} {i : Instr} :
    (if p then .reject r else d) = .instr i ↔ ¬ p ∧ d = .instr i := by
  split <;> simp [*]

/-- Which arguments decode, and to what (R72, R76). -/
theorem decodeInit_initArg_iff {z g h k : Bool} {t : Byte} {i : Instr} : decodeInit (initArg z g h k t) = .instr i ↔
    z = false ∧ (g = false → t = 0#8) ∧ (h = false → k = false) ∧
      i = .init (if g then some t else none) (if h then some k else none) := by
  have ht : (initArg z g h k t).extractLsb' 0 8 = t := by
    ext j hj
    simp [getLsbD_initArg, hj, show j < 9 by omega, show j < 10 by omega, show j < 11 by omega]
  simp [decodeInit, ht, getLsbD_initArg, bit, ite_reject_eq_instr_iff, eq_comm (a := i), -BitVec.getLsbD_eq_getElem]

theorem encodeInitArg_eq (typ : Option Byte) (bgr : Option Bool) :
    encodeInitArg typ bgr = initArg false typ.isSome bgr.isSome (bgr.getD false) (typ.getD 0#8) := rfl

theorem encodeInitArg_of_fields {g h k : Bool} {t : Byte} (hg : g = false → t = 0#8) (hh : h = false → k = false) :
    encodeInitArg (if g then some t else none) (if h then some k else none) = initArg false g h k t := by
  cases g <;> cases h <;> simp_all [encodeInitArg_eq]

/-- The argument that decodes to an `INIT` is the one that `INIT` encodes to. -/
theorem decodeInit_eq_instr_iff {arg : BitVec 12} {i : Instr} :
    decodeInit arg = .instr i ↔ ∃ typ bgr, i = .init typ bgr ∧ arg = encodeInitArg typ bgr := by
  constructor
  · intro hd
    obtain ⟨z, g, h, k, t, rfl⟩ := exists_eq_initArg arg
    obtain ⟨rfl, hg, hh, rfl⟩ := decodeInit_initArg_iff.1 hd
    exact ⟨_, _, rfl, (encodeInitArg_of_fields hg hh).symm⟩
  · rintro ⟨typ, bgr, rfl, rfl⟩
    rw [encodeInitArg_eq, decodeInit_initArg_iff]
    cases typ <;> cases bgr <;> simp

/-! ### Host words (R70, R71, R73) -/

theorem decodeNoArg_eq_instr_iff {arg : BitVec 12} {c i : Instr} :
    decodeNoArg arg c = .instr i ↔ arg = 0#12 ∧ i = c := by
  unfold decodeNoArg
  split <;> simp [*, eq_comm (a := i)]

theorem decodeDisplay_eq_instr {arg : BitVec 12} {i : Instr}
    (h : (if arg.extractLsb' 1 11 = 0#11 then .instr (.display (arg.getLsbD 0)) else .reject .mustBeZero) =
      Decoded.instr i) : ∃ b, arg = 0#11 ++ bit b ∧ i = .display b := by
  obtain ⟨hi, lo, rfl⟩ := exists_eq_append (v := 11) (w := 1) arg
  obtain ⟨b, rfl⟩ := exists_eq_bit lo
  rw [BitVec.extractLsb'_append_eq_left, BitVec.getLsbD_append] at h
  split at h
  · next hz => exact ⟨b, by rw [hz], by simpa [bit, eq_comm] using h⟩
  · cases h

/-- The rows of the opcode table: operation field, argument, command (R71 to R73). -/
inductive HostRow : BitVec 4 → BitVec 12 → Instr → Prop
  | init (typ : Option Byte) (bgr : Option Bool) : HostRow 0x1#4 (encodeInitArg typ bgr) (.init typ bgr)
  | deinit : HostRow 0x2#4 0#12 .deinit
  | width : HostRow 0x3#4 0#12 .width
  | height : HostRow 0x4#4 0#12 .height
  | type : HostRow 0x5#4 0#12 .type
  | setBacklight (state : BitVec 12) : HostRow 0x6#4 state (.setBacklight state)
  | getBacklight : HostRow 0x7#4 0#12 .getBacklight
  | display (roi : Bool) : HostRow 0x8#4 (0#11 ++ bit roi) (.display roi)
  | clear : HostRow 0x9#4 0#12 .clear

theorem HostRow.of_noArg {op : BitVec 4} {arg : BitVec 12} {n : Nat} {c i : Instr} (ho : op.toNat = n)
    (h : decodeNoArg arg c = .instr i) (hr : HostRow (BitVec.ofNat 4 n) 0#12 c) : HostRow op arg i := by
  obtain ⟨rfl, rfl⟩ := decodeNoArg_eq_instr_iff.1 h
  exact (BitVec.toNat_eq_nat.1 ho).2 ▸ hr

/-- A word decodes to the command of its row, and only to that. -/
theorem decodeHost_append_iff {op : BitVec 4} {arg : BitVec 12} {i : Instr} :
    decodeHost (op ++ arg) = .instr i ↔ HostRow op arg i := by
  unfold decodeHost
  simp only [BitVec.extractLsb'_append_eq_left, BitVec.extractLsb'_append_eq_right]
  constructor
  · intro h
    split at h
    case h_1 ho =>
      obtain ⟨typ, bgr, rfl, rfl⟩ := decodeInit_eq_instr_iff.1 h
      exact (BitVec.toNat_eq_nat.1 ho).2 ▸ .init typ bgr
    case h_2 ho => exact .of_noArg ho h .deinit
    case h_3 ho => exact .of_noArg ho h .width
    case h_4 ho => exact .of_noArg ho h .height
    case h_5 ho => exact .of_noArg ho h .type
    case h_6 ho => cases h; exact (BitVec.toNat_eq_nat.1 ho).2 ▸ .setBacklight arg
    case h_7 ho => exact .of_noArg ho h .getBacklight
    case h_8 ho =>
      obtain ⟨b, rfl, rfl⟩ := decodeDisplay_eq_instr h
      exact (BitVec.toNat_eq_nat.1 ho).2 ▸ .display b
    case h_9 ho => exact .of_noArg ho h .clear
    case h_10 => cases h
  · intro h
    cases h
    case init typ bgr => exact decodeInit_eq_instr_iff.2 ⟨typ, bgr, rfl, rfl⟩
    case display b => cases b <;> rfl
    all_goals rfl

/-- The word of a row is the command's encoding, and the command is well formed. -/
theorem HostRow.encode {op : BitVec 4} {arg : BitVec 12} {i : Instr} (h : HostRow op arg i) :
    encode i = some (hostWord op arg) ∧ i.wellFormed = true := by
  cases h <;> exact ⟨rfl, rfl⟩

/-- Every command has a row. -/
theorem exists_hostRow {i : Instr} (h : i.level = .host) : ∃ op arg, HostRow op arg i := by
  cases i <;> simp only [Instr.level, reduceCtorEq] at h <;> exact ⟨_, _, by constructor⟩

/-! ### Wire symbols (R77, R79) -/

/-- A byte is a command symbol's, and of which command, by the table of R79. -/
theorem decodeCommandByte_eq_instr_iff {b : Byte} {i : Instr} :
    decodeCommandByte b = .instr i ↔ (i, b) ∈ commandSymbols := by
  constructor
  · intro h
    unfold decodeCommandByte at h
    split at h
    case h_24 => cases h
    all_goals
      next hb =>
        cases h
        rw [(BitVec.toNat_eq_nat.1 hb).2]
        decide
  · have rows : ∀ x ∈ commandSymbols, decodeCommandByte x.2 = .instr x.1 := by decide
    exact rows (i, b)

theorem mem_commandBytes_iff {b : Byte} : b ∈ commandBytes ↔ ∃ i, (i, b) ∈ commandSymbols := by
  have h : commandBytes = commandSymbols.map Prod.snd := rfl
  simp [h]

theorem encode_commandSymbol : ∀ x ∈ commandSymbols, encode x.1 = some (cmdSymbol x.2) ∧ x.1.wellFormed = true := by
  decide

theorem decodeWire_high (b : Byte) : decodeWire (1#1 ++ b) = .instr (.dataOrParameterByte b) := by
  have hdc : (1#1 ++ b : BitVec 9).getLsbD 8 = true := BitVec.getLsbD_append
  rw [decodeWire, if_pos hdc, BitVec.extractLsb'_append_eq_right]

theorem decodeWire_low (b : Byte) : decodeWire (0#1 ++ b) = decodeCommandByte b := by
  have hdc : (0#1 ++ b : BitVec 9).getLsbD 8 = false := BitVec.getLsbD_append
  rw [decodeWire, hdc, if_neg Bool.false_ne_true, BitVec.extractLsb'_append_eq_right]

theorem wire_cases {i : Instr} (h : i.level = .wire) :
    (∃ b, i = .dataOrParameterByte b) ∨ ∃ b, (i, b) ∈ commandSymbols := by
  cases i <;> simp only [Instr.level, reduceCtorEq] at h
  case dataOrParameterByte b => exact .inl ⟨b, rfl⟩
  all_goals exact .inr (by simp [commandSymbols])

/-- What a symbol decodes to (R77). -/
theorem decodeWire_eq_instr {sym : BitVec 9} {i : Instr} (h : decodeWire sym = .instr i) :
    (∃ b, sym = 1#1 ++ b ∧ i = .dataOrParameterByte b) ∨ ∃ b, sym = 0#1 ++ b ∧ (i, b) ∈ commandSymbols := by
  obtain ⟨dc, b, rfl⟩ := exists_eq_append (v := 1) (w := 8) sym
  obtain ⟨dc, rfl⟩ := exists_eq_bit dc
  cases dc with
  | true => exact .inl ⟨b, rfl, (Decoded.instr.inj ((decodeWire_high b).symm.trans h)).symm⟩
  | false => exact .inr ⟨b, rfl, decodeCommandByte_eq_instr_iff.1 ((decodeWire_low b).symm.trans h)⟩

/-! ### Decoding and encoding -/

/-- Settles O1: a host command has its row, a wire symbol its byte. -/
theorem decodeOfEncodeIsTheInstruction : Obligations.DecodeOfEncodeIsTheInstruction := by
  intro i _ hstep
  cases hl : i.level with
  | host =>
    obtain ⟨op, arg, hrow⟩ := exists_hostRow hl
    exact ⟨hostWord op arg, hrow.encode.1, decodeHost_append_iff.2 hrow⟩
  | step => exact absurd hl hstep
  | wire =>
    rcases wire_cases hl with ⟨b, rfl⟩ | ⟨b, hb⟩
    · exact ⟨_, rfl, decodeWire_high b⟩
    · exact ⟨cmdSymbol b, (encode_commandSymbol _ hb).1,
        (decodeWire_low b).trans (decodeCommandByte_eq_instr_iff.2 hb)⟩

/-- Settles O2: a word that decodes is the word of a row, a data symbol, or the symbol of a command byte. -/
theorem everyDecodedWordIsTheEncoding : Obligations.EveryDecodedWordIsTheEncoding := by
  intro w i h
  cases w with
  | host cw =>
    obtain ⟨op, arg, rfl⟩ := exists_eq_append (v := 4) (w := 12) cw
    exact (decodeHost_append_iff.1 h).encode
  | wire sym =>
    rcases decodeWire_eq_instr h with ⟨b, rfl, rfl⟩ | ⟨b, rfl, hb⟩
    · exact ⟨rfl, rfl⟩
    · exact encode_commandSymbol _ hb

/-! ### The opcode table's masks (R71, R72) -/

/-- A mask on a word is a mask on each of its fields. -/
theorem and_append_eq_append_iff {v w : Nat} {a m c : BitVec v} {b n d : BitVec w} :
    (a ++ b) &&& (m ++ n) = c ++ d ↔ a &&& m = c ∧ b &&& n = d := by
  rw [BitVec.and_append, append_eq_append_iff]

/-- The same at the widths of a host word (R70). -/
theorem hostWord_and_eq_iff {op m c : BitVec 4} {arg n d : BitVec 12} :
    (op ++ arg : Half) &&& (m ++ n : Half) = (c ++ d : Half) ↔ op &&& m = c ∧ arg &&& n = d :=
  and_append_eq_append_iff

theorem bit_append_and_iff {w : Nat} {x y c : Bool} {b n d : BitVec w} :
    (bit x ++ b) &&& (bit y ++ n) = bit c ++ d ↔ (x && y) = c ∧ b &&& n = d := by
  have bit_and : bit x &&& bit y = bit c ↔ (x && y) = c := by revert x y c; decide
  rw [and_append_eq_append_iff, bit_and]

theorem initArg_and_eq_iff {z g h k z' g' h' k' z'' g'' h'' k'' : Bool} {t t' t'' : Byte} :
    initArg z g h k t &&& initArg z' g' h' k' t' = initArg z'' g'' h'' k'' t'' ↔
      (z && z') = z'' ∧ (g && g') = g'' ∧ (h && h') = h'' ∧ (k && k') = k'' ∧ t &&& t' = t'' :=
  bit_append_and_iff.trans (and_congr_right' (bit_append_and_iff.trans (and_congr_right' (bit_append_and_iff.trans
    (and_congr_right' bit_append_and_iff)))))

theorem and_nibble (op : BitVec 4) : op &&& 0xF#4 = op := BitVec.and_allOnes

/-- The row of `INIT` with its two conditions, as masks. -/
theorem initRow_iff {op : BitVec 4} {arg : BitVec 12} :
    ((op ++ arg : Half) &&& 0xF800#16 = 0x1000#16 ∧
      ((op ++ arg : Half) &&& 0x0400#16 = 0#16 → (op ++ arg : Half) &&& 0x00FF#16 = 0#16) ∧
      ((op ++ arg : Half) &&& 0x0200#16 = 0#16 → (op ++ arg : Half) &&& 0x0100#16 = 0#16)) ↔
    op = 0x1#4 ∧ ∃ i, decodeInit arg = .instr i := by
  obtain ⟨z, g, h, k, t, rfl⟩ := exists_eq_initArg arg
  rw [show 0xF800#16 = 0xF#4 ++ initArg true false false false 0#8 from rfl,
    show 0x1000#16 = 0x1#4 ++ initArg false false false false 0#8 from rfl,
    show 0x0400#16 = 0x0#4 ++ initArg false true false false 0#8 from rfl,
    show 0x00FF#16 = 0x0#4 ++ initArg false false false false 0xFF#8 from rfl,
    show 0x0200#16 = 0x0#4 ++ initArg false false true false 0#8 from rfl,
    show 0x0100#16 = 0x0#4 ++ initArg false false false true 0#8 from rfl,
    show 0#16 = 0x0#4 ++ initArg false false false false 0#8 from rfl]
  have ht : t &&& 0xFF#8 = t := BitVec.and_allOnes
  simp [hostWord_and_eq_iff, initArg_and_eq_iff, decodeInit_initArg_iff, and_nibble, ht, and_assoc]

/-- The row of `SET_BACKLIGHT`, as a mask. -/
theorem setBacklightRow_iff {op : BitVec 4} {arg : BitVec 12} :
    (op ++ arg : Half) &&& 0xF000#16 = 0x6000#16 ↔ op = 0x6#4 := by
  rw [show 0xF000#16 = 0xF#4 ++ 0#12 from rfl, show 0x6000#16 = 0x6#4 ++ 0#12 from rfl, hostWord_and_eq_iff, and_nibble]
  simp

/-- The row of `DISPLAY`, as a mask. -/
theorem displayRow_iff {op : BitVec 4} {arg : BitVec 12} :
    (op ++ arg : Half) &&& 0xFFFE#16 = 0x8000#16 ↔ op = 0x8#4 ∧ ∃ b, arg = 0#11 ++ bit b := by
  obtain ⟨hi, lo, rfl⟩ := exists_eq_append (v := 11) (w := 1) arg
  obtain ⟨b, rfl⟩ := exists_eq_bit lo
  have hlo : bit b &&& 0#1 = 0#1 := BitVec.and_zero
  have hhi : hi &&& 0x7FF#11 = hi := BitVec.and_allOnes
  have hhigh : (∃ c, (hi ++ bit b : BitVec 12) = 0#11 ++ bit c) ↔ hi = 0#11 :=
    ⟨fun ⟨_, h⟩ => (append_eq_append_iff.1 h).1, fun h => ⟨b, by rw [h]⟩⟩
  rw [show 0xFFFE#16 = 0xF#4 ++ (0x7FF#11 ++ 0#1 : BitVec 12) from rfl,
    show 0x8000#16 = 0x8#4 ++ (0#11 ++ 0#1 : BitVec 12) from rfl, hostWord_and_eq_iff, and_nibble,
    and_append_eq_append_iff, hhi, and_iff_left hlo, hhigh]

/-- Settles O3: each row's mask is a condition on the fields, and the row decodes exactly where it holds. -/
theorem legalHostWordsAreTheTableRows : Obligations.LegalHostWordsAreTheTableRows := by
  intro cw
  obtain ⟨op, arg, rfl⟩ := exists_eq_append (v := 4) (w := 12) cw
  have legal : ∀ {i}, HostRow op arg i → ∃ i, decode (.host (op ++ arg)) = .instr i :=
    fun h => ⟨_, decodeHost_append_iff.2 h⟩
  rw [initRow_iff, setBacklightRow_iff, displayRow_iff]
  constructor
  · rintro ⟨i, h⟩
    cases decodeHost_append_iff.1 h with
    | init typ bgr => exact .inl ⟨rfl, _, decodeInit_eq_instr_iff.2 ⟨typ, bgr, rfl, rfl⟩⟩
    | display roi => exact .inr (.inr (.inr (.inr (.inr (.inr (.inr (.inl ⟨rfl, roi, rfl⟩)))))))
    | deinit | width | height | type | setBacklight | getBacklight | clear => simp
  · rintro (⟨rfl, i, h⟩ | h | h | h | h | rfl | h | ⟨rfl, b, rfl⟩ | h)
    · obtain ⟨typ, bgr, rfl, rfl⟩ := decodeInit_eq_instr_iff.1 h
      exact legal (.init typ bgr)
    · exact ⟨.deinit, by rw [h]; rfl⟩
    · exact ⟨.width, by rw [h]; rfl⟩
    · exact ⟨.height, by rw [h]; rfl⟩
    · exact ⟨.type, by rw [h]; rfl⟩
    · exact legal (.setBacklight arg)
    · exact ⟨.getBacklight, by rw [h]; rfl⟩
    · exact legal (.display b)
    · exact ⟨.clear, by rw [h]; rfl⟩

/-! ### Symbols and worked words (R77, R79, T30) -/

/-- Settles O4: the DC bit says what the byte is, and the command bytes are those of the table of R79. -/
theorem wireSymbolsDecodeByDcAndByte : Obligations.WireSymbolsDecodeByDcAndByte := by
  refine fun b => ⟨decodeWire_high b, ?_⟩
  simp only [decode, decodeWire_low, decodeCommandByte_eq_instr_iff, mem_commandBytes_iff]

/-- Settles O5, word by word. -/
theorem workedWordsDecode : Obligations.WorkedWordsDecode := by
  unfold Obligations.WorkedWordsDecode
  decide

/-! ### Symbols as operations (R77 to R79) -/

/-- A session is what a sending operation requires (R102). -/
theorem requireSession_of_ne_none {s : State} (h : s.spi ≠ none) (k : Host.Outcome State Fault Refusal) :
    requireSession s k = k := by
  unfold requireSession
  split
  · next hn => exact absurd hn h
  · rfl

theorem exec_commandSymbol (s : State) : ∀ x ∈ commandSymbols, exec x.1 s = commandSymbol x.2 s := by
  intro x hx
  fin_cases hx <;> rfl

/-- Settles O21: with a session the symbol's frame goes out. -/
theorem wireSymbolsGoOutAsOneFrame : Obligations.WireSymbolsGoOutAsOneFrame := by
  refine fun s hs => ⟨fun x hx => ?_, fun b => ?_⟩
  · rw [exec_commandSymbol s x hx, commandSymbol, requireSession_of_ne_none hs, cmdFrame_eq, framed]
  · rw [exec, execDataOrParameterByte, requireSession_of_ne_none hs, paramFrame_eq, framed]

end Sys2Proof.Machine
end

section
/-! What every step between commands keeps of `RESULT` and of the bytes sent (30_encoding.md R74, R75, R79). -/

namespace Sys2Proof.Machine

/-- What a step between commands does to `RESULT` and the wire history: nothing, what a whole command does, or a reset. -/
theorem step_idle_ends {s t : State} (hd : DriverInv s) (hi : Idle s) (hw : WholeCommands s) (h : step s = .next t) :
    (t.result = s.result ∧ t.trace = s.trace) ∨
    (LegalResult t ∧ ∃ es, t.trace = s.trace ++ es ∧ WellFramed es) ∨
    (t.result = State.reset.result ∧ t.trace = State.reset.trace) := by
  rcases step_idle_cases hi hw with ⟨rest, regs, mem, rd, hs, -⟩ | ⟨w, rest, -, hs⟩ | ⟨rest, -, hs⟩
  · cases hs.symm.trans h
    exact .inl ⟨rfl, rfl⟩
  · obtain ⟨t', ht', -, -, hresult, htrace⟩ := runCommand_ends w (s := { s with inbox := rest })
      (driverInv_congr hd rfl rfl rfl rfl rfl rfl)
    cases (hs.trans ht').symm.trans h
    exact .inr (.inl ⟨hresult, htrace⟩)
  · cases hs.symm.trans h
    exact .inr (.inr ⟨rfl, rfl⟩)

/-- Settles O53: a command appends whole frames, whose command bytes are those of R79. -/
theorem stepSendsOnlyKnownCommands : Obligations.StepSendsOnlyKnownCommands := by
  intro s t hd hi hw _ hk h b hb
  rcases step_idle_ends hd hi hw h with ⟨-, htrace⟩ | ⟨-, es, htrace, -, hes⟩ | ⟨-, htrace⟩
  · rw [htrace] at hb
    exact hk b hb
  · rw [htrace, symbols_append, List.mem_append] at hb
    exact hb.elim (hk b) (hes _ b)
  · rw [htrace] at hb
    exact knownCommands_reset b hb

/-- Settles O54: a command posts a legal word, and a reset's word is `NONE`. -/
theorem stepKeepsTheResultLegal : Obligations.StepKeepsTheResultLegal := by
  intro s t hd hi hw hl h
  rcases step_idle_ends hd hi hw h with ⟨hresult, -⟩ | ⟨hlegal, -⟩ | ⟨hresult, -⟩
  · rwa [LegalResult, hresult]
  · exact hlegal
  · exact .inl hresult

end Sys2Proof.Machine
end

section
/-! The pads' operations (40_pins.md R90 to R93), and the end of an `INIT` that cannot acquire a pad or the session
(60_exceptions.md R214, R215, R220; log 19). -/

namespace Sys2Proof.Machine

/-! ### The pads (R90 to R93) -/

/-- `write` sets the latch of its pad and keeps the mode (R91). -/
theorem exec_write (p : Pin) (l : Level) (s : State) : exec (.write p l) s = .next { s with
    pads := s.pads.set p ⟨(s.pads.get p).mode, l⟩, trace := s.trace ++ [.pinWrite p l] } := rfl

/-- `release` takes its pad to high impedance and keeps the latch (R93). -/
theorem exec_release (p : Pin) (s : State) : exec (.release p) s = .next { s with
    pads := s.pads.set p ⟨.hiZ, (s.pads.get p).latch⟩, trace := s.trace ++ [.pinRelease p] } := rfl

/-- A level as a word of the value field (R92; log 17). -/
theorem ofNat_level_toNat (l : Level) : BitVec.ofNat 16 l.toNat = if l = .high then 1#16 else 0#16 := by
  cases l <;> rfl

theorem exec_read (p : Pin) (s : State) : exec (.read p) s = .next { s with
    value := if (s.pads.get p).latch = .high then 1#16 else 0#16 } := by
  rw [← ofNat_level_toNat]
  rfl

theorem exec_configureOutput_of_ne {p : Pin} (d : Drive) (l : Level) {s : State} (h : s.drawInForce ≠ .gpioFail p) :
    exec (.configureOutput p d l) s = .next { s with
      pads := s.pads.set p ⟨driveMode d, l⟩, trace := s.trace ++ [.pinCfg p d l] } := by
  rw [exec, execConfigureOutput, configureOutput_eq, if_neg h, StepOut.entered]

/-- Settles O14: the new pads are the old with one set. -/
theorem configureOutputSetsThePad : Obligations.ConfigureOutputSetsThePad := fun _ _ d l h =>
  ⟨_, exec_configureOutput_of_ne d l h, Pads.get_set_self _ _ _, fun _ hq => Pads.get_set_other _ _ hq⟩

/-- Settles O15: what each step does to its pad, the other pads being those of `Pads.set`. -/
theorem padStepsWriteReadRelease : Obligations.PadStepsWriteReadRelease := fun s p l =>
  ⟨⟨_, exec_write p l s, Pads.get_set_self _ _ _, fun _ hq => Pads.get_set_other _ _ hq⟩, exec_read p s,
    ⟨_, exec_release p s, Pads.get_set_self _ _ _, fun _ hq => Pads.get_set_other _ _ hq⟩⟩

/-! ### `Rollback()` (R215) -/

theorem rolledBack_rollback (s : State) : RolledBack s (rollback s) := by
  rw [rollback_eq]
  exact ⟨rfl, rfl, rfl, rfl, rfl, rfl, rfl, rfl, rfl, ⟨rfl, rfl, rfl, rfl, rfl, rfl, rfl, rfl⟩, rfl, rfl, rfl⟩

theorem rollback_trace (s : State) : (rollback s).trace = s.trace ++ rollbackEvents s := by
  rw [rollback_eq, rollbackEvents]
  cases s.spi <;> simp

theorem rollback_results (s : State) : (rollback s).results = s.results := by
  rw [rollback_eq]

/-- The posting of a result writes nothing `RolledBack` speaks of. -/
theorem RolledBack.post {s t : State} (h : RolledBack s t) (r : Result) : RolledBack s (post r t) := h

/-! ### A failed acquisition (R214, R220; log 19) -/

/-- The draw of the running `INIT` is the one in force (R35). -/
theorem drawInForce_init {s : State} {typ : Option Byte} {bgr : Option Bool} (h : s.phase = .exec (.init typ bgr)) :
    s.drawInForce = s.acq := by
  rw [State.drawInForce, h]

theorem exec_configureOutput_of_eq {p : Pin} (d : Drive) (l : Level) {s : State} (h : s.drawInForce = .gpioFail p) :
    exec (.configureOutput p d l) s = .next (enterError .hardwareUnavailable s) := by
  rw [exec, execConfigureOutput, configureOutput_eq, if_pos h, StepOut.entered]

theorem exec_spiOpen_of_eq (req : ClockReq) {s : State} (h : s.drawInForce = .spiFail) :
    exec (.spiOpen req) s = .next (enterError .spiUnavailable { s with trace := s.trace ++ [.spiOpen req] }) := by
  rw [exec, execSpiOpen, spiOpen_eq, if_pos h, StepOut.entered]

/-- A running command with no host move to come is at a step of its own list. -/
theorem atStep_self {s : State} {c : Instr} (hp : s.phase = .exec c) (hin : s.inbox = []) :
    atStep c s.program s.seqPc s = s := by
  rw [atStep, ← hp, ← hin]

/-- The steps an error with a recovery puts in place of the list run to the end of the command: the rollback, then the
result word. -/
theorem run_enterError_rolledBack {e : ErrKind} (he : e.rollsBack = true) {s : State} {c : Instr}
    (hp : s.phase = .exec c) (hin : s.inbox = []) :
    ∃ n t, Host.Core.run core n (enterError e s) = .next t ∧ RolledBack s t ∧ Idle t ∧ t.result = e.result.word ∧
      t.results = s.results ++ [e.result.word] ∧ t.trace = s.trace ++ rollbackEvents s := by
  obtain ⟨n, hn⟩ := run_enterError c s.program s.seqPc e s
  rw [atStep_self hp hin, inbox_cleared hin, raiseError, if_pos he] at hn
  refine ⟨n, _, hn, (rolledBack_rollback s).post _, idle_post _ _, rfl, ?_, rollback_trace s⟩
  exact congrArg (· ++ [e.result.word]) (rollback_results s)

/-- Settles O24: the step enters the error, whose steps run to the end of the command. -/
theorem failedAcquisitionEndsTheInit : Obligations.FailedAcquisitionEndsTheInit := by
  intro s typ bgr hp
  refine ⟨fun p d l ha => ?_, fun req ha => ?_⟩
  · have hexec := exec_configureOutput_of_eq d l ((drawInForce_init hp).trans ha)
    exact ⟨_, hexec, rfl, fun hin => run_enterError_rolledBack (e := .hardwareUnavailable) rfl hp hin⟩
  · have hexec := exec_spiOpen_of_eq req ((drawInForce_init hp).trans ha)
    exact ⟨_, hexec, rfl, fun hin => run_enterError_rolledBack (e := .spiUnavailable)
      (s := { s with trace := s.trace ++ [.spiOpen req] }) rfl hp hin⟩

end Sys2Proof.Machine
end

section
/-! The operations of the SPI session and the sleep (41_spi.md R100, R102 to R104; 60_exceptions.md R224), and the
sending operations without a session (log 15). -/

namespace Sys2Proof.Machine

/-! ### The session's operations and the sleep -/

/-- `open` where the draw lets it have the controller (R100). -/
theorem exec_spiOpen_of_ne (req : ClockReq) {s : State} (h : s.drawInForce ≠ .spiFail) :
    exec (.spiOpen req) s = .next { s with spi := some req, trace := s.trace ++ [.spiOpen req] } := by
  rw [exec, execSpiOpen, spiOpen_eq, if_neg h, StepOut.entered]

theorem exec_sendByte_of_ne_none (b : Byte) {s : State} (h : s.spi ≠ none) :
    exec (.sendByte b) s = .next { s with trace := s.trace ++ [.spiByte b] } := by
  rw [exec, execSendByte, requireSession_of_ne_none h, sendByte, emit]

/-- The bytes sent are the first `len` of the buffer, in index order (R103). -/
theorem exec_sendBytes_of_ne_none {buf : List Byte} {len : Nat} {s : State} (h : s.spi ≠ none)
    (hlen : len ≤ buf.length) : exec (.sendBytes buf len) s = .next { s with
      trace := s.trace ++ (List.range len).map fun k => .spiByte (buf.getD k 0#8) } := by
  rw [exec, execSendBytes, requireSession_of_ne_none h, sendBytes, emit, ← map_getD_range buf len hlen, List.map_map]
  rfl

theorem spiClose_of_ne_none {s : State} (h : s.spi ≠ none) :
    spiClose s = { s with spi := none, trace := s.trace ++ [.spiClose] } := by
  rw [spiClose, if_pos (Option.isSome_iff_ne_none.2 h), emit]

theorem spiClose_of_eq_none {s : State} (h : s.spi = none) : spiClose s = s := by
  rw [spiClose, h]
  rfl

theorem exec_spiClose (s : State) : exec .spiClose s = .next (spiClose s) := rfl

theorem exec_sleep (ms : Nat) (s : State) :
    exec (.sleep ms) s = .next { s with trace := s.trace ++ [.delay ms] } := rfl

/-- Settles O16, operation by operation. -/
theorem linkStepsOpenSendCloseSleep : Obligations.LinkStepsOpenSendCloseSleep := fun s =>
  ⟨fun req h => exec_spiOpen_of_ne req h, fun b h => exec_sendByte_of_ne_none b h,
    fun _ _ h hlen => exec_sendBytes_of_ne_none h hlen,
    fun h => (exec_spiClose s).trans (congrArg _ (spiClose_of_ne_none h)),
    fun h => (exec_spiClose s).trans (congrArg _ (spiClose_of_eq_none h)), fun ms => exec_sleep ms s⟩

/-! ### Sending without a session (log 15) -/

/-- Without a session what is required to have one stops (R102, R103). -/
theorem requireSession_of_eq_none {s : State} (h : s.spi = none) (k : Host.Outcome State Fault Refusal) :
    requireSession s k = .fault .sendWithoutSession := by
  rw [requireSession, h]

/-- A wire symbol goes out only in a session (R77, R102). -/
theorem exec_wire_requiresSession {i : Instr} (h : i.level = .wire) (s : State) :
    ∃ k, exec i s = requireSession s k := by
  rcases wire_cases h with ⟨b, rfl⟩ | ⟨b, hb⟩
  · exact ⟨_, rfl⟩
  · exact ⟨_, exec_commandSymbol s _ hb⟩

/-- Settles O17: each of these operations requires the session before anything else. -/
theorem sendingWithoutSessionFaults : Obligations.SendingWithoutSessionFaults := by
  intro s i hs hi
  obtain ⟨k, hk⟩ : ∃ k, exec i s = requireSession s k := by
    rcases hi with hw | ⟨b, rfl⟩ | ⟨bs, n, rfl⟩ | ⟨b, rfl⟩ | ⟨b, rfl⟩ | ⟨b, ps, rfl⟩ | ⟨bs, n, rfl⟩ | rfl |
      ⟨f, r, a, b, c, d, rfl⟩
    · exact exec_wire_requiresSession hw s
    all_goals exact ⟨_, rfl⟩
  rw [hk, requireSession_of_eq_none hs]

end Sys2Proof.Machine
end

section
/-! The frames (42_frames.md R110 to R114): what each operation sends, the coalesced parameters, and the framing laws
over a step. -/

namespace Sys2Proof.Machine

/-! ### The operations that send frames (R110 to R113) -/

theorem exec_cmd_of_ne_none (op : Byte) {s : State} (h : s.spi ≠ none) :
    exec (.cmd op) s = .next (framed .low (cFrame op) s) := by
  rw [exec, execCmd, requireSession_of_ne_none h, cmdFrame_eq]

theorem exec_param_of_ne_none (b : Byte) {s : State} (h : s.spi ≠ none) :
    exec (.param b) s = .next (framed .high (dFrame [b]) s) := by
  rw [exec, execParam, requireSession_of_ne_none h, paramFrame_eq]

theorem exec_data_of_ne_none (buf : List Byte) (len : Nat) {s : State} (h : s.spi ≠ none) :
    exec (.data buf len) s = .next (framed .high (dFrame (buf.take len)) s) := by
  rw [exec, execData, requireSession_of_ne_none h, dataFrame_eq]

theorem exec_cmdWithParams_of_ne_none (op : Byte) (ps : List Byte) {s : State} (h : s.spi ≠ none) :
    exec (.cmdWithParams op ps) s = .next (framed (lastLevel ps) (cdFrames op ps) s) := by
  rw [exec, execCmdWithParams, requireSession_of_ne_none h, cmdWithParams_eq]

/-- Settles O18: each operation appends its one frame, a parameter frame being the data frame of its byte. -/
theorem singleFramesOnTheWire : Obligations.SingleFramesOnTheWire := fun _ hs =>
  ⟨fun op => exec_cmd_of_ne_none op hs, fun b => exec_param_of_ne_none b hs,
    fun b => (exec_param_of_ne_none b hs).trans (exec_data_of_ne_none [b] 1 hs).symm,
    fun buf len _ => exec_data_of_ne_none buf len hs⟩

/-! ### A command with parameters (R112) -/

/-- A frame for the command and one for each parameter: that many pulses of CS. -/
theorem cdFrames_count_cs_low (op : Byte) (ps : List Byte) :
    (cdFrames op ps).count (.pinWrite .cs .low) = ps.length + 1 := by
  have command : (cFrame op).count (.pinWrite .cs .low) = 1 := rfl
  have parameter (b : Byte) : (dFrame [b]).count (.pinWrite .cs .low) = 1 := rfl
  rw [cdFrames, List.count_append, List.count_flatMap, command]
  simp [Function.comp_def, parameter, Nat.add_comm]

/-- Settles O19: the closed form of the operation, whose frames are counted. -/
theorem cmdWithParamsTogglesCsPerByte : Obligations.CmdWithParamsTogglesCsPerByte := fun _ op ps hs =>
  ⟨exec_cmdWithParams_of_ne_none op ps hs,
    (exec_cmdWithParams_of_ne_none op [] hs).trans (exec_cmd_of_ne_none op hs).symm,
    cdFrames_length op ps, cdFrames_count_cs_low op ps⟩

/-! ### Coalesced parameters (R112, R34) -/

/-- The parameter frames carry the symbols of their bytes. -/
theorem symbols_paramFrames (ps : List Byte) (dc : Level) :
    symbols dc (ps.flatMap fun p => dFrame [p]) = ps.map fun b => (Level.high, b) := by
  induction ps generalizing dc with
  | nil => rfl
  | cons p ps ih => rw [List.flatMap_cons, symbols_append, symbols_dFrame, ih]; rfl

/-- But for writes of CS and DC, a data frame is its bytes. -/
theorem dFrame_filter_not_isFraming (bs : List Byte) :
    (dFrame bs).filter (fun e => !e.isFraming) = bs.map .spiByte := by
  simp [dFrame, Event.isFraming, List.filter_map, Function.comp_def]

theorem paramFrames_filter_not_isFraming (ps : List Byte) :
    (ps.flatMap fun p => dFrame [p]).filter (fun e => !e.isFraming) = ps.map .spiByte := by
  induction ps with
  | nil => rfl
  | cons p ps ih => rw [List.flatMap_cons, List.filter_append, dFrame_filter_not_isFraming, ih]; rfl

/-- Settles O20: after the same command frame, both forms send the same bytes with DC high and nothing else but writes
of CS and DC. -/
theorem coalescedParametersAreWireEquivalent : Obligations.CoalescedParametersAreWireEquivalent := by
  refine fun dc op ps => ⟨?_, ?_⟩
  · rw [cdFrames, symbols_append, symbols_append, symbols_paramFrames, symbols_dFrame]
  · rw [cdFrames, List.filter_append, List.filter_append, paramFrames_filter_not_isFraming,
      dFrame_filter_not_isFraming]

/-! ### The framing laws over a step (R114, R22) -/

/-- A framed history and whole frames after it are a framed history. -/
theorem FramedTrace.append {s t : State} {es : List Event} (hs : FramedTrace s) (ht : t.trace = s.trace ++ es)
    (hes : WellFramed es) : FramedTrace t := by
  obtain ⟨hrun, -⟩ := hes
  unfold FramedTrace at hs ⊢
  rw [ht, Link.run_append, hs]
  exact hrun

/-- Settles O52: a step between commands sends nothing, or the whole frames of a command, or is a reset, whose history
is empty. -/
theorem stepKeepsTheFraming : Obligations.StepKeepsTheFraming := by
  intro s t hd hi hw hf h
  rcases step_idle_ends hd hi hw h with ⟨-, htrace⟩ | ⟨-, es, htrace, hes⟩ | ⟨-, htrace⟩
  · rwa [FramedTrace, htrace]
  · exact hf.append htrace hes
  · rw [FramedTrace, htrace]
    rfl

end Sys2Proof.Machine
end

section
/-! The initialisation sequence as one operation (43_init_sequence.md R120, R149 to R151; 60_exceptions.md R214, R215,
R220). -/

namespace Sys2Proof.Machine

theorem exec_initSequence (v : Variant) (bgr : Bool) (s : State) :
    exec (.initSequence v bgr) s = .next ((initSequence v bgr s).settle id) := rfl

/-- Settles O22: under `AcqOk` no step raises. -/
theorem initSequenceEmitsItsTrace : Obligations.InitSequenceEmitsItsTrace := by
  intro s v bgr hd
  rw [exec_initSequence, initSequence_eq, hd]
  rfl

/-! ### A sequence that cannot acquire something (R149) -/

/-- The state at which the sequence stops under the draw `a`: of the five points only LED's is after the opening of the
session. -/
def initStopped (v : Variant) (bgr : Bool) (a : Acq) (ps : Pads) (s : State) : State := { s with
  pads := ps, spi := if a = .gpioFail .led then some (clockReq v) else s.spi,
  trace := s.trace ++ initTraceUnder v bgr a }

/-- Every draw but `AcqOk` stops the sequence with the error of its result word, before LED's pad is touched. -/
theorem initSequence_raised (v : Variant) (bgr : Bool) {s : State} {a : Acq} (hd : s.drawInForce = a) (ha : a ≠ .ok) :
    ∃ e ps, initSequence v bgr s = .raised e (initStopped v bgr a ps s) ∧ ps.led = s.pads.led ∧
      e.rollsBack = true ∧ e.result.word = if a = .spiFail then 0x8001#16 else 0x8002#16 := by
  rw [initSequence_eq, hd]
  match a with
  | .ok => exact absurd rfl ha
  | .gpioFail .cs =>
    exact ⟨.hardwareUnavailable, s.pads, by simp [initStopped, initTraceUnder], rfl, rfl, rfl⟩
  | .spiFail | .gpioFail .rst | .gpioFail .dc | .gpioFail .led => exact ⟨_, _, rfl, rfl, rfl, rfl⟩

/-- After a rollback the block is in `S0`, if LED is released or was not configured (R215, R22). -/
theorem RolledBack.isS0 {s t : State} (h : RolledBack s t) (hled : s.pads.led.mode = .hiZ) : IsS0 t := by
  obtain ⟨hv, hw, hh, hspi, hready, hrst, hdc, hcs, hled', -⟩ := h
  refine ⟨hv, hw, hh, hspi, hready, by rw [hrst], by rw [hdc], by rw [hcs], ?_⟩
  rw [hled']
  split
  · rfl
  · exact hled

/-- The rollback closes the session only where LED was the pad that failed. -/
theorem rollbackEvents_initStopped (v : Variant) (bgr : Bool) {a : Acq} (ps : Pads) {s : State} (ha : a ≠ .ok)
    (hspi : s.spi = none) (hready : s.backlightReady = false) :
    rollbackEvents (initStopped v bgr a ps s) = rollbackTrace a := by
  simp only [rollbackEvents, initStopped, hspi, hready]
  match a with
  | .ok => exact absurd rfl ha
  | .spiFail | .gpioFail .cs | .gpioFail .rst | .gpioFail .dc | .gpioFail .led => rfl

/-- Settles O23: the sequence stops as its draw says, and the error's rollback and posting run from there. -/
theorem initSequenceFailsAtItsPoint : Obligations.InitSequenceFailsAtItsPoint := by
  intro s v bgr typ b hp h0 ha
  obtain ⟨-, -, -, hspi, hready, -, -, -, hhiZ⟩ := h0
  obtain ⟨e, ps, hraised, hled, hroll, hword⟩ := initSequence_raised v bgr (drawInForce_init hp) ha
  have hback := (rolledBack_rollback (initStopped v bgr s.acq ps s)).post e.result
  have hevents := rollbackEvents_initStopped v bgr ps ha hspi hready
  obtain ⟨-, -, -, -, -, -, -, -, -, hsame, -⟩ := id hback
  rw [exec_initSequence, hraised, StepOut.settle_raised, raiseError, if_pos hroll, ← hword]
  refine ⟨_, rfl, hback.isS0 ((congrArg Pad.mode hled).trans hhiZ), idle_post _ _, rfl, ?_, ?_, hsame⟩
  · exact congrArg (· ++ [e.result.word]) (rollback_results _)
  · rw [post_trace, rollback_trace, hevents]
    rfl

end Sys2Proof.Machine
end

section
/-! The totals of the init trace (43_init_sequence.md R152): the trace as a list of commands and of events outside the
frames, and what such a list sends. -/

namespace Sys2Proof.Machine

/-! ### One-byte frames (R114, R34) -/

/-- An event that stands between frames: no byte, and no write of CS or DC. -/
def Event.outside : Event → Bool
  | .spiByte _ => false
  | e => !e.isFraming

/-- Every byte is sent in a frame of its own, which costs three writes of CS and DC. -/
structure OneByteFrames (es : List Event) : Prop where
  frames_eq : ∀ dc, frames dc es = (symbols dc es).map fun x => (x.1, [x.2])
  framing_eq : es.countP Event.isFraming = 3 * byteCount es

theorem OneByteFrames.nil : OneByteFrames [] := ⟨fun _ => rfl, rfl⟩

theorem byteCount_append (es fs : List Event) : byteCount (es ++ fs) = byteCount es + byteCount fs :=
  List.countP_append

theorem OneByteFrames.cFrame_append (op : Byte) {es : List Event} (h : OneByteFrames es) :
    OneByteFrames (cFrame op ++ es) where
  frames_eq _ := congrArg ((Level.low, [op]) :: ·) (h.frames_eq .low)
  framing_eq := by
    rw [List.countP_append, h.framing_eq, byteCount_append, Nat.mul_add]
    rfl

theorem OneByteFrames.dFrame_append (b : Byte) {es : List Event} (h : OneByteFrames es) :
    OneByteFrames (dFrame [b] ++ es) where
  frames_eq _ := congrArg ((Level.high, [b]) :: ·) (h.frames_eq .high)
  framing_eq := by
    rw [List.countP_append, h.framing_eq, byteCount_append, Nat.mul_add]
    rfl

theorem OneByteFrames.cdFrames_append (op : Byte) (ps : List Byte) {es : List Event} (h : OneByteFrames es) :
    OneByteFrames (cdFrames op ps ++ es) := by
  rw [cdFrames, List.append_assoc]
  refine OneByteFrames.cFrame_append op ?_
  induction ps with
  | nil => exact h
  | cons p ps ih => rw [List.flatMap_cons, List.append_assoc]; exact ih.dFrame_append p

theorem OneByteFrames.outside_cons {e : Event} (he : e.outside = true) {es : List Event} (h : OneByteFrames es) :
    OneByteFrames (e :: es) := by
  cases e with
  | spiByte b => cases he
  | pinWrite p l =>
    cases p with
    | rst | led => exact ⟨h.frames_eq, h.framing_eq⟩
    | dc | cs => cases l <;> cases he
  | pinCfg p d l => exact ⟨fun dc => h.frames_eq (dcAfter dc (.pinCfg p d l)), h.framing_eq⟩
  | pinRelease _ | spiOpen _ | spiClose | delay _ => exact ⟨h.frames_eq, h.framing_eq⟩

/-! ### Every trace -/

theorem byteCount_eq_symbols_length (es : List Event) (dc : Level) : byteCount es = (symbols dc es).length := by
  induction es generalizing dc with
  | nil => rfl
  | cons e es ih =>
    cases e with
    | spiByte b => exact (List.countP_cons_of_pos rfl).trans (congrArg (· + 1) (ih dc))
    | pinCfg _ _ _ | pinWrite _ _ | pinRelease _ | spiOpen _ | spiClose | delay _ => exact ih _

/-- An event is a byte, a write of CS or DC, or outside the frames. -/
theorem length_eq_counts (es : List Event) :
    es.length = byteCount es + es.countP Event.isFraming + es.countP Event.outside := by
  induction es with
  | nil => rfl
  | cons e es ih =>
    have one : [e].length = byteCount [e] + [e].countP Event.isFraming + [e].countP Event.outside := by
      cases e with
      | pinWrite p l => cases p <;> cases l <;> rfl
      | pinCfg _ _ _ | pinRelease _ | spiOpen _ | spiByte _ | spiClose | delay _ => rfl
    rw [← List.singleton_append, List.length_append, byteCount_append, List.countP_append, List.countP_append]
    omega

theorem totalDelay_eq_sum (es : List Event) : totalDelay es = (es.filterMap Event.delay?).sum := by
  induction es with
  | nil => rfl
  | cons e es ih =>
    cases e with
    | delay ms => exact congrArg (ms + ·) ih
    | pinCfg _ _ _ | pinWrite _ _ | pinRelease _ | spiOpen _ | spiByte _ | spiClose => exact (Nat.zero_add _).trans ih

/-- Delays and configurations are found among the events outside the frames. -/
theorem filterMap_filter_outside {α : Type} {f : Event → Option α} (h : ∀ e, e.outside = false → f e = none)
    (es : List Event) : (es.filter Event.outside).filterMap f = es.filterMap f := by
  rw [List.filterMap_filter]
  congr 1
  funext e
  split
  · rfl
  · exact (h e (Bool.eq_false_iff.2 ‹_›)).symm

/-! ### Lists of commands and of events outside the frames -/

/-- A command with its parameters, or an event outside the frames. -/
inductive Action where
  | command (op : Byte) (ps : List Byte)
  | other (e : Event) (h : e.outside = true := by rfl)

/-- What an action appends to the trace (R112). -/
def Action.events : Action → List Event
  | .command op ps => cdFrames op ps
  | .other e _ => [e]

/-- The command and its parameters, if the action is one. -/
def Action.command? : Action → Option (Byte × List Byte)
  | .command op ps => some (op, ps)
  | .other _ _ => none

/-- The event outside the frames, if the action is one. -/
def Action.other? : Action → Option Event
  | .command _ _ => none
  | .other e _ => some e

/-- The symbols of a command: its byte with DC low, its parameters with DC high (R112). -/
def sentSymbols (c : Byte × List Byte) : List (Level × Byte) := (.low, c.1) :: c.2.map fun b => (.high, b)

theorem symbols_cdFrames (op : Byte) (ps : List Byte) (dc : Level) :
    symbols dc (cdFrames op ps) = sentSymbols (op, ps) := by
  rw [cdFrames, symbols_append, symbols_paramFrames]
  rfl

theorem cdFrames_filter_outside (op : Byte) (ps : List Byte) : (cdFrames op ps).filter Event.outside = [] := by
  have parameter (b : Byte) : (dFrame [b]).filter Event.outside = [] := rfl
  have command : (cFrame op).filter Event.outside = [] := rfl
  simp [cdFrames, List.filter_flatMap, command, parameter]

theorem oneByteFrames_actions (as : List Action) : OneByteFrames (as.flatMap Action.events) := by
  induction as with
  | nil => exact .nil
  | cons a as ih =>
    cases a with
    | command op ps => exact ih.cdFrames_append op ps
    | other e h => exact ih.outside_cons h

theorem symbols_actions (as : List Action) (dc : Level) :
    symbols dc (as.flatMap Action.events) = (as.filterMap Action.command?).flatMap sentSymbols := by
  induction as generalizing dc with
  | nil => rfl
  | cons a as ih =>
    rw [List.flatMap_cons, symbols_append, ih]
    cases a with
    | command op ps => rw [Action.events, symbols_cdFrames]; rfl
    | other e h =>
      cases e with
      | spiByte b => cases h
      | pinCfg _ _ _ | pinWrite _ _ | pinRelease _ | spiOpen _ | spiClose | delay _ => rfl

theorem filter_outside_actions (as : List Action) :
    (as.flatMap Action.events).filter Event.outside = as.filterMap Action.other? := by
  induction as with
  | nil => rfl
  | cons a as ih =>
    rw [List.flatMap_cons, List.filter_append, ih]
    cases a with
    | command op ps => rw [Action.events, cdFrames_filter_outside]; rfl
    | other e h => rw [Action.events, List.filter_cons_of_pos h]; rfl

/-! ### The symbols of a list of commands -/

theorem sentSymbols_filter_low (cs : List (Byte × List Byte)) :
    (cs.flatMap sentSymbols).filter (fun x => x.1 = .low) = cs.map fun c => (Level.low, c.1) := by
  induction cs with
  | nil => rfl
  | cons c cs ih =>
    rw [List.flatMap_cons, List.filter_append, ih]
    simp [sentSymbols]

theorem sentSymbols_filter_high_length (cs : List (Byte × List Byte)) :
    ((cs.flatMap sentSymbols).filter (fun x => x.1 = .high)).length = (cs.map fun c => c.2.length).sum := by
  induction cs with
  | nil => rfl
  | cons c cs ih =>
    rw [List.flatMap_cons, List.filter_append, List.length_append, ih]
    simp [sentSymbols, List.filter_map, Function.comp_def]

theorem sentSymbols_length (cs : List (Byte × List Byte)) :
    (cs.flatMap sentSymbols).length = ((cs.map fun c => c.2.length).map (· + 1)).sum := by
  simp [List.length_flatMap, sentSymbols, Function.comp_def]

/-- The step of the count in `paramCounts`. -/
def countParam (x : Level × Byte) (acc : Nat × List Nat) : Nat × List Nat :=
  if x.1 = .low then (0, acc.1 :: acc.2) else (acc.1 + 1, acc.2)

theorem paramCounts_eq (xs : List (Level × Byte)) : paramCounts xs = (xs.foldr countParam (0, [])).2 := rfl

theorem foldr_countParam_high (ps : List Byte) (acc : Nat × List Nat) :
    (ps.map fun b => (Level.high, b)).foldr countParam acc = (acc.1 + ps.length, acc.2) := by
  induction ps with
  | nil => rfl
  | cons p ps ih => rw [List.map_cons, List.foldr_cons, ih]; rfl

theorem foldr_countParam_sentSymbols (cs : List (Byte × List Byte)) :
    (cs.flatMap sentSymbols).foldr countParam (0, []) = (0, cs.map fun c => c.2.length) := by
  induction cs with
  | nil => rfl
  | cons c cs ih =>
    rw [List.flatMap_cons, List.foldr_append, ih, sentSymbols, List.foldr_cons, foldr_countParam_high, Nat.zero_add]
    rfl

/-! ### The init trace (R150 to R152) -/

/-- The actions up to the last power control command (R122 to R137). -/
def prologueActions (v : Variant) : List Action :=
  [.other (.pinCfg .cs .od .high), .other (.pinCfg .rst .pp .high), .other (.pinCfg .dc .pp .high),
   .other (.spiOpen (clockReq v)), .command 0x01#8 [],
   .other (.pinWrite .rst .low), .other (.delay 120), .other (.pinWrite .rst .high),
   .command 0x01#8 [], .other (.delay 120), .command 0x11#8 [], .other (.delay 120),
   .command 0xB1#8 frmctr1Params, .command 0xB2#8 [], .command 0xB3#8 frmctr3Params, .command 0xB4#8 invctrParams,
   .command 0xC0#8 pwctr1Params, .command 0xC1#8 pwctr2Params, .command 0xC2#8 pwctr3Params,
   .command 0xC3#8 pwctr4Params, .command 0xC4#8 pwctr5Params, .command 0xC5#8 vmctr1Params]

/-- The actions of the variant-specific part (R143). -/
def variantActions (bgr : Bool) : Variant → List Action
  | .shield18 =>
    [.command 0x36#8 [if bgr then 0xC8#8 else 0xC0#8], .command 0x3A#8 colmodParams, .command 0x20#8 [],
     .command 0x2A#8 (casetInit .shield18), .command 0x2B#8 (rasetInit .shield18)]
  | .shield096 =>
    [.command 0x21#8 [], .command 0x36#8 [if bgr then 0xA8#8 else 0xA0#8], .command 0x3A#8 colmodParams,
     .command 0x2A#8 (casetInit .shield096), .command 0x2B#8 (rasetInit .shield096)]

/-- The actions from the gamma tables on (R144 to R148). -/
def epilogueActions : List Action :=
  [.command 0xE0#8 gammaPParams, .command 0xE1#8 gammaNParams, .command 0x13#8 [], .other (.delay 10),
   .command 0x29#8 [], .other (.delay 100), .other (.pinCfg .led .od .low)]

/-- The actions of `InitSequence`, in the order of R120. -/
def initActions (v : Variant) (bgr : Bool) : List Action :=
  prologueActions v ++ variantActions bgr v ++ epilogueActions

theorem initTrace_eq_actions (v : Variant) (bgr : Bool) :
    initTrace v bgr = (initActions v bgr).flatMap Action.events := by
  have bare (op : Byte) : cFrame op = cdFrames op [] := rfl
  have prologue : (prologueActions v).flatMap Action.events = pinsTrace ++ [openTrace v] ++ prologueTrace := by
    simp only [prologueTrace, bare, ← clockReq_openTrace, List.append_assoc]
    rfl
  have variant : (variantActions bgr v).flatMap Action.events = variantTrace v bgr := by
    cases v <;> simp only [variantTrace, bare, List.append_assoc] <;> rfl
  have epilogue : epilogueActions.flatMap Action.events = epilogueTrace ++ [.pinCfg .led .od .low] := by
    simp only [epilogueTrace, bare, List.append_assoc]
    rfl
  rw [initActions, List.flatMap_append, List.flatMap_append, prologue, variant, epilogue, initTrace, initTraceButLed,
    List.append_assoc]

/-- The commands of the sequence, each with its parameters. -/
def initCommands (v : Variant) (bgr : Bool) : List (Byte × List Byte) := (initActions v bgr).filterMap Action.command?

theorem initTrace_symbols (v : Variant) (bgr : Bool) (dc : Level) :
    symbols dc (initTrace v bgr) = (initCommands v bgr).flatMap sentSymbols :=
  initTrace_eq_actions v bgr ▸ symbols_actions _ dc

theorem initCommands_bytes (v : Variant) (bgr : Bool) : (initCommands v bgr).map Prod.fst =
    if v = .shield18 then
      [0x01#8, 0x01#8, 0x11#8, 0xB1#8, 0xB2#8, 0xB3#8, 0xB4#8, 0xC0#8, 0xC1#8, 0xC2#8, 0xC3#8, 0xC4#8, 0xC5#8,
        0x36#8, 0x3A#8, 0x20#8, 0x2A#8, 0x2B#8, 0xE0#8, 0xE1#8, 0x13#8, 0x29#8]
    else
      [0x01#8, 0x01#8, 0x11#8, 0xB1#8, 0xB2#8, 0xB3#8, 0xB4#8, 0xC0#8, 0xC1#8, 0xC2#8, 0xC3#8, 0xC4#8, 0xC5#8,
        0x21#8, 0x36#8, 0x3A#8, 0x2A#8, 0x2B#8, 0xE0#8, 0xE1#8, 0x13#8, 0x29#8] := by
  cases v <;> simp only [if_true, if_false, reduceCtorEq] <;> rfl

theorem initCommands_paramCounts (v : Variant) (bgr : Bool) : (initCommands v bgr).map (fun c => c.2.length) =
    if v = .shield18 then [0, 0, 0, 3, 0, 6, 1, 3, 1, 2, 2, 2, 1, 1, 1, 0, 4, 4, 16, 16, 0, 0]
    else [0, 0, 0, 3, 0, 6, 1, 3, 1, 2, 2, 2, 1, 0, 1, 1, 4, 4, 16, 16, 0, 0] := by
  cases v <;> simp only [if_true, if_false, reduceCtorEq] <;> rfl

/-- The sequence's events outside the frames: four configurations, the opening, the reset pulse, the delays. -/
def outsideEvents (v : Variant) : List Event :=
  [.pinCfg .cs .od .high, .pinCfg .rst .pp .high, .pinCfg .dc .pp .high, openTrace v, .pinWrite .rst .low, .delay 120,
   .pinWrite .rst .high, .delay 120, .delay 120, .delay 10, .delay 100, .pinCfg .led .od .low]

theorem initTrace_filter_outside (v : Variant) (bgr : Bool) :
    (initTrace v bgr).filter Event.outside = outsideEvents v := by
  rw [initTrace_eq_actions, filter_outside_actions]
  cases v <;> rfl

theorem initTrace_oneByteFrames (v : Variant) (bgr : Bool) : OneByteFrames (initTrace v bgr) :=
  initTrace_eq_actions v bgr ▸ oneByteFrames_actions _

theorem initTrace_byteCount (v : Variant) (bgr : Bool) : byteCount (initTrace v bgr) = 85 := by
  rw [byteCount_eq_symbols_length _ .high, initTrace_symbols, sentSymbols_length, initCommands_paramCounts]
  cases v <;> rfl

theorem initTrace_delays (v : Variant) (bgr : Bool) :
    (initTrace v bgr).filterMap Event.delay? = [120, 120, 120, 10, 100] := by
  rw [← filterMap_filter_outside, initTrace_filter_outside]
  · cases v <;> rfl
  · intro e he
    cases e with
    | delay ms => cases he
    | pinCfg _ _ _ | pinWrite _ _ | pinRelease _ | spiOpen _ | spiByte _ | spiClose => rfl

theorem initTrace_configured (v : Variant) (bgr : Bool) :
    (initTrace v bgr).filterMap Event.configured? = [.cs, .rst, .dc, .led] := by
  rw [← filterMap_filter_outside, initTrace_filter_outside]
  · cases v <;> rfl
  · intro e he
    cases e with
    | pinCfg _ _ _ => cases he
    | delay _ | pinWrite _ _ | pinRelease _ | spiOpen _ | spiByte _ | spiClose => rfl

theorem initTrace_count_outside (v : Variant) (bgr : Bool) {e : Event} (he : e.outside = true) :
    (initTrace v bgr).count e = (outsideEvents v).count e := by
  rw [← initTrace_filter_outside v bgr, List.count_filter he]

/-- Settles O26: the bytes are those of the commands, in frames of one byte each, and the rest stands outside. -/
theorem initTraceTotals : Obligations.InitTraceTotals := by
  intro v bgr
  have hbytes := initTrace_byteCount v bgr
  obtain ⟨hframes, hframing⟩ := initTrace_oneByteFrames v bgr
  rw [hbytes] at hframing
  refine ⟨?_, hbytes, ?_, ?_, ?_, ?_, initTrace_delays v bgr, ?_, ?_, ?_, hframing, ?_, ?_, ?_, ?_⟩
  · rw [length_eq_counts, hbytes, hframing, List.countP_eq_length_filter, initTrace_filter_outside]
    rfl
  · rw [hframes, List.length_map, ← byteCount_eq_symbols_length, hbytes]
  · rw [hframes]
    intro f hf
    obtain ⟨x, -, rfl⟩ := List.mem_map.1 hf
    rfl
  · rw [initTrace_symbols, sentSymbols_filter_low]
    cases v <;> rfl
  · rw [initTrace_symbols, sentSymbols_filter_high_length, initCommands_paramCounts]
    cases v <;> rfl
  · rw [totalDelay_eq_sum, initTrace_delays]
    rfl
  · rw [initTrace_symbols, sentSymbols_filter_low, List.map_map]
    exact initCommands_bytes v bgr
  · rw [initTrace_symbols, paramCounts_eq, foldr_countParam_sentSymbols]
    exact initCommands_paramCounts v bgr
  · rw [initTrace_configured]
    rfl
  all_goals
    rw [initTrace_count_outside v bgr (by cases v <;> rfl)]
    cases v <;> rfl

end Sys2Proof.Machine
end

section
/-! The geometry unit (44_geometry.md R161 to R163): what one axis gives in its two cases, the laws of an axis, and from
them those of the rectangle. -/

namespace Sys2Proof.Machine

/-! ### One axis (R161, R162) -/

/-- Cropping: the floor leaves the odd surplus to the far side. -/
theorem axis_of_lt {start size panel : Nat} (h : panel < size) :
    axis start size panel = (start + (size - panel) / 2, panel, 0, 0) := if_pos h

/-- Padding: the trailing pad takes the odd part. -/
theorem axis_of_le {start size panel : Nat} (h : size ≤ panel) :
    axis start size panel = (start, size, (panel - size) / 2, (panel - size + 1) / 2) := if_neg (Nat.not_lt.2 h)

theorem axis_eq_ite (start size panel : Nat) :
    axis start size panel =
      (if size > panel then start + (size - panel) / 2 else start, if size > panel then panel else size,
        if size > panel then 0 else (panel - size) / 2, if size > panel then 0 else (panel - size + 1) / 2) := by
  by_cases h : size > panel
  · simp only [axis_of_lt h, if_pos h]
  · simp only [axis_of_le (Nat.not_lt.1 h), if_neg h]

/-- The pads and the size fill the panel: `n / 2 + (n + 1) / 2 = n`. -/
theorem axis_covers (start size panel : Nat) :
    (axis start size panel).2.2.1 + (axis start size panel).2.1 + (axis start size panel).2.2.2 = panel := by
  rcases Nat.lt_or_ge panel size with h | h
  · simp only [axis_of_lt h, Nat.zero_add, Nat.add_zero]
  · simp only [axis_of_le h]
    omega

/-- The trailing pad is the leading one or one more. -/
theorem axis_pads_centred (start size panel : Nat) :
    (axis start size panel).2.2.1 ≤ (axis start size panel).2.2.2 ∧
      (axis start size panel).2.2.2 - (axis start size panel).2.2.1 ≤ 1 := by
  rcases Nat.lt_or_ge panel size with h | h
  · simp only [axis_of_lt h]
    decide
  · simp only [axis_of_le h]
    omega

theorem axis_size_le (start size panel : Nat) : (axis start size panel).2.1 ≤ size := by
  rcases Nat.lt_or_ge panel size with h | h
  · rw [axis_of_lt h]
    exact Nat.le_of_lt h
  · rw [axis_of_le h]

theorem le_axis_start (start size panel : Nat) : start ≤ (axis start size panel).1 := by
  rcases Nat.lt_or_ge panel size with h | h
  · rw [axis_of_lt h]
    exact Nat.le_add_right _ _
  · rw [axis_of_le h]

/-! ### The rectangle (R160, R163) -/

theorem exec_geometry (r : Rect) (w h : Nat) (s : State) :
    exec (.geometry r w h) s = .next { s with work := geometry r w h } := rfl

theorem geometry_rectWithin (r : Rect) (w h : Nat) : rectWithin (geometry r w h).rect r :=
  ⟨le_axis_start r.x r.w w, axis_within r.x r.w w, le_axis_start r.y r.h h, axis_within r.y r.h h⟩

/-- Settles O28: each law is that of its axis, and the bounds by the panel follow from the sums. -/
theorem geometryLaws : Obligations.GeometryLaws := by
  intro r w h g
  have hw : g.lPad + g.rect.w + g.rPad = w := axis_covers r.x r.w w
  have hh : g.tPad + g.rect.h + g.bPad = h := axis_covers r.y r.h h
  obtain ⟨hlr, hlr1⟩ : g.lPad ≤ g.rPad ∧ g.rPad - g.lPad ≤ 1 := axis_pads_centred r.x r.w w
  obtain ⟨htb, htb1⟩ : g.tPad ≤ g.bPad ∧ g.bPad - g.tPad ≤ 1 := axis_pads_centred r.y r.h h
  have himage (iw ih : Nat) (hx : r.x + r.w ≤ iw) (hy : r.y + r.h ≤ ih) :
      g.rect.x + g.rect.w ≤ iw ∧ g.rect.y + g.rect.h ≤ ih :=
    ⟨(axis_within r.x r.w w).trans hx, (axis_within r.y r.h h).trans hy⟩
  refine ⟨hw, hh, hlr, hlr1, htb, htb1, geometry_w_le r w h, ?_, axis_size_le r.x r.w w, axis_size_le r.y r.h h,
    geometry_rectWithin r w h, himage, ?_⟩
  · omega
  · omega

/-- Settles O27: the step writes the working registers alone, each axis by its two cases. -/
theorem geometryStepWritesTheWorkingRegisters : Obligations.GeometryStepWritesTheWorkingRegisters := by
  intro s r w h
  rw [exec_geometry, geometry, axis_eq_ite r.x, axis_eq_ite r.y]

end Sys2Proof.Machine
end

section
/-! The grayscale conversion (45_pixel_pump.md R172): its fields, its order and how many values it takes. -/

namespace Sys2Proof.Machine

/-- The pixel is three fields: the grey level's upper five, six and five bits. -/
theorem gs2rgb565_eq_append (p : Byte) :
    gs2rgb565 p = p.extractLsb' 3 5 ++ (p.extractLsb' 2 6 ++ p.extractLsb' 3 5) := by
  apply BitVec.eq_of_toNat_eq
  have h := p.isLt
  rw [gs2rgb565_toNat, BitVec.toNat_append, ← Nat.shiftLeft_add_eq_or_of_lt (BitVec.isLt _), BitVec.toNat_append,
    ← Nat.shiftLeft_add_eq_or_of_lt (BitVec.isLt _)]
  simp only [BitVec.extractLsb'_toNat, Nat.shiftRight_eq_div_pow, Nat.shiftLeft_eq]
  omega

theorem gs2rgb565_monotone {p p' : Byte} (h : p ≤ p') : gs2rgb565 p ≤ gs2rgb565 p' := by
  rw [BitVec.le_def] at h ⊢
  rw [gs2rgb565_toNat, gs2rgb565_toNat]
  omega

/-- The pixel of the k-th run of four grey levels, which differ in the two bits the conversion drops. -/
def pixelOfRun (k : Nat) : Half := gs2rgb565 (BitVec.ofNat 8 (4 * k))

theorem pixelOfRun_toNat {k : Nat} (h : k < 64) : (pixelOfRun k).toNat = k / 2 * 2048 + k * 32 + k / 2 := by
  rw [pixelOfRun, gs2rgb565_toNat, BitVec.toNat_ofNat]
  omega

theorem gs2rgb565_eq_pixelOfRun (p : Byte) : gs2rgb565 p = pixelOfRun (p.toNat / 4) := by
  apply BitVec.eq_of_toNat_eq
  rw [pixelOfRun_toNat (by omega), gs2rgb565_toNat]
  omega

/-- The 64 runs have 64 pixels, since the six-bit field is the run's number. -/
theorem pixelOfRun_injOn : Set.InjOn pixelOfRun (Finset.range 64) := by
  intro j hj k hk h
  rw [Finset.mem_coe, Finset.mem_range] at hj hk
  have := congrArg BitVec.toNat h
  rw [pixelOfRun_toNat hj, pixelOfRun_toNat hk] at this
  omega

theorem gs2rgb565_values :
    ((List.range 256).map fun n => gs2rgb565 (BitVec.ofNat 8 n)).toFinset = (Finset.range 64).image pixelOfRun := by
  ext q
  simp only [List.mem_toFinset, List.mem_map, List.mem_range, Finset.mem_image, Finset.mem_range]
  constructor
  · rintro ⟨n, hn, rfl⟩
    exact ⟨n / 4, by omega, by rw [gs2rgb565_eq_pixelOfRun, BitVec.toNat_ofNat, Nat.mod_eq_of_lt hn]⟩
  · rintro ⟨k, hk, rfl⟩
    exact ⟨4 * k, by omega, rfl⟩

theorem gs2rgb565_values_length :
    ((List.range 256).map fun n => gs2rgb565 (BitVec.ofNat 8 n)).dedup.length = 64 := by
  rw [← List.card_toFinset, gs2rgb565_values, Finset.card_image_of_injOn pixelOfRun_injOn, Finset.card_range]

/-- Settles O29: the fields are those of the concatenation, and a pixel depends on its run of four levels alone. -/
theorem grayscaleConversionFields : Obligations.GrayscaleConversionFields := by
  refine ⟨fun s p => ⟨gs2rgb565 p, rfl, ?_, ?_, ?_⟩, fun _ _ => gs2rgb565_monotone, gs2rgb565_values_length,
    rfl, rfl, rfl, fun p hp => ?_, fun p hp hp' => ?_⟩
  · rw [gs2rgb565_eq_append, BitVec.extractLsb'_append_eq_left]
  · rw [gs2rgb565_eq_append, BitVec.extractLsb'_append_eq_of_add_le (by decide), BitVec.extractLsb'_append_eq_left]
  · rw [gs2rgb565_eq_append, BitVec.extractLsb'_append_eq_of_add_le (by decide), BitVec.extractLsb'_append_eq_right]
  · rw [gs2rgb565_eq_pixelOfRun, show p.toNat / 4 = 0 by omega]
    rfl
  · rw [gs2rgb565_eq_pixelOfRun, show p.toNat / 4 = 1 by omega]
    rfl

end Sys2Proof.Machine
end

section
/-! The two streams as operations of their own (45_pixel_pump.md R174 to R182, R184). -/

namespace Sys2Proof.Machine

/-- A data frame among the last ones leaves DC high. -/
theorem levelAfter_of_pos {n : Nat} (h : 0 < n) (l : Level) : levelAfter n l = .high := if_neg (Nat.ne_of_gt h)

theorem panelH_pos (v : Variant) : 0 < (panelH v).toNat := by cases v <;> decide

theorem IsInit.session {v : Variant} {s : State} (h : IsInit v s) : s.spi ≠ none := by
  obtain ⟨-, -, -, hspi, -⟩ := h
  rw [hspi]
  exact Option.some_ne_none _

/-- A geometry that fills the panel: the line buffer holds its rows, and it sends at least one data frame. -/
theorem pump_of_fills {s : State} {v : Variant} (hs : StreamReady v s) (fmt : Fmt) {g : Work}
    (hw : g.lPad + g.rect.w + g.rPad = (panelW v).toNat) (hh : g.tPad + g.rect.h + g.bPad = (panelH v).toNat) :
    pump fmt g.rect g.lPad g.rPad g.tPad g.bPad s =
      streamed .high (pumpTrace v s.mem s.regs fmt g) (lineAfter s fmt g.rect) s := by
  obtain ⟨⟨hv, hwidth, -⟩, hline⟩ := hs
  have hrow : 2 * g.rect.w ≤ s.line.length := by
    have := panelW_le v
    omega
  rw [pump_eq s v fmt g hv hwidth hrow, hh, levelAfter_of_pos (panelH_pos v)]

/-- Settles O31: the closed form of the pump, which has its session. -/
theorem pumpStreamsTheFrame : Obligations.PumpStreamsTheFrame := by
  intro s v fmt g hs hw hh
  rw [exec, execPump, requireSession_of_ne_none hs.1.session, pump_of_fills hs fmt hw hh, streamed]

theorem exec_clearStream {s : State} {v : Variant} (h : IsInit v s) : exec .clearStream s = .next { s with
    pads := padsAfterFrame .high s.pads, trace := s.trace ++ clearTrace v } := by
  obtain ⟨hv, hw, hh, -⟩ := id h
  rw [exec, execClearStream, requireSession_of_ne_none h.session, clearStream_eq s v hv hw hh, streamed]

/-- The empty rectangle has no row, and its two pads are the whole height. -/
theorem clearTrace_eq_pumpTrace (v : Variant) (m : Memory) (x : OperandRegs) (fmt : Fmt) :
    clearTrace v = pumpTrace v m x fmt (geometry ⟨0, 0, 0, 0⟩ (panelW v).toNat (panelH v).toNat) := by
  have hrows : (axis 0 0 (panelH v).toNat).2.1 = 0 := Nat.le_zero.1 (axis_size_le 0 0 _)
  have hpads := axis_covers 0 0 (panelH v).toNat
  rw [hrows, Nat.add_zero] at hpads
  simp only [clearTrace, pumpTrace, geometry, hrows, List.range_zero, List.flatMap_nil, List.append_nil]
  rw [List.append_assoc _ (List.flatten _) (List.flatten _), ← List.flatten_append, List.replicate_append_replicate,
    hpads]

/-- Settles O32: the closed form of the clear, which is the pump of no rows. -/
theorem clearStreamIsTheEmptyPump : Obligations.ClearStreamIsTheEmptyPump :=
  ⟨fun _ _ h => exec_clearStream h, clearTrace_eq_pumpTrace⟩

end Sys2Proof.Machine
end

section
/-! The totals of a pump (45_pixel_pump.md R183, 46_host_commands.md R204): after the memory-write command it is a list
of data frames, and what such a list sends is the sum over its frames. -/

namespace Sys2Proof.Machine

/-! ### Lists of data frames -/

theorem framesFrom_bytes (bs cur : List Byte) (dc : Level) (es : List Event) :
    framesFrom dc (some cur) (bs.map .spiByte ++ .pinWrite .cs .high :: es) = (dc, cur ++ bs) :: frames dc es := by
  induction bs generalizing cur with
  | nil => rw [List.append_nil]; rfl
  | cons b bs ih =>
    refine (ih (cur ++ [b])).trans ?_
    rw [List.append_assoc, List.singleton_append]

/-- A data frame is one frame, with DC high, and leaves DC high. -/
theorem frames_dFrame_append (bs : List Byte) (dc : Level) (es : List Event) :
    frames dc (dFrame bs ++ es) = (.high, bs) :: frames .high es := by
  have := framesFrom_bytes bs [] .high es
  simpa [dFrame, frames, framesFrom, dcAfter] using this

theorem byteCount_dFrame (bs : List Byte) : byteCount (dFrame bs) = bs.length := by
  rw [byteCount_eq_symbols_length _ .high, symbols_dFrame, List.length_map]

theorem frames_dFrames (bss : List (List Byte)) (dc : Level) :
    frames dc (bss.flatMap dFrame) = bss.map fun bs => (Level.high, bs) := by
  induction bss generalizing dc with
  | nil => rfl
  | cons bs bss ih => rw [List.flatMap_cons, frames_dFrame_append, ih, List.map_cons]

theorem byteCount_dFrames (bss : List (List Byte)) :
    byteCount (bss.flatMap dFrame) = (bss.map List.length).sum := by
  induction bss with
  | nil => rfl
  | cons bs bss ih => rw [List.flatMap_cons, byteCount_append, byteCount_dFrame, ih, List.map_cons, List.sum_cons]

/-- A data frame costs three events beside its bytes. -/
theorem dFrames_length (bss : List (List Byte)) :
    (bss.flatMap dFrame).length = 3 * bss.length + (bss.map List.length).sum := by
  induction bss with
  | nil => rfl
  | cons bs bss ih =>
    rw [List.flatMap_cons, List.length_append, dFrame_length, ih, List.map_cons, List.sum_cons, List.length_cons]
    omega

/-! ### The data frames of a pump (R176 to R182) -/

/-- The bytes of a side pad's frame, if it has one. -/
def padFrames (pad : Nat) : List (List Byte) := if pad = 0 then [] else [List.replicate (2 * pad) 0#8]

/-- The frames of a middle row. -/
def rowFrames (m : Memory) (x : OperandRegs) (fmt : Fmt) (g : Work) (i : Nat) : List (List Byte) :=
  padFrames g.lPad ++ [rowBytes m x fmt g.rect i] ++ padFrames g.rPad

/-- The bytes of each data frame of a pump onto a panel `w` wide, in order. -/
def pumpFrames (w : Nat) (m : Memory) (x : OperandRegs) (fmt : Fmt) (g : Work) : List (List Byte) :=
  List.replicate g.tPad (List.replicate (2 * w) 0#8) ++ (List.range g.rect.h).flatMap (rowFrames m x fmt g) ++
    List.replicate g.bPad (List.replicate (2 * w) 0#8)

theorem padTrace_eq_dFrames (pad : Nat) : padTrace pad = (padFrames pad).flatMap dFrame := by
  unfold padTrace padFrames
  split
  · rfl
  · rw [List.flatMap_singleton, zFrame]

theorem zeroRows_eq_dFrames (n k : Nat) :
    (List.replicate n (zFrame k)).flatten = (List.replicate n (List.replicate k 0#8)).flatMap dFrame := by
  rw [List.flatMap_def, List.map_replicate, zFrame]

theorem pumpTrace_eq_dFrames (v : Variant) (m : Memory) (x : OperandRegs) (fmt : Fmt) (g : Work) :
    pumpTrace v m x fmt g =
      windowTrace v ++ cFrame 0x2C#8 ++ (pumpFrames (panelW v).toNat m x fmt g).flatMap dFrame := by
  simp only [pumpTrace, pumpFrames, List.flatMap_append, List.flatMap_assoc, zeroRows_eq_dFrames, rowFrames,
    padTrace_eq_dFrames, List.flatMap_singleton, List.append_assoc]

/-! ### What they send (R183, R204) -/

theorem padFrames_length (pad : Nat) : (padFrames pad).length = if pad = 0 then 0 else 1 := by
  unfold padFrames
  split <;> rfl

theorem padFrames_bytes (pad : Nat) : ((padFrames pad).map List.length).sum = 2 * pad := by
  unfold padFrames
  split
  · next h => rw [h]; rfl
  · rw [List.map_singleton, List.sum_singleton, List.length_replicate]

theorem pumpFrames_length (w : Nat) (m : Memory) (x : OperandRegs) (fmt : Fmt) (g : Work) :
    (pumpFrames w m x fmt g).length = dataFrameCount g := by
  simp only [pumpFrames, rowFrames, dataFrameCount, List.length_append, List.length_replicate, List.length_flatMap,
    List.length_singleton, padFrames_length, List.map_const', List.sum_replicate, List.length_range, smul_eq_mul]
  rw [Nat.add_comm (ite _ _ _) 1]
  omega

theorem rowFrames_bytes (m : Memory) (x : OperandRegs) (fmt : Fmt) (g : Work) (i : Nat) :
    ((rowFrames m x fmt g i).map List.length).sum = 2 * (g.lPad + g.rect.w + g.rPad) := by
  simp only [rowFrames, List.map_append, List.sum_append, padFrames_bytes, List.map_singleton, List.sum_singleton,
    rowBytes_length]
  omega

/-- Every row of the panel, padded or not, is `2 * w` bytes. -/
theorem pumpFrames_bytes {w h : Nat} (m : Memory) (x : OperandRegs) (fmt : Fmt) {g : Work}
    (hw : g.lPad + g.rect.w + g.rPad = w) (hh : g.tPad + g.rect.h + g.bPad = h) :
    ((pumpFrames w m x fmt g).map List.length).sum = 2 * w * h := by
  have hrows : (((List.range g.rect.h).flatMap (rowFrames m x fmt g)).map List.length).sum = g.rect.h * (2 * w) := by
    rw [List.map_flatMap, List.flatMap_def, List.sum_flatten, List.map_map]
    simp only [Function.comp_def, rowFrames_bytes, hw, List.map_const', List.sum_replicate, List.length_range,
      smul_eq_mul]
  calc ((pumpFrames w m x fmt g).map List.length).sum
    _ = g.tPad * (2 * w) + g.rect.h * (2 * w) + g.bPad * (2 * w) := by
      simp only [pumpFrames, List.map_append, List.sum_append, hrows, List.map_replicate, List.sum_replicate,
        List.length_replicate, smul_eq_mul]
    _ = (g.tPad + g.rect.h + g.bPad) * (2 * w) := by rw [Nat.add_mul, Nat.add_mul]
    _ = 2 * w * h := by rw [hh, Nat.mul_comm]

/-- Settles O33: the stream is the list of its data frames, each total being that of the list. -/
theorem pumpTotals : Obligations.PumpTotals := by
  intro v m x fmt r w h g
  obtain ⟨hw, hh, -⟩ := geometryLaws r w h
  have hbytes := pumpFrames_bytes m x fmt hw hh
  have hcount := pumpFrames_length w m x fmt g
  refine ⟨(pumpFrames w m x fmt g).flatMap dFrame, pumpTrace_eq_dFrames v m x fmt g, ?_, ?_, ?_, ?_, ?_⟩
  · rw [byteCount_dFrames, hbytes]
  · rw [frames_dFrames, List.length_map, hcount]
  · rw [frames_dFrames]
    intro f hf
    obtain ⟨bs, -, rfl⟩ := List.mem_map.1 hf
    rfl
  · cases v <;> rfl
  · rw [pumpTrace_eq_dFrames, List.length_append, List.length_append, cFrame_length, dFrames_length, hcount, hbytes,
      Nat.add_assoc _ (3 * _)]

end Sys2Proof.Machine
end

section
/-! `DISPLAY` taken whole in an initialised state (46_host_commands.md R199, R212, R217) and taken again
(45_pixel_pump.md R185). -/

namespace Sys2Proof.Machine

/-! ### What a `DISPLAY` comes to -/

/-- Between commands, a posting that ends a command changes the two result fields alone. -/
theorem post_of_idle (r : Result) (p : Phase) {s : State} (hi : Idle s) :
    post r { s with phase := p } = posted r.word s := by
  obtain ⟨hphase, hprogram, hpc⟩ := hi
  rw [post, posted, hphase, hprogram, hpc]

theorem raiseError_accept_of_idle {e : ErrKind} (he : e.rollsBack = false) (c : Instr) {s : State} (hi : Idle s) :
    raiseError e (accept c s) = posted e.result.word s := by
  rw [raiseError, he]
  exact post_of_idle _ _ hi

theorem exec_display_unsupported (roi : Bool) {s : State} {v : Variant} (hv : s.variant = some v) (hi : Idle s)
    (hf : displayFmt s.regs = none) : exec (.display roi) s = .next (posted 0x8003#16 s) := by
  simp only [exec, execDisplay, accept_variant, accept_regs, hv, hf]
  exact congrArg _ (raiseError_accept_of_idle rfl _ hi)

theorem exec_display_badRoi {roi : Bool} {s : State} {v : Variant} {fmt : Fmt} (hv : s.variant = some v) (hi : Idle s)
    (hf : displayFmt s.regs = some fmt) (hr : rectInside (displayRect s.regs roi) s.regs = false) :
    exec (.display roi) s = .next (posted 0x8005#16 s) := by
  simp only [exec, execDisplay, accept_variant, accept_regs, hv, hf, hr, Bool.false_eq_true, if_false]
  exact congrArg _ (raiseError_accept_of_idle rfl _ hi)

/-- The geometry of a `DISPLAY` on the panel of `v`. -/
def displayWork (v : Variant) (roi : Bool) (x : OperandRegs) : Work :=
  geometry (displayRect x roi) (panelW v).toNat (panelH v).toNat

/-- The state at the end of the stream of a `DISPLAY` that passes its guards, but for the sequencer. -/
def displaySent (v : Variant) (roi : Bool) (fmt : Fmt) (s : State) : State :=
  streamed .high (pumpTrace v s.mem s.regs fmt (displayWork v roi s.regs))
    (lineAfter s fmt (displayWork v roi s.regs).rect) { s with work := displayWork v roi s.regs }

theorem exec_display_streams {roi : Bool} {s : State} {v : Variant} {fmt : Fmt} (hs : StreamReady v s) (hi : Idle s)
    (hf : displayFmt s.regs = some fmt) (hr : rectInside (displayRect s.regs roi) s.regs = true) :
    exec (.display roi) s = .next (posted 0x0000#16 (displaySent v roi fmt s)) := by
  obtain ⟨hv, hwidth, hheight, -⟩ := hs.1
  have hsession : (accept (.display roi) s).spi ≠ none := hs.1.session
  have hpump := pump_of_fills (s := geometryStep (displayRect s.regs roi) (panelW v).toNat (panelH v).toNat
    (accept (.display roi) s)) hs fmt (g := displayWork v roi s.regs) (axis_covers _ _ _) (axis_covers _ _ _)
  have hpost := post_of_idle .none (.exec (.display roi)) (s := displaySent v roi fmt s) hi
  simp only [exec, execDisplay, accept_variant, accept_regs, hv, hf, hr, if_true]
  rw [requireSession_of_ne_none hsession, displayStream, accept_width, accept_height, hwidth, hheight]
  exact congrArg _ ((congrArg (post .none) hpump).trans hpost)

/-! ### The second `DISPLAY` (R185) -/

/-- A `DISPLAY` is refused, and refused again, or passes its guards. -/
theorem display_refused_or_passes (roi : Bool) {s : State} {v : Variant} (hv : s.variant = some v) (hi : Idle s) :
    (∃ w, exec (.display roi) s = .next (posted w s) ∧
      exec (.display roi) (posted w s) = .next (posted w (posted w s))) ∨
    ∃ fmt, displayFmt s.regs = some fmt ∧ rectInside (displayRect s.regs roi) s.regs = true := by
  cases hf : displayFmt s.regs with
  | none => exact .inl ⟨_, exec_display_unsupported roi hv hi hf, exec_display_unsupported roi hv hi hf⟩
  | some fmt =>
    cases hr : rectInside (displayRect s.regs roi) s.regs with
    | false => exact .inl ⟨_, exec_display_badRoi hv hi hf hr, exec_display_badRoi hv hi hf hr⟩
    | true => exact .inr ⟨fmt, rfl, rfl⟩

/-- A stream takes CS back to the level it has in an initialised state, and DC's level is free there. -/
theorem IsInit.displaySent {v : Variant} {s : State} (h : IsInit v s) (roi : Bool) (fmt : Fmt) :
    IsInit v (displaySent v roi fmt s) := by
  obtain ⟨hv, hw, hh, hspi, hready, hcs, hrst, hdc, hled⟩ := h
  exact ⟨hv, hw, hh, hspi, hready, congrArg (fun p : Pad => (⟨p.mode, .high⟩ : Pad)) hcs, hrst, hdc, hled⟩

/-- A line buffer that a stream left holds the row the same stream would leave in it. -/
theorem lineAfter_again {s t : State} {fmt : Fmt} {r : Rect} (hm : t.mem = s.mem) (hx : t.regs = s.regs)
    (hl : t.line = lineAfter s fmt r) : lineAfter t fmt r = lineAfter s fmt r := by
  unfold lineAfter at hl ⊢
  split at hl
  · next h => rw [if_pos h, if_pos h, hl, hm, hx, List.drop_left' (rowBytes_length _ _ _ _ _)]
  · next h => rw [if_neg h, if_neg h, hl]

/-- Settles O48: a stream leaves the registers, the image memory and the line buffer that make the same stream again. -/
theorem displayIsIdempotent : Obligations.DisplayIsIdempotent := by
  intro s t roi v hs hi h
  obtain ⟨hinit, hlength⟩ := id hs
  obtain ⟨hv, -⟩ := id hinit
  rcases display_refused_or_passes roi hv hi with ⟨w, once, again⟩ | ⟨fmt, hf, hr⟩
  · cases once.symm.trans h
    exact ⟨_, [], again, (List.append_nil _).symm, (List.append_nil _).symm, hinit, rfl, rfl, rfl, rfl, rfl⟩
  · obtain ⟨-, -, -, -, -, hline, -⟩ := exec_extends _ s t h
    cases (exec_display_streams hs hi hf hr).symm.trans h
    have hinit' := hinit.displaySent roi fmt
    have again := exec_display_streams (s := posted _ (displaySent v roi fmt s)) ⟨hinit', hline.trans hlength⟩ hi hf hr
    exact ⟨_, _, again, rfl, rfl, hinit', lineAfter_again rfl rfl rfl, rfl, rfl, rfl, rfl⟩

end Sys2Proof.Machine
end

section
/-! The `CMD` write of a whole command, and the host commands that post a query or set the backlight
(46_host_commands.md R190, R193 to R195, R197, R198, R203; 30_encoding.md R74, R76). -/

namespace Sys2Proof.Machine

/-! ### The `CMD` write (R190, R76) -/

theorem post_eq_posted (r : Result) {s : State} (hi : Idle s) : post r s = posted r.word s := post_of_idle r s.phase hi

theorem step_of_inbox_writeCmd {s : State} {w : Half} {rest : List HostMove} (hin : s.inbox = .writeCmd w :: rest)
    (hp : s.phase = .idle) : step s = runCommand w { s with inbox := rest } := by
  simp [step, hostStep, hin, busy_eq_false hp]

/-- Settles O7: the idle block takes the write, and an illegal word is posted as its error. -/
theorem cmdWriteRunsTheDecodedCommand : Obligations.CmdWriteRunsTheDecodedCommand := by
  intro s cw rest hin hi
  obtain ⟨hp, -⟩ := id hi
  have hstep := step_of_inbox_writeCmd hin hp
  refine ⟨fun i hd => hstep.trans (runCommand_instr hd _), fun r hd => ?_⟩
  rw [hstep, runCommand_reject hd]
  exact congrArg _ (post_eq_posted (.err 4) (s := { s with inbox := rest, cmd := cw }) hi)

/-! ### The queries (R193 to R195) -/

/-- The word of an `INT` result whose value fits its 14 bits (R74). -/
theorem word_int {n : Nat} (h : n < 2 ^ 14) : (Result.int n).word = 0x4000#16 + BitVec.ofNat 16 n := by
  apply BitVec.eq_of_toNat_eq
  rw [Result.word, resultWord, BitVec.toNat_append, ← Nat.shiftLeft_add_eq_or_of_lt (BitVec.isLt _), Nat.shiftLeft_eq]
  simp only [BitVec.toNat_ofNat, BitVec.toNat_add]
  omega

theorem word_int_toNat (b : Byte) : (Result.int b.toNat).word = 0x4000#16 + b.setWidth 16 := by
  rw [word_int (b.isLt.trans (by decide)), BitVec.ofNat_toNat]

/-- A command that only posts a result. -/
theorem next_post_accept (r : Result) (c : Instr) {s : State} (hi : Idle s) :
    Host.Outcome.next (φ := Fault) (ρ := Refusal) (post r (accept c s)) = .next (posted r.word s) :=
  congrArg _ (post_of_idle r (.exec c) hi)

theorem queryResult_of_eq_none {s : State} (h : s.variant = none) (f : Variant → Nat) : queryResult s f = .none := by
  rw [queryResult, h]

theorem queryResult_of_eq_some {s : State} {v : Variant} (h : s.variant = some v) (f : Variant → Nat) :
    queryResult s f = .int (f v) := by
  rw [queryResult, h]

theorem variantCode_eq (v : Variant) : variantCode v = variantNumber v := by cases v <;> rfl

/-- Settles O38: each query posts its `queryResult`, the sentinel or the value as an `INT` word. -/
theorem queriesReturnTheDimensionsAndCode : Obligations.QueriesReturnTheDimensionsAndCode := by
  intro s hi
  have hwidth : exec .width s = .next (posted (queryResult s fun _ => s.width.toNat).word s) := next_post_accept _ _ hi
  have hheight : exec .height s = .next (posted (queryResult s fun _ => s.height.toNat).word s) :=
    next_post_accept _ _ hi
  have htype : exec .type s = .next (posted (queryResult s variantCode).word s) := next_post_accept _ _ hi
  refine ⟨fun hv => ?_, fun v hv => ?_⟩
  · simp only [queryResult_of_eq_none hv] at hwidth hheight htype
    exact ⟨hwidth, hheight, htype⟩
  · have hcode : variantNumber v < 2 ^ 14 := by cases v <;> decide
    simp only [queryResult_of_eq_some hv, word_int_toNat, variantCode_eq, word_int hcode] at hwidth hheight htype
    exact ⟨hwidth, hheight, htype⟩

/-! ### The backlight (R197, R198, R203) -/

theorem ledLevel_backlightOn (a : BitVec 12) :
    ledLevel (backlightOn a) = if a = 0#12 then .high else .low := by
  by_cases h : a = 0#12 <;> simp [ledLevel, backlightOn, h]

theorem setBacklightStep_of_ready {s : State} (h : s.backlightReady = true) (l : Level) :
    setBacklightStep l s = .done { s with
      pads := { s.pads with led := ⟨s.pads.led.mode, l⟩ }, trace := s.trace ++ [.pinWrite .led l] } := by
  rw [setBacklightStep, if_pos h]
  rfl

/-- Where the LED pad is not ready it is configured first; outside an `INIT` it can be (R90, R197). -/
theorem setBacklightStep_of_not_ready {s : State} (h : s.backlightReady = false)
    (hd : s.drawInForce ≠ .gpioFail .led) (l : Level) :
    setBacklightStep l s = .done { s with
      backlightReady := true, pads := { s.pads with led := ⟨.outOD, l⟩ },
      trace := s.trace ++ [.pinCfg .led .od l, .pinWrite .led l] } := by
  rw [setBacklightStep, h, if_neg Bool.false_ne_true, configureOutput_eq, if_neg hd]
  simp [writePin, setReady, setLatch, emit, Pads.get, Pads.set, driveMode]

/-- `SET_BACKLIGHT` in an initialised state, from what its step leaves. -/
theorem exec_setBacklight_of_done {s t : State} {a : BitVec 12} (hv : s.variant ≠ none) (hi : Idle t)
    (h : setBacklightStep (if a = 0#12 then .high else .low) (accept (.setBacklight a) s) =
      .done (accept (.setBacklight a) t)) : exec (.setBacklight a) s = .next (posted 0x0000#16 t) := by
  obtain ⟨v, hv⟩ := Option.ne_none_iff_exists'.1 hv
  simp only [exec, execSetBacklight, accept_variant, hv, ledLevel_backlightOn, h]
  exact next_post_accept .none _ hi

/-- Settles O39: the error of the uninitialised block, and the step's outcome in its two cases. -/
theorem setBacklightWritesTheInvertedLevel : Obligations.SetBacklightWritesTheInvertedLevel := by
  intro s a hi lvl
  refine ⟨fun hv => ?_, fun hv hr => ?_, fun hv hr => ?_⟩
  · simp only [exec, execSetBacklight, accept_variant, hv]
    exact congrArg _ (raiseError_accept_of_idle rfl _ hi)
  · exact exec_setBacklight_of_done hv hi (setBacklightStep_of_ready (s := accept _ s) hr lvl)
  · have hd : (accept (.setBacklight a) s).drawInForce ≠ .gpioFail .led := nofun
    exact exec_setBacklight_of_done hv hi (setBacklightStep_of_not_ready (s := accept _ s) hr hd lvl)

theorem backlightResult_of_ready {s : State} (h : s.backlightReady = true) :
    (backlightResult s).word = if s.pads.led.latch = .low then 0x4001#16 else 0x4000#16 := by
  rw [backlightResult, if_pos h, readPin, Pads.get]
  cases s.pads.led.latch <;> rfl

theorem backlightResult_of_not_ready {s : State} (h : s.backlightReady = false) : backlightResult s = .none := by
  rw [backlightResult, h, if_neg Bool.false_ne_true]

theorem exec_getBacklight_of_ready {s : State} (hi : Idle s) (h : s.backlightReady = true) : exec .getBacklight s =
    .next (posted (if s.pads.led.latch = .low then 0x4001#16 else 0x4000#16) s) := by
  rw [← backlightResult_of_ready h]
  exact next_post_accept _ _ hi

/-- Settles O40: the command posts its `backlightResult`. -/
theorem getBacklightReturnsTheInvertedLatch : Obligations.GetBacklightReturnsTheInvertedLatch := by
  refine fun s hi => ⟨fun hr => ?_, exec_getBacklight_of_ready hi⟩
  exact (next_post_accept _ _ hi).trans (by rw [backlightResult_of_not_ready hr]; rfl)

/-- Settles O46: the latch holds the inverted level that was set, and the pad is still ready. -/
theorem backlightReadsBackWhatWasSet : Obligations.BacklightReadsBackWhatWasSet := by
  intro s v a h hi
  obtain ⟨hv, -, -, -, hready, -⟩ := h
  obtain ⟨-, hset, -⟩ := setBacklightWritesTheInvertedLevel s a hi
  refine ⟨_, _, hset (hv ▸ Option.some_ne_none v) hready, exec_getBacklight_of_ready hi hready, ?_⟩
  by_cases ha : a = 0#12 <;> simp [posted, ha]

end Sys2Proof.Machine
end

section
/-! `INIT` and `DEINIT` taken whole (46_host_commands.md R191, R192, R201, R202; 60_exceptions.md R214, R215). -/

namespace Sys2Proof.Machine

/-! ### The teardown (R192, R215) -/

/-- `Rollback()` with its events. -/
theorem rollback_eq_rollbackEvents (s : State) : rollback s = { s with
    variant := none, width := 0#8, height := 0#8, spi := none, backlightReady := false,
    pads := ⟨⟨.hiZ, s.pads.rst.latch⟩, ⟨.hiZ, s.pads.dc.latch⟩, ⟨.hiZ, s.pads.cs.latch⟩,
      if s.backlightReady then ⟨.hiZ, s.pads.led.latch⟩ else s.pads.led⟩,
    trace := s.trace ++ rollbackEvents s } := by
  rw [← rollback_trace, rollback_eq]

theorem deinit_of_eq_none {s : State} (h : s.variant = none) : deinit s = s := by
  rw [deinit, h]

theorem deinit_of_ne_none {s : State} (h : s.variant ≠ none) : deinit s = rollback s := by
  obtain ⟨v, hv⟩ := Option.ne_none_iff_exists'.1 h
  rw [deinit, hv]

/-- The teardown reads and writes nothing of the sequencer's phase. -/
theorem deinit_accept (c : Instr) (s : State) : deinit (accept c s) = accept c (deinit s) := by
  by_cases hv : s.variant = none
  · rw [deinit_of_eq_none hv]
    exact deinit_of_eq_none hv
  · rw [deinit_of_ne_none hv, rollback_eq_rollbackEvents]
    exact (deinit_of_ne_none (s := accept c s) hv).trans (rollback_eq_rollbackEvents _)

theorem Idle.deinit {s : State} (hi : Idle s) : Idle (deinit s) := by
  by_cases hv : s.variant = none
  · rwa [deinit_of_eq_none hv]
  · rw [deinit_of_ne_none hv, rollback_eq_rollbackEvents]
    exact hi

/-- A command that is the teardown alone. -/
theorem post_deinit_accept (c : Instr) {s : State} (hi : Idle s) :
    post .none (deinit (accept c s)) = posted 0x0000#16 (deinit s) := by
  rw [deinit_accept]
  exact post_of_idle .none (.exec c) hi.deinit

theorem exec_deinit {s : State} (hi : Idle s) : exec .deinit s = .next (posted 0x0000#16 (deinit s)) :=
  congrArg _ (post_deinit_accept .deinit hi)

theorem rollbackEvents_of_isInit {s : State} {v : Variant} (h : IsInit v s) : rollbackEvents s = teardownTrace := by
  obtain ⟨-, -, -, hspi, hready, -⟩ := h
  rw [rollbackEvents, hspi, hready]
  rfl

/-- `INIT` of type 0 is the teardown alone (R191 (b)). -/
theorem exec_init_zero (bgr : Option Bool) {s : State} (hi : Idle s) :
    exec (.init (some 0#8) bgr) s = .next (posted 0x0000#16 (deinit s)) :=
  congrArg _ (post_deinit_accept (.init (some 0#8) bgr) hi)

/-- Settles O37: both commands are the teardown, which is nothing or the rollback. -/
theorem deinitReleasesEverything : Obligations.DeinitReleasesEverything := by
  refine fun s bgr hi => ⟨(exec_init_zero bgr hi).trans (exec_deinit hi).symm, fun hv => ?_, fun hv => ?_,
    fun v h => rollbackEvents_of_isInit h⟩
  · rw [exec_deinit hi, deinit_of_eq_none hv]
  · rw [exec_deinit hi, deinit_of_ne_none hv, rollback_eq_rollbackEvents]

/-! ### `INIT` (R191, R201) -/

/-- A block after the teardown of an `INIT`, with its pads as given. -/
def tornDown (ps : Pads) (s : State) : State := { s with
  variant := none, width := 0#8, height := 0#8, spi := none, backlightReady := false, pads := ps,
  trace := s.trace ++ teardownIfInit s }

/-- What the teardown can write. -/
theorem deinit_eq_fields (s : State) : deinit s = { s with
    variant := (deinit s).variant, width := (deinit s).width, height := (deinit s).height, spi := (deinit s).spi,
    backlightReady := (deinit s).backlightReady, pads := (deinit s).pads, trace := (deinit s).trace } := by
  by_cases hv : s.variant = none
  · rw [deinit_of_eq_none hv]
  · rw [deinit_of_ne_none hv, rollback_eq]

theorem deinit_eq_tornDown {s : State} (h : DriverInv s) : deinit s = tornDown (deinit s).pads s := by
  obtain ⟨⟨hv, hw, hh, hspi, hready, -⟩, htrace⟩ := deinit_effect h
  exact (deinit_eq_fields s).trans (by rw [hv, hw, hh, hspi, hready, htrace, tornDown])

/-- The state in which the sequence of an `INIT` starts: accepted, torn down, its draw made. -/
def initStart (typ : Option Byte) (bgr : Option Bool) (s : State) : State :=
  accept (.init typ bgr) (drawAcq (tornDown (deinit s).pads s))

theorem isS0_initStart {s : State} (h : DriverInv s) (typ : Option Byte) (bgr : Option Bool) :
    IsS0 (initStart typ bgr s) := by
  obtain ⟨⟨-, -, -, -, -, hpads⟩, -⟩ := deinit_effect h
  exact ⟨rfl, rfl, rfl, rfl, rfl, hpads⟩

/-- The draw in force in the sequence is the next of the queue (R35). -/
theorem initStart_drawInForce (typ : Option Byte) (bgr : Option Bool) (s : State) :
    (initStart typ bgr s).drawInForce = s.nextAcq := rfl

theorem variantOfCode_variantNumber (v : Variant) : variantOfCode (variantNumber v) = some v := by cases v <;> rfl

theorem bgrOf_eq (v : Variant) (bgr : Option Bool) : bgrOf v bgr = bgr.getD (usualOrder v) := by
  cases v <;> rfl

/-- An `INIT` of a variant is the sequence from `initStart`. -/
theorem exec_init {s : State} {typ : Option Byte} {v : Variant} (h : DriverInv s)
    (hcode : (typ.getD 2#8).toNat = variantNumber v) (bgr : Option Bool) : exec (.init typ bgr) s =
      .next ((initSequence v (bgr.getD (usualOrder v)) (initStart typ bgr s)).settle
        fun s => post .none (setDriver v s)) := by
  have hvcode : vcodeOf typ = variantNumber v := hcode
  have hle : ¬ 2 < variantNumber v := by cases v <;> decide
  have hstart : drawAcq (deinit (accept (.init typ bgr) s)) = initStart typ bgr s := by
    rw [deinit_accept, deinit_eq_tornDown h]
    rfl
  simp only [exec, execInit, initCommand, hvcode, hle, if_false, variantOfCode_variantNumber, bgrOf_eq, hstart]

/-- The state a successful `INIT` leaves, but for the result (R191, R201). -/
def initDone (v : Variant) (bgr : Bool) (s : State) : State := { s with
  variant := some v, width := panelW v, height := panelH v, spi := some (clockReq v), backlightReady := true,
  pads := ⟨⟨.outPP, .high⟩, ⟨.outPP, .low⟩, ⟨.outOD, .high⟩, ⟨.outOD, .low⟩⟩,
  trace := s.trace ++ teardownIfInit s ++ initTrace v bgr,
  acq := s.nextAcq, acqQueue := s.acqQueue.tail, acqDrawn := s.acqDrawn + 1 }

theorem isInit_initDone (w : Half) (v : Variant) (bgr : Bool) (s : State) : IsInit v (posted w (initDone v bgr s)) :=
  ⟨rfl, rfl, rfl, rfl, rfl, rfl, rfl, rfl, rfl⟩

/-- Under `AcqOk` no step of the sequence raises. -/
theorem exec_init_of_ok {s : State} {typ : Option Byte} {v : Variant} (h : DriverInv s) (hi : Idle s)
    (hcode : (typ.getD 2#8).toNat = variantNumber v) (hok : s.nextAcq = .ok) (bgr : Option Bool) :
    exec (.init typ bgr) s = .next (posted 0x0000#16 (initDone v (bgr.getD (usualOrder v)) s)) := by
  rw [exec_init h hcode, initSequence_eq, initStart_drawInForce, hok]
  exact congrArg _ (post_of_idle .none (.exec (.init typ bgr)) (s := initDone v (bgr.getD (usualOrder v)) s) hi)

/-- Settles O34, with the draw that was made written out. -/
theorem initSucceeds : Obligations.InitSucceeds := by
  intro s typ bgr v h hi hcode hok
  rw [exec_init_of_ok h hi hcode hok, initDone, hok, posted]

/-- Settles O35: the sequence stops as it does on its own, from `S0` under the next draw. -/
theorem initFailsAndRollsBack : Obligations.InitFailsAndRollsBack := by
  intro s typ bgr v h hi hcode hfail
  obtain ⟨e, ps, hraised, -⟩ := initSequence_raised v (bgr.getD (usualOrder v)) (initStart_drawInForce typ bgr s) hfail
  have hexec : exec (.init typ bgr) s = exec (.initSequence v (bgr.getD (usualOrder v))) (initStart typ bgr s) := by
    rw [exec_init h hcode, exec_initSequence, hraised, StepOut.settle_raised, StepOut.settle_raised]
  rw [hexec]
  exact initSequenceFailsAtItsPoint (initStart typ bgr s) v _ typ bgr rfl (isS0_initStart h typ bgr) hfail

/-! ### `INIT`, `DEINIT`, `INIT` (R202) -/

theorem exec_deinit_of_isInit {s : State} {v : Variant} (h : IsInit v s) (hi : Idle s) :
    ∃ t, exec .deinit s = .next t ∧ IsS0 t ∧ Idle t ∧ t.trace = s.trace ++ teardownTrace ∧ t.nextAcq = s.nextAcq := by
  obtain ⟨hv, -⟩ := id h
  have hne : s.variant ≠ none := hv ▸ Option.some_ne_none v
  obtain ⟨h0, -⟩ := deinit_effect (driverInv_init h)
  refine ⟨_, exec_deinit hi, h0, hi.deinit, ?_, ?_⟩
  · rw [← rollbackEvents_of_isInit h, ← rollback_trace, ← deinit_of_ne_none hne]
    rfl
  · rw [deinit_eq_fields]
    rfl

theorem nextAcq_of_cons {s : State} {a : Acq} {as : List Acq} (h : s.acqQueue = a :: as) : s.nextAcq = a := by
  rw [State.nextAcq, h]

theorem teardownIfInit_of_isS0 {s : State} (h : IsS0 s) : teardownIfInit s = [] := if_pos h.1

theorem teardownIfInit_of_isInit {v : Variant} {s : State} (h : IsInit v s) : teardownIfInit s = teardownTrace := by
  obtain ⟨hv, -⟩ := h
  exact if_neg (hv ▸ Option.some_ne_none v)

theorem initDone_trace_of_isS0 (v : Variant) (bgr : Bool) {s : State} (h : IsS0 s) :
    (initDone v bgr s).trace = s.trace ++ initTrace v bgr := by
  rw [initDone, teardownIfInit_of_isS0 h, List.append_nil]

theorem initDone_trace_of_isInit {v : Variant} (bgr : Bool) {s : State} (h : IsInit v s) :
    (initDone v bgr s).trace = s.trace ++ teardownTrace ++ initTrace v bgr := by
  rw [initDone, teardownIfInit_of_isInit h]

/-- Settles O47: each `INIT` emits the one trace, the teardown before it where the block is initialised. -/
theorem reinitialisationRepeatsTheTrace : Obligations.ReinitialisationRepeatsTheTrace := by
  intro s v typ bgr rest h0 hi hcode hq
  have ha := exec_init_of_ok (.inl h0) hi hcode (nextAcq_of_cons hq) bgr
  have hinit := isInit_initDone 0x0000#16 v (bgr.getD (usualOrder v)) s
  have hqueue := nextAcq_of_cons (s := posted 0x0000#16 (initDone v (bgr.getD (usualOrder v)) s)) (congrArg List.tail hq)
  obtain ⟨b, hb, hb0, hbi, hbtrace, hbnext⟩ := exec_deinit_of_isInit hinit hi
  have hc := exec_init_of_ok (.inl hb0) hbi hcode (hbnext.trans hqueue) bgr
  have hd := exec_init_of_ok (driverInv_init hinit) hi hcode hqueue bgr
  obtain ⟨hlength, -⟩ := initTraceTotals v (bgr.getD (usualOrder v))
  refine ⟨_, b, _, _, _, ha, hb, hc, hd, hb0, hlength, initDone_trace_of_isS0 v _ h0, hbtrace,
    initDone_trace_of_isS0 v _ hb0, initDone_trace_of_isInit _ hinit, fun e he => ?_⟩
  obtain rfl | rfl := List.mem_pair.1 he
  · exact ⟨rfl, rfl, rfl, rfl, rfl, rfl⟩
  · exact ⟨rfl, rfl, rfl, rfl, rfl, rfl⟩

end Sys2Proof.Machine
end

section
/-! `DISPLAY` and `CLEAR` in an initialised state (46_host_commands.md R199, R200). -/

namespace Sys2Proof.Machine

theorem displayFmt_of_mut {x : OperandRegs} {fmt : Fmt} (hm : x.imgMut = 1#1) (hf : x.imgFmt = fmtCode fmt) :
    displayFmt x = some fmt := by
  rw [displayFmt, hm, hf]
  cases fmt <;> rfl

/-- Settles O43: its image passes the guards, and the stream is the pump's closed form. -/
theorem displayStreamsTheImage : Obligations.DisplayStreamsTheImage := by
  intro s roi v fmt r hs hi hm hf hr hx hy
  have hrect : displayRect s.regs roi = r := hr.symm
  have hinside : rectInside (displayRect s.regs roi) s.regs = true := by
    simp [rectInside, hrect, hx, hy]
  rw [exec_display_streams hs hi (displayFmt_of_mut hm hf) hinside, displaySent, displayWork, hrect, streamed]

theorem exec_clear_of_eq_some {s : State} {v : Variant} (hv : s.variant = some v) : exec .clear s =
    requireSession (accept .clear s) (.next (post .none (clearStream
      (geometryStep emptyRect s.width.toNat s.height.toNat (accept .clear s))))) := by
  simp only [exec, execClear, accept_variant, accept_width, accept_height, hv]

/-- Settles O44: the closed form of the clear, after geometry's writing of the working registers. -/
theorem clearStreamsBlack : Obligations.ClearStreamsBlack := by
  intro s v h hi
  obtain ⟨hv, hw, hh, -⟩ := id h
  have hsession : (accept .clear s).spi ≠ none := h.session
  rw [exec_clear_of_eq_some hv, requireSession_of_ne_none hsession,
    clearStream_eq (geometryStep _ _ _ (accept .clear s)) v hv hw hh, ← hw, ← hh]
  exact next_post_accept .none .clear (s := streamed .high (clearTrace v) s.line
    { s with work := geometry emptyRect s.width.toNat s.height.toNat }) hi

end Sys2Proof.Machine
end

section
/-! The errors of the host commands, each before any event (60_exceptions.md R211 to R213, R215, R217, R219). -/

namespace Sys2Proof.Machine

/-! ### The guards of `DISPLAY` (R212, R217, R219) -/

theorem fmtOf_eq_none_iff (code : Byte) : fmtOf code = none ↔ code ≠ 1#8 ∧ code ≠ 2#8 := by
  by_cases h1 : code = 1#8
  · simp [fmtOf, h1]
  · by_cases h2 : code = 2#8 <;> simp [fmtOf, h1, h2]

theorem displayFmt_eq_none_iff (x : OperandRegs) :
    displayFmt x = none ↔ (x.imgFmt ≠ 1#8 ∧ x.imgFmt ≠ 2#8) ∨ x.imgMut = 0#1 := by
  rw [← fmtOf_eq_none_iff, displayFmt]
  by_cases hm : x.imgMut = 0#1 <;> simp [hm]

theorem rectInside_eq_false_iff (r : Rect) (x : OperandRegs) :
    rectInside r x = false ↔ x.imgW.toNat < r.x + r.w ∨ x.imgH.toNat < r.y + r.h := by
  simp only [rectInside, Bool.and_eq_false_iff, decide_eq_false_iff_not, Nat.not_le]

/-- Settles O42: an unsupported image is one with no `displayFmt`, and the rectangle of the statement is `displayRect`. -/
theorem displayRefusesFormatThenRoi : Obligations.DisplayRefusesFormatThenRoi := by
  intro s roi hi hne x rx ry rw rh bad
  obtain ⟨v, hv⟩ := Option.ne_none_iff_exists'.1 hne
  refine ⟨fun hbad => exec_display_unsupported roi hv hi ((displayFmt_eq_none_iff x).2 hbad), fun hgood hout => ?_⟩
  obtain ⟨fmt, hf⟩ := Option.ne_none_iff_exists'.1 (mt (displayFmt_eq_none_iff x).1 hgood)
  have hrect : displayRect x roi = ⟨rx, ry, rw, rh⟩ := by cases roi <;> rfl
  have houtside : rectInside (displayRect x roi) x = false := by
    rw [hrect]
    exact (rectInside_eq_false_iff _ x).2 hout
  exact exec_display_badRoi hv hi hf houtside

/-! ### `Rollback()` as a step (R215) -/

theorem exec_rollback (s : State) : exec .rollback s = .next (rollback s) := rfl

/-- Settles O25: the step is `rollback`, which writes neither the result nor the sequencer. -/
theorem rollbackTearsDown : Obligations.RollbackTearsDown := by
  refine fun s => ⟨_, exec_rollback s, rolledBack_rollback s, rollback_trace s, ?_⟩
  rw [rollback_eq]
  exact ⟨rfl, rfl, rfl, rfl, rfl⟩

/-! ### `INIT` of no known type (R213) -/

/-- Settles O36: the type is tested before the teardown. -/
theorem initInvalidVariantChangesNothing : Obligations.InitInvalidVariantChangesNothing := by
  intro s n bgr hi hn
  have htype : 2 < vcodeOf (some n) := hn
  rw [exec, execInit, initCommand, if_pos htype]
  exact congrArg _ (raiseError_accept_of_idle rfl _ hi)

/-! ### The uninitialised block (R211) -/

theorem exec_display_of_eq_none (roi : Bool) {s : State} (hv : s.variant = none) (hi : Idle s) :
    exec (.display roi) s = .next (posted 0x0000#16 s) := by
  simp only [exec, execDisplay, accept_variant, hv]
  exact congrArg _ (raiseError_accept_of_idle rfl _ hi)

theorem exec_clear_of_eq_none {s : State} (hv : s.variant = none) (hi : Idle s) :
    exec .clear s = .next (posted 0x0000#16 s) := by
  simp only [exec, execClear, accept_variant, hv]
  exact congrArg _ (raiseError_accept_of_idle rfl _ hi)

/-- Settles O41: `DISPLAY` and `CLEAR` raise the error; the other commands are as their own statements say. -/
theorem uninitializedHasNoSideEffect : Obligations.UninitializedHasNoSideEffect := by
  intro s roi a hi hv
  obtain ⟨hset, -⟩ := setBacklightWritesTheInvertedLevel s a hi
  obtain ⟨hqueries, -⟩ := queriesReturnTheDimensionsAndCode s hi
  obtain ⟨hwidth, hheight, htype⟩ := hqueries hv
  obtain ⟨-, hdeinit, -⟩ := deinitReleasesEverything s none hi
  obtain ⟨hget, -⟩ := getBacklightReturnsTheInvertedLatch s hi
  exact ⟨exec_display_of_eq_none roi hv hi, exec_clear_of_eq_none hv hi, hset hv, hwidth, hheight, htype, hdeinit hv,
    hget⟩

end Sys2Proof.Machine
end

section
/-! A step between commands always completes, a `CMD` write while busy, the reset move, and the bit clock
(70_reset_and_hazards.md R240, R241, R246, R253, R255; 41_spi.md R101). -/

namespace Sys2Proof.Machine

/-! ### The moves a step takes while busy or at any time (R240, R241, R246) -/

/-- Settles O10: busy, the host's step drops a `CMD` write of either form. -/
theorem cmdWriteWhileBusyIsIgnored : Obligations.CmdWriteWhileBusyIsIgnored := by
  intro s cw rest hb hin
  rcases hin with hin | hin
  · simp [step, hostStep, hin, hb]
  · simp [step, hostStep, hin, hb]

theorem step_of_inbox_reset {s : State} {rest : List HostMove} (hin : s.inbox = .reset :: rest) :
    step s = .next (resetBlock { s with inbox := rest }) := by
  simp [step, hostStep, hin]

/-- Settles O13: the block's own fields are those of `State.reset`, and the environment's are kept. -/
theorem resetMoveAbandonsTheCommand : Obligations.ResetMoveAbandonsTheCommand := fun _ _ hin =>
  ⟨_, step_of_inbox_reset hin, isS0_reset, rfl, rfl, rfl, rfl, rfl, rfl⟩

/-! ### Every step from an idle state completes (R255) -/

theorem step_of_inbox_wait {s : State} {rest : List HostMove} (hin : s.inbox = .wait :: rest)
    (hp : s.phase = .idle) : step s = .next { s with inbox := rest } := by
  rw [step, hostStep, hin]
  exact sequencerStep_idle hp

theorem step_of_inbox_waitIdle {s : State} {rest : List HostMove} (hin : s.inbox = .waitIdle :: rest)
    (hp : s.phase = .idle) : step s = .next { s with inbox := rest } := by
  simp [step, hostStep, hin, busy_eq_false hp]

theorem step_of_inbox_startCmd {s : State} {w : Half} {rest : List HostMove} (hin : s.inbox = .startCmd w :: rest)
    (hp : s.phase = .idle) : step s = .next (beginCommand w { s with inbox := rest }) := by
  simp [step, hostStep, hin, busy_eq_false hp]

/-- Settles O51, by the host's next move: only a `CMD` write taken whole runs an operation, and in the three
DriverStates every command ends. -/
theorem stepAlwaysCompletes : Obligations.StepAlwaysCompletes := by
  intro s hd hi
  obtain ⟨hp, -⟩ := hi
  rcases hin : s.inbox with _ | ⟨m, rest⟩
  · exact ⟨s, (step_eq_sequencerStep hin).trans (sequencerStep_idle hp)⟩
  obtain ⟨hresult, hstatus, hwrite, hread, himage⟩ := hostRegisterMoves s rest
  cases m with
  | writeCmd w =>
    obtain ⟨t, ht, -⟩ := runCommand_ends w (s := { s with inbox := rest })
      (driverInv_congr hd rfl rfl rfl rfl rfl rfl)
    exact ⟨t, (step_of_inbox_writeCmd hin hp).trans ht⟩
  | startCmd w => exact ⟨_, step_of_inbox_startCmd hin hp⟩
  | wait => exact ⟨_, step_of_inbox_wait hin hp⟩
  | waitIdle => exact ⟨_, step_of_inbox_waitIdle hin hp⟩
  | writeReg v => exact ⟨_, hwrite v hp hin⟩
  | readReg r => exact ⟨_, hread r hp hin⟩
  | readResult => exact ⟨_, hresult hin⟩
  | readStatus => exact ⟨_, hstatus hin⟩
  | writeImage a b => exact ⟨_, himage a b hp hin⟩
  | reset => exact ⟨_, step_of_inbox_reset hin⟩

/-! ### The bit clock (R101, R253) -/

theorem mem_supportedClocks {kernel n c : Nat} {ps : List Nat} :
    c ∈ supportedClocks kernel ps n ↔ ∃ d ∈ ps, kernel ≤ n * d ∧ kernel / d = c := by
  simp [supportedClocks, and_assoc]

/-- Every supported clock is at or below the request. -/
theorem le_of_mem_supportedClocks {kernel n c : Nat} {ps : List Nat} (h : c ∈ supportedClocks kernel ps n) :
    c ≤ n := by
  obtain ⟨d, -, hd, rfl⟩ := mem_supportedClocks.1 h
  exact Nat.div_le_of_le_mul (Nat.mul_comm n d ▸ hd)

theorem pickClock_of_eq_nil {kernel n : Nat} {ps : List Nat} (h : supportedClocks kernel ps n = []) :
    pickClock kernel ps n = min n (Config.unmetClock n) :=
  if_pos h

/-- Where there is a supported clock, the one picked is the greatest of them. -/
theorem pickClock_of_ne_nil {kernel n : Nat} {ps : List Nat} (h : supportedClocks kernel ps n ≠ []) :
    pickClock kernel ps n ∈ supportedClocks kernel ps n ∧
      ∀ c ∈ supportedClocks kernel ps n, c ≤ pickClock kernel ps n := by
  have hpick : pickClock kernel ps n = (supportedClocks kernel ps n).foldl max 0 := if_neg h
  rw [← List.max?_eq_some_iff, hpick]
  cases hc : supportedClocks kernel ps n with
  | nil => exact absurd hc h
  | cons c cs => rw [List.max?_cons', List.foldl_cons, Nat.zero_max]

theorem pickClock_le (kernel : Nat) (ps : List Nat) (n : Nat) : pickClock kernel ps n ≤ n := by
  by_cases h : supportedClocks kernel ps n = []
  · exact pickClock_of_eq_nil h ▸ Nat.min_le_left _ _
  · exact le_of_mem_supportedClocks (pickClock_of_ne_nil h).1

/-- Settles O60: a prescaler that meets the request makes its clock a supported one, and the greatest of those is
picked. -/
theorem bitClockNeverExceedsTheRequest : Obligations.BitClockNeverExceedsTheRequest := by
  refine ⟨fun n => ⟨pickClock_le _ _ n, rfl⟩, fun kernel n d ps hd hle => ?_⟩
  have hmem : kernel / d ∈ supportedClocks kernel ps n := mem_supportedClocks.2 ⟨d, hd, hle, rfl⟩
  obtain ⟨hpicked, hgreatest⟩ := pickClock_of_ne_nil (List.ne_nil_of_mem hmem)
  obtain ⟨e, he, hele, heq⟩ := mem_supportedClocks.1 hpicked
  exact ⟨hgreatest _ hmem, e, he, hele, heq.symm⟩

end Sys2Proof.Machine
end
